-- ==== Sys2Proof/Word.lean ====
section
/-! DEFINITION. The word types of the dm-Stutter FDN core: every register of the port and every
delay-line slot is one 32-bit word (10_state.md R32, 20_memory.md R63). -/

namespace Sys2Proof

/-- One 32-bit word: a host-visible register, a command word or a binary32 bit pattern (R14, R63). -/
abbrev Word := BitVec 32

/-- One byte lane of a word (R63). -/
abbrev Byte := BitVec 8

/-- A set of the five sticky causes, one bit each, in the positions of `STATUS[4:0]` (R36, R301):
bit 0 RANGE, 1 PARAM, 2 NONFINITE, 3 BADCMD, 4 OVERRUN. -/
abbrev Causes := BitVec 5

end Sys2Proof
end

