-- ==== Sys2Proof/Config.lean ====
section
/-! DEFINITION. What is fixed when the core is built (00_scope.md R6, R9, R10, R16; 10_state.md R30),
as plain data, and the model's free values. "A model takes the whole set as a configuration argument"
(00_scope.md section 4): the machine carries its `Config` in the field `cfg` of `State`, no step
writes it, and claims quantify over it. The reference values are in Machine/Params.lean, the
functions of a configuration (lengths, `SPMS`, `SIN_T`, ...) in Machine/Params.lean and
Machine/Trig.lean. -/

namespace Sys2Proof

/-- An exact decimal (rational) constant `num / den` of R9, before its conversion to binary32. -/
structure Dec where
  num : Int
  den : Nat
  deriving DecidableEq, Repr

/-- The interpolation of a delay-line read: "a closed tagged variant" (R106, R148). -/
inductive Interp where
  | step
  | linear
  | cosine
  | cubic
  | spline
  deriving DecidableEq, Repr

/-- One early reflection: time fraction, gain and pan position (R230). -/
structure Reflection where
  frac : Dec
  gain : Dec
  pan  : Dec
  deriving DecidableEq, Repr

/-- A configuration function on binary32 words as plain data: the words at which it differs from the
reference function, with its values there (R16; log entry 3). -/
abbrev FunPatch := List (Word × Word)

/-- The configuration of a core: everything fixed at elaboration (R6, R9, R16, R30). -/
structure Config where
  /-- `FS32`, the sample rate in hertz, a binary32 value (R6). -/
  fs32         : Word
  /-- `TAP_FRACTION[0..3]`. -/
  tapFraction  : Vector Dec 4
  /-- `TAP_LFO_OFFSET[0..3]`, in cycles. -/
  tapLfoOffset : Vector Dec 4
  /-- `AP_TIME_MS[0..3]`, in milliseconds. -/
  apTimeMs     : Vector Dec 4
  /-- `ER_FRAC`, `ER_GAIN`, `ER_PAN` of taps 0 and 1; `ER_COUNT[t]` is the length of the list (R230). -/
  reflections  : Vector (List Reflection) 2
  /-- `ER_SIZE_SCALE`, per millisecond (R236). -/
  erSizeScale  : Dec
  /-- `SAT_THRESHOLD` (R238). -/
  satThreshold : Dec
  /-- `SAT_CUTOFF_HZ` (R238). -/
  satCutoffHz  : Dec
  /-- `MOD_SCALE_MS`, milliseconds per unit of depth (R195, R198). -/
  modScaleMs   : Dec
  /-- `M`, the feedback matrix, row by row (R11, R237). -/
  matrix       : Vector (Vector Int 4) 4
  /-- `TAP_INTERP` (R148). -/
  tapInterp    : Interp
  /-- `ER_INTERP` (R148). -/
  erInterp     : Interp
  /-- `AP_INTERP` (R148). -/
  apInterp     : Interp
  /-- `RNG_SEED` (R48). -/
  rngSeed      : Word
  /-- Where `SIN_T` differs from the reference function (R16). -/
  sinPatch     : FunPatch
  /-- Where `COS_T` differs from the reference function (R16). -/
  cosPatch     : FunPatch
  /-- Where `TANH` differs from the reference function (R16). -/
  tanhPatch    : FunPatch
  deriving DecidableEq, Repr

/-- FREE VALUE: what the `n`-th read returns that the spec says "returns any value (a draw)": reads
while BUSY (R353) and reads during reset (R341). Nothing constrains it (log entry 5). -/
opaque Config.portDraw : Nat → Word

end Sys2Proof
end

