-- ==== Sys2Proof/Machine/Float32.lean ====
section
/-! DEFINITION. IEEE 754 binary32 arithmetic (00_scope.md R14, R15, R17), exact and computable.
Every finite binary32 value is an integer multiple of 2^-149; `F32.val` is that integer, and an
operation computes its exact result as an integer or a ratio of integers in that unit and rounds it
once, to nearest, ties to even. -/

namespace Sys2Proof.F32

/-! ### Fields and classes -/

/-- The sign bit, bit 31 (R63). -/
def sign (w : Word) : Bool := w.getLsbD 31

/-- The exponent field, bits 30..23 (R63). -/
def expField (w : Word) : Nat := (w.extractLsb' 23 8).toNat

/-- The fraction field, bits 22..0 (R63). -/
def fracField (w : Word) : Nat := (w.extractLsb' 0 23).toNat

def isNaN (w : Word) : Bool := expField w == 255 && fracField w != 0

def isInf (w : Word) : Bool := expField w == 255 && fracField w == 0

/-- `finite(x)` of R17. -/
def isFinite (w : Word) : Bool := expField w != 255

/-- `0 < |x| < 2^-126` (R17). -/
def isSubnormal (w : Word) : Bool := expField w == 0 && fracField w != 0

/-- The magnitude of a finite value in units of 2^-149. An infinity has the magnitude 2^277, above
every finite one, so that `val` also orders the infinities. -/
def mag (w : Word) : Nat :=
  if expField w = 0 then fracField w else (2 ^ 23 + fracField w) * 2 ^ (expField w - 1)

/-- The signed value of a word that is not a NaN, in units of 2^-149. -/
def val (w : Word) : Int := if sign w then -(mag w : Int) else (mag w : Int)

/-! ### Constants -/

/-- The canonical quiet NaN (R15). -/
def nan : Word := 0x7FC00000#32

/-- Positive zero, the reset value of the signal state (R340). -/
def zero : Word := 0x00000000#32

def one : Word := 0x3F800000#32

def half : Word := 0x3F000000#32

/-- 2^149, the number of units in 1.0. -/
def unitsPerOne : Nat := 2 ^ 149

/-! ### Rounding -/

/-- The 31 low bits of the binary32 value nearest to `num / den` units of 2^-149, ties to even;
a magnitude at or above the overflow bound gives the infinity (R14). With `k` the power of two of the
spacing there and `r` the rounded multiple of it, the bits are `k * 2^23 + r`: the leading bit of `r`
adds one to the exponent field, and a carry out of the significand does as well. -/
def roundBits (num den : Nat) : Nat :=
  let k := Nat.log2 (num / den) - 23
  let d := den * 2 ^ k
  let r := num / d
  let rest := 2 * (num % d)
  let up := decide (d < rest) || (rest == d && r % 2 == 1)
  min (k * 2 ^ 23 + (if up then r + 1 else r)) 0x7F800000

/-- Round `± num / den` units of 2^-149 to binary32. -/
def roundSigned (neg : Bool) (num den : Nat) : Word :=
  BitVec.ofNat 32 (roundBits num den + if neg then 2 ^ 31 else 0)

/-- `rne32` of an exact constant (R9, R14). -/
def ofDec (d : Dec) : Word := roundSigned (decide (d.num < 0)) (d.num.natAbs * unitsPerOne) d.den

/-- The binary32 value nearest to an integer (zero is +0.0). -/
def ofInt (n : Int) : Word := roundSigned (decide (n < 0)) (n.natAbs * unitsPerOne) 1

/-! ### Arithmetic (R14, R15): a NaN result is the canonical NaN -/

/-- Sign flip, exact (R237). -/
def neg (a : Word) : Word := a ^^^ 0x80000000#32

/-- The sum of two words that are not NaNs. Two equal infinities give that infinity, opposite ones a
NaN; an exact zero is +0.0 unless both operands are negative zeros. -/
def addNumbers (a b : Word) : Word :=
  if isInf a then (if isInf b && sign a != sign b then nan else a)
  else if isInf b then b
  else
    let s := val a + val b
    if s = 0 then roundSigned (sign a && sign b) 0 1
    else roundSigned (decide (s < 0)) s.natAbs 1

/-- `a + b`. -/
def add (a b : Word) : Word := if isNaN a || isNaN b then nan else addNumbers a b

/-- `a - b`. -/
def sub (a b : Word) : Word := if isNaN a || isNaN b then nan else addNumbers a (neg b)

/-- The infinity of a sign. -/
def infOf (neg : Bool) : Word := if neg then 0xFF800000#32 else 0x7F800000#32

/-- `a * b`. -/
def mul (a b : Word) : Word :=
  let s := sign a != sign b
  if isNaN a || isNaN b then nan
  else if isInf a || isInf b then (if mag a = 0 ∨ mag b = 0 then nan else infOf s)
  else roundSigned s (mag a * mag b) unitsPerOne

/-- `a / b`. -/
def div (a b : Word) : Word :=
  let s := sign a != sign b
  if isNaN a || isNaN b then nan
  else if isInf a then (if isInf b then nan else infOf s)
  else if isInf b then roundSigned s 0 1
  else if mag b = 0 then (if mag a = 0 then nan else infOf s)
  else roundSigned s (mag a * unitsPerOne) (mag b)

/-! ### Comparisons: false with a NaN operand (R15) -/

/-- `a < b`. -/
def lt (a b : Word) : Bool := !isNaN a && !isNaN b && decide (val a < val b)

/-- `a <= b`. -/
def le (a b : Word) : Bool := !isNaN a && !isNaN b && decide (val a ≤ val b)

/-- `a == b`: `-0.0 == 0.0` holds (R193). -/
def eq (a b : Word) : Bool := !isNaN a && !isNaN b && decide (val a = val b)

/-! ### Helper primitives of R17 -/

/-- `floor(x)` of a finite value, a mathematical integer. -/
def floor (x : Word) : Int := val x / (unitsPerOne : Int)

/-- `round(x)` of a finite value, ties away from zero. -/
def round (x : Word) : Int :=
  let n := (2 * mag x + unitsPerOne) / (2 * unitsPerOne)
  if sign x then -(n : Int) else (n : Int)

/-- `x - floor(x)`, one binary32 subtraction. -/
def subFloor (x : Word) : Word := sub x (ofInt (floor x))

/-- `frac1(x)`: the fractional part, with a difference that rounds to 1.0 sent to 0.0. -/
def frac1 (x : Word) : Word :=
  if isFinite x then (if eq (subFloor x) one then zero else subFloor x) else nan

/-- `abs(x)`: the sign bit cleared. -/
def abs (x : Word) : Word := x &&& 0x7FFFFFFF#32

/-- `min(a,b)`, NaN-propagating. -/
def min (a b : Word) : Word := if isNaN a || isNaN b then nan else if lt a b then a else b

/-- `max(a,b)`, NaN-propagating. -/
def max (a b : Word) : Word := if isNaN a || isNaN b then nan else if lt b a then a else b

/-- `clamp01(x)`. -/
def clamp01 (x : Word) : Word := if isNaN x then nan else min (max x zero) one

/-- `ftz(x)`: a subnormal becomes +0.0. -/
def ftz (x : Word) : Word := if isSubnormal x then zero else x

end Sys2Proof.F32
end

