-- ==== Sys2Proof/Machine/Trig.lean ====
section
/-! DEFINITION. The configuration functions `SIN_T`, `COS_T`, `TANH` (00_scope.md R16). The reference
functions are "the exact values of P1 at quarter turns and otherwise the binary32 rounding of the real
function of the argument reduced to [0,1)"; they are computed here in 256-bit fixed point from the
Taylor series and rounded once (log entry 4). A configuration may differ from them at any words
(`FunPatch`, log entry 3). After the functions stand the properties P1 to P7 that R16 names. -/

namespace Sys2Proof.F32

/-! ### Fixed-point series -/

/-- The fixed-point one, 2^256. -/
def fixOne : Nat := 2 ^ 256

/-- `floor(2·π·2^256)` [from general knowledge: the value of π, as R16 says of these values]. -/
def fixTwoPi : Nat := 0x6487ed5110b4611a62633145c06e0e68948127044533e63a0105df531d89cd912

/-- `1 - x²/((n+1)(n+2))·(1 - x²/((n+3)(n+4))·(…))` with `fuel` nested factors: from `n = 1` it is
`sin(x)/x`. -/
def alternatingSeries (x2 : Nat) : Nat → Nat → Nat
  | 0, _ => fixOne
  | fuel + 1, n => fixOne - x2 * alternatingSeries x2 fuel (n + 2) / ((n + 1) * (n + 2) * fixOne)

/-- `1 + x²/((n+1)(n+2))·(1 + x²/((n+3)(n+4))·(…))`: from `n = 0` it is `cosh(x)`, from `n = 1` it is
`sinh(x)/x`. -/
def positiveSeries (x2 : Nat) : Nat → Nat → Nat
  | 0, _ => fixOne
  | fuel + 1, n => fixOne + x2 * positiveSeries x2 fuel (n + 2) / ((n + 1) * (n + 2) * fixOne)

/-- The sine of `z` units of 2^-149 turn, for `z` from 0 to a quarter turn, in fixed point. -/
def quarterSine (z : Nat) : Nat :=
  let x := fixTwoPi * z / unitsPerOne
  Nat.min fixOne (x * alternatingSeries (x * x / fixOne) 40 1 / fixOne)

/-- A quarter turn, in units of 2^-149 turn. -/
def quarterTurn : Nat := 2 ^ 147

/-- The binary32 sine of the first quadrant at `z`, with a sign: exact at both ends (P1), the zero
being +0.0. -/
def quadrantSine (neg : Bool) (z : Nat) : Word :=
  if z = 0 then zero
  else if z = quarterTurn then roundSigned neg unitsPerOne 1
  else roundSigned neg (quarterSine z * unitsPerOne) fixOne

/-- The sine of `n` quarter turns and `z` units more. -/
def turnSine (n z : Nat) : Word :=
  match n % 4 with
  | 0 => quadrantSine false z
  | 1 => quadrantSine false (quarterTurn - z)
  | 2 => quadrantSine true z
  | _ => quadrantSine true (quarterTurn - z)

/-- The reference `SIN_T`: the sine of `p` turns. The sign of a zero operand is kept (P1). -/
def refSin (p : Word) : Word :=
  if !isFinite p then nan
  else if mag p = 0 then p
  else
    let z := (val p % (unitsPerOne : Int)).toNat
    turnSine (z / quarterTurn) (z % quarterTurn)

/-- The reference `COS_T`: the cosine of `p` turns, the sine a quarter turn further. -/
def refCos (p : Word) : Word :=
  if !isFinite p then nan
  else
    let z := (val p % (unitsPerOne : Int)).toNat
    turnSine (z / quarterTurn + 1) (z % quarterTurn)

/-- The magnitude from which `tanh` rounds to 1: 16.0 in units of 2^-149. -/
def tanhSaturates : Nat := 16 * unitsPerOne

/-- The reference `TANH`: `sinh/cosh` from their series, odd and at most 1 by construction. -/
def refTanh (x : Word) : Word :=
  if isNaN x then nan
  else if tanhSaturates ≤ mag x then roundSigned (sign x) unitsPerOne 1
  else
    let x2 := mag x * mag x * fixOne / (unitsPerOne * unitsPerOne)
    let cosh := positiveSeries x2 100 0
    roundSigned (sign x) (Nat.min (mag x * positiveSeries x2 100 1) (unitsPerOne * cosh)) cosh

end Sys2Proof.F32

namespace Sys2Proof

/-! ### The functions of a configuration -/

/-- A function given by a reference function and the words at which it differs from it. -/
def patched (patch : FunPatch) (reference : Word → Word) (w : Word) : Word :=
  match patch.lookup w with
  | some v => v
  | none => reference w

/-- `SIN_T` of a configuration (R16). -/
def Config.sinT (c : Config) (p : Word) : Word := patched c.sinPatch F32.refSin p

/-- `COS_T` of a configuration (R16). -/
def Config.cosT (c : Config) (p : Word) : Word := patched c.cosPatch F32.refCos p

/-- `TANH` of a configuration (R16). -/
def Config.tanh (c : Config) (x : Word) : Word := patched c.tanhPatch F32.refTanh x

/-! ### The named properties of R16

Equality between results is of binary32 VALUES (`F32.eq`), as R16 writes it: `SIN_T` of half a turn is
a zero of either sign. -/

/-- A finite word is within 2^-20 of a real number. -/
def F32.Near (w : Word) (r : ℝ) : Prop := |(F32.val w : ℝ) / 2 ^ 149 - r| ≤ 1 / 2 ^ 20

/-- P1, quarter points exact: `n` quarter turns, whenever that turn value is a binary32 value, and
`SIN_T(±0) = ±0`. -/
def Config.QuarterPointsExact (c : Config) : Prop :=
  (∀ p : Word, F32.isFinite p = true → ∀ n : Int, F32.val p * 4 = n * (F32.unitsPerOne : Int) →
    (n % 4 = 0 → F32.eq (c.sinT p) F32.zero = true ∧ F32.eq (c.cosT p) F32.one = true) ∧
    (n % 4 = 1 → F32.eq (c.sinT p) F32.one = true ∧ F32.eq (c.cosT p) F32.zero = true) ∧
    (n % 4 = 2 → F32.eq (c.sinT p) F32.zero = true ∧ F32.eq (c.cosT p) (F32.neg F32.one) = true) ∧
    (n % 4 = 3 → F32.eq (c.sinT p) (F32.neg F32.one) = true ∧ F32.eq (c.cosT p) F32.zero = true)) ∧
  c.sinT F32.zero = F32.zero ∧ c.sinT (F32.neg F32.zero) = F32.neg F32.zero

/-- P2, periodic: a turn more changes nothing, whenever `p + 1` is exact. -/
def Config.Periodic (c : Config) : Prop :=
  ∀ p q : Word, F32.isFinite p = true → F32.isFinite q = true →
    F32.val q = F32.val p + (F32.unitsPerOne : Int) →
    F32.eq (c.sinT q) (c.sinT p) = true ∧ F32.eq (c.cosT q) (c.cosT p) = true

/-- P3, bounded: no result is above 1 in magnitude (the results that P7 makes NaN are not numbers). -/
def Config.Bounded (c : Config) : Prop :=
  ∀ p : Word,
    (F32.isFinite p = true → F32.le (F32.abs (c.sinT p)) F32.one = true ∧
      F32.le (F32.abs (c.cosT p)) F32.one = true) ∧
    (F32.isNaN p = false → F32.le (F32.abs (c.tanh p)) F32.one = true)

/-- P4, odd. -/
def Config.Odd (c : Config) : Prop :=
  (∀ p : Word, F32.isFinite p = true →
    F32.eq (c.sinT (F32.neg p)) (F32.neg (c.sinT p)) = true) ∧
  (∀ x : Word, F32.isNaN x = false →
    F32.eq (c.tanh (F32.neg x)) (F32.neg (c.tanh x)) = true) ∧
  c.tanh F32.zero = F32.zero ∧ c.tanh (F32.neg F32.zero) = F32.neg F32.zero

/-- P5, monotone. -/
def Config.Monotone (c : Config) : Prop :=
  ∀ x y : Word, F32.le x y = true → F32.le (c.tanh x) (c.tanh y) = true

/-- P6, accuracy: within 2^-20 of the exact real function. -/
def Config.Accurate (c : Config) : Prop :=
  ∀ p : Word, F32.isFinite p = true →
    F32.Near (c.sinT p) (Real.sin (2 * Real.pi * ((F32.val p : ℝ) / 2 ^ 149))) ∧
    F32.Near (c.cosT p) (Real.cos (2 * Real.pi * ((F32.val p : ℝ) / 2 ^ 149))) ∧
    F32.Near (c.tanh p) (Real.tanh ((F32.val p : ℝ) / 2 ^ 149))

/-- P7, non-finite operands: the canonical NaN, but `TANH(±inf) = ±1`. -/
def Config.NonFiniteToNaN (c : Config) : Prop :=
  ∀ p : Word, F32.isFinite p = false →
    c.sinT p = F32.nan ∧ c.cosT p = F32.nan ∧
    (F32.isNaN p = true → c.tanh p = F32.nan) ∧
    (F32.isNaN p = false → c.tanh p = if F32.sign p then F32.neg F32.one else F32.one)

/-- The functions of a configuration have the properties P1 to P7 of R16. DEDUCED (log entry 25; safe):
these are all that is asked of an admitted function. R163 says that under every admitted `SIN_T` a negative
frequency above -FS/2 gives the coefficient 0, and R232 that pan 0 gives equal gains; P1 to P7 force neither
away from the quarter points (P6 allows 2^-20), and the model follows R16. -/
structure Config.FunctionsAdmitted (c : Config) : Prop where
  quarterPoints : c.QuarterPointsExact
  periodic      : c.Periodic
  bounded       : c.Bounded
  odd           : c.Odd
  monotone      : c.Monotone
  accurate      : c.Accurate
  nonFinite     : c.NonFiniteToNaN

end Sys2Proof
end

