-- ==== Sys2Proof/Machine/Params.lean ====
section
/-! DEFINITION. The parameters of a configuration (00_scope.md R6 to R12): the reference constant set
of R9, the operand ranges of R7, `SPMS`, the line lengths of R12, and which configurations a core can
be built for (R6, R10, R344). -/

namespace Sys2Proof

/-! ### Exact arithmetic on constants (R12: "exact rational arithmetic") -/

def Dec.add (a b : Dec) : Dec := ⟨a.num * b.den + b.num * a.den, a.den * b.den⟩

def Dec.mul (a b : Dec) : Dec := ⟨a.num * b.num, a.den * b.den⟩

def Dec.lt (a b : Dec) : Bool := decide (a.num * b.den < b.num * a.den)

def Dec.le (a b : Dec) : Bool := decide (a.num * b.den ≤ b.num * a.den)

def Dec.max (a b : Dec) : Dec := if a.lt b then b else a

/-- The smallest integer at or above the constant. -/
def Dec.ceil (a : Dec) : Int := -(-a.num / (a.den : Int))

/-- The exact value of a finite binary32 word. -/
def Dec.ofF32 (w : Word) : Dec := ⟨F32.val w, F32.unitsPerOne⟩

/-! ### Operand ranges (R7), the bounds converted as R303 says -/

def sizeMin : Word := F32.ofDec ⟨1, 1⟩
def sizeMax : Word := F32.ofDec ⟨500, 1⟩
def speedMin : Word := F32.ofDec ⟨2, 100⟩
def speedMax : Word := F32.ofDec ⟨150, 1⟩
def depthMin : Word := F32.ofDec ⟨-1, 1⟩
def depthMax : Word := F32.ofDec ⟨1, 1⟩
def decayMin : Word := F32.ofDec ⟨0, 1⟩
def decayMax : Word := F32.ofDec ⟨12, 10⟩
/-- The top of the derived range of `diffuse` (R7, R283). -/
def diffuseMax : Word := F32.ofDec ⟨8, 10⟩

/-! ### Derived values of a configuration -/

/-- `SPMS = rne32(FS32 / 1000)`: samples per millisecond (R6). -/
def Config.spms (c : Config) : Word := F32.div c.fs32 (F32.ofInt 1000)

/-- The largest reflection fraction of a tap: taps 2 and 3 have none (R12, R230). -/
def Config.maxReflection (c : Config) (t : Fin 4) : Dec :=
  if h : t.val < 2 then (c.reflections[t.val].map (·.frac)).foldl Dec.max ⟨0, 1⟩ else ⟨0, 1⟩

/-- `Tmax_tap(t)` in milliseconds (R12), with `SIZE_MAX = 500` and `DEPTH_MAX = 1`. -/
def Config.tapTimeMax (c : Config) (t : Fin 4) : Dec :=
  (((c.tapFraction[t]).max (c.maxReflection t)).mul ⟨500, 1⟩).add (c.modScaleMs.mul ⟨1, 1⟩)

/-- `ceil(T * FS32 / 1000) + 4` for a time in milliseconds (R12). -/
def Config.lengthFor (c : Config) (ms : Dec) : Nat :=
  (((ms.mul (Dec.ofF32 c.fs32)).mul ⟨1, 1000⟩).ceil + 4).toNat

/-- `L[u]`, the length of delay line `u`: tap lines 0..3, allpass lines 4..7 (R12, R44). -/
def Config.length (c : Config) (u : Fin 8) : Nat :=
  if h : u.val < 4 then c.lengthFor (c.tapTimeMax ⟨u.val, h⟩)
  else c.lengthFor (c.apTimeMs[u.val - 4])

/-! ### Which configurations a core can be built for -/

/-- `0 < FS <= 192000`, a finite binary32 value (R6). -/
def Config.rateLegal (c : Config) : Bool :=
  F32.isFinite c.fs32 && decide (0 < F32.val c.fs32) &&
    decide (F32.val c.fs32 ≤ 192000 * (F32.unitsPerOne : Int))

/-- The constant is in `(0, 1]`. -/
def Dec.isFraction (d : Dec) : Bool := decide (0 < d.den) && decide (0 < d.num) && d.le ⟨1, 1⟩

/-- Row `i` times row `j` of a matrix. -/
def rowProduct (a b : Vector Int 4) : Int := a[0] * b[0] + a[1] * b[1] + a[2] * b[2] + a[3] * b[3]

/-- `M` has entries in {+1, -1} and `M·Mᵗ = 4·I` (R10). -/
def matrixLegal (m : Vector (Vector Int 4) 4) : Bool :=
  m.all (fun row => row.all (fun e => e == 1 || e == -1)) &&
  (List.finRange 4).all (fun i => (List.finRange 4).all (fun j =>
    rowProduct m[i] m[j] == if i = j then 4 else 0))

/-- Every exact constant of a configuration (R9). -/
def Config.constants (c : Config) : List Dec :=
  c.tapFraction.toList ++ c.tapLfoOffset.toList ++ c.apTimeMs.toList ++
    c.reflections.toList.flatMap (fun rs => rs.flatMap fun r => [r.frac, r.gain, r.pan]) ++
    [c.erSizeScale, c.satThreshold, c.satCutoffHz, c.modScaleMs]

/-- Every constant is a number: a pair with denominator 0 stands for none, and no core is built for it
(R10; log entry 14). -/
def Config.constantsAreNumbers (c : Config) : Bool := c.constants.all fun d => decide (0 < d.den)

/-- The numeric conditions on a configuration: R6 and R10, `ER_SIZE_SCALE < 1/SIZE_MAX` (R236), a
generator seed that is not 0 (R48) and lines that hold a slot (R44); the last three are DEDUCED (log entry
14). DEDUCED (log entry 26; safe): the pan positions are free, because R10's list does not name `ER_PAN`,
although R230 and R232 give it in [-1, 1]. In the same way (DEDUCED, safe) `MOD_SCALE_MS` is any number,
a negative or huge one too, where R204's reads can leave the line (log entry 30); every interpolation is
free, where R235's and R166's reads can be inadmissible (log entry 31); and `ER_SIZE_SCALE` is compared as
the exact decimal, so that R236's `sc` can be 0 in binary32 (log entry 32). What R16 asks of the three
functions is `Config.FunctionsAdmitted`. -/
def Config.buildable (c : Config) : Bool :=
  c.constantsAreNumbers &&
  c.rateLegal &&
  c.tapFraction.all Dec.isFraction &&
  matrixLegal c.matrix &&
  ((Dec.mk 1 1).le c.satCutoffHz && c.satCutoffHz.le ⟨3, 1⟩) &&
  c.apTimeMs.all (fun d => decide (0 < d.den) && decide (0 < d.num)) &&
  c.reflections.all (fun rs => rs.all (fun r => r.frac.isFraction)) &&
  c.erSizeScale.lt ⟨1, 500⟩ &&
  c.rngSeed != 0 &&
  (List.finRange 8).all (fun u => decide (0 < c.length u))

/-- An admitted configuration (R10, R16). -/
def Config.Admitted (c : Config) : Prop := c.buildable = true ∧ c.FunctionsAdmitted

/-! ### The reference configuration -/

/-- The reference constant set of R9 at a sample rate, with the reference functions of R16. -/
def Config.referenceAt (fs32 : Word) : Config where
  fs32 := fs32
  tapFraction := #v[⟨1, 1⟩, ⟨83, 100⟩, ⟨67, 100⟩, ⟨51, 100⟩]
  tapLfoOffset := #v[⟨0, 1⟩, ⟨1, 4⟩, ⟨1, 2⟩, ⟨3, 4⟩]
  apTimeMs := #v[⟨46, 10⟩, ⟨37, 10⟩, ⟨29, 10⟩, ⟨23, 10⟩]
  reflections := #v[
    [⟨⟨13, 100⟩, ⟨5, 10⟩, ⟨-8, 10⟩⟩, ⟨⟨29, 100⟩, ⟨35, 100⟩, ⟨3, 10⟩⟩, ⟨⟨47, 100⟩, ⟨25, 100⟩, ⟨-2, 10⟩⟩],
    [⟨⟨17, 100⟩, ⟨5, 10⟩, ⟨8, 10⟩⟩, ⟨⟨33, 100⟩, ⟨35, 100⟩, ⟨-3, 10⟩⟩, ⟨⟨53, 100⟩, ⟨25, 100⟩, ⟨2, 10⟩⟩]]
  erSizeScale := ⟨1, 1000⟩
  satThreshold := ⟨75, 100⟩
  satCutoffHz := ⟨2, 1⟩
  modScaleMs := ⟨1, 1⟩
  matrix := #v[#v[1, 1, 1, 1], #v[1, -1, 1, -1], #v[1, 1, -1, -1], #v[1, -1, -1, 1]]
  tapInterp := .linear
  erInterp := .linear
  apInterp := .step
  rngSeed := 0x12345678#32
  sinPatch := []
  cosPatch := []
  tanhPatch := []

/-- The configuration of `State.reset`: the reference set at `FS = 1000`, the rate of
95_test_vectors.md (`FS` is an open parameter: log entry 2). -/
def Config.reference : Config := Config.referenceAt 0x447A0000#32

end Sys2Proof
end

