-- ==== Sys2Proof/Syntax.lean ====
section
/-! DEFINITION. The commands of the core: one constructor for each row of spec/opcode_table.json
(30_encoding.md R102, R103, R113). The argument of a constructor is the `UNIT` field of the command
word, three bits wide (R101); which values of it are legal is `Instr.wellFormed`. -/

namespace Sys2Proof

/-- A command of the core's command port. `u` is a delay line (DLW, DLR) or a one-pole unit (OPF);
`t` is a tap (APF, TAPR). -/
inductive Instr where
  /-- NOP, opcode 0x00 (R280). -/
  | nop
  /-- DLW, opcode 0x01: delay-line write (R140). -/
  | dlw (u : BitVec 3)
  /-- DLR.STEP, opcode 0x02 MODE 0: nearest-sample read (R141). -/
  | dlrStep (u : BitVec 3)
  /-- DLR.LINEAR, opcode 0x02 MODE 1 (R142). -/
  | dlrLinear (u : BitVec 3)
  /-- DLR.COSINE, opcode 0x02 MODE 2 (R143). -/
  | dlrCosine (u : BitVec 3)
  /-- DLR.CUBIC, opcode 0x02 MODE 3 (R144). -/
  | dlrCubic (u : BitVec 3)
  /-- DLR.SPLINE, opcode 0x02 MODE 4 (R145). -/
  | dlrSpline (u : BitVec 3)
  /-- OPF.HZ, opcode 0x03 MODE 0: one-pole filter, Hertz mode (R170). -/
  | opfHz (u : BitVec 3)
  /-- OPF.LIN, opcode 0x03 MODE 1: one-pole filter, Linear mode (R171). -/
  | opfLin (u : BitVec 3)
  /-- APF, opcode 0x04: allpass diffuser step (R172). -/
  | apf (t : BitVec 3)
  /-- PHS, opcode 0x05: advance the phasor (R207). -/
  | phs
  /-- TAPR, opcode 0x06: depth-dependent tap read (R208). -/
  | tapr (t : BitVec 3)
  /-- ERC, opcode 0x07: early-reflection combiner (R245). -/
  | erc
  /-- SATA, opcode 0x08: saturation activator step (R246). -/
  | sata
  /-- FDN, opcode 0x09: one network sample step (R247). -/
  | fdn
  /-- COND, opcode 0x0A: input conditioning (R284). -/
  | cond
  /-- SRST, opcode 0x0B: soft reset (R282). -/
  | srst
  deriving DecidableEq, Repr

end Sys2Proof
end

