-- ==== Sys2Proof/Machine/State.lean ====
section
/-! DEFINITION. The state of the core (10_state.md sections 3, 4 and 6), as plain data; what can stop
a step; and the state right after reset (70_reset_and_hazards.md R340). -/

namespace Sys2Proof.Machine

/-! ### Delay-line memories -/

/-- The slots of one delay line as bytes: slot `j` is the four bytes at `4·j .. 4·j + 3`, bits
`8·b+7 .. 8·b` at `4·j + b` (R62, R63). Only bytes that are not 0, the reset contents (R340), are
listed, at strictly rising addresses. -/
abbrev Memory := List Host.Cell

/-- One delay line: `MEM_u` and its write cursor (R44). -/
structure Line where
  mem    : Memory
  cursor : Nat
  deriving DecidableEq, Repr

/-! ### The command sequencer and the port -/

/-- What the core is doing (R30, R341, R350). `BUSY` is 0 exactly when it is idle. -/
inductive Sequencer where
  /-- Between commands. -/
  | idle
  /-- A `CMD` write was accepted and has not completed: the command it decodes to, or `none` for an
  illegal word (R110, R350). -/
  | running (command : Option Instr)
  /-- Reset is asserted and has not completed (R341). -/
  | resetting
  deriving DecidableEq, Repr

/-- What happens next on the outside of the core (R65, R341, R350, R357): the host's transactions in
arrival order, and where the completion of what is in flight falls among them. -/
inductive PortEvent where
  /-- `HostRead(a)`; the port carries the word index `a[11:2]` (R65). -/
  | read (a : BitVec 10)
  /-- `HostWrite(a, v)`. -/
  | write (a : BitVec 10) (v : Word)
  /-- The core completes what is in flight, if anything: the host's `wait` line (R112, R358). -/
  | wait
  /-- The reset input is asserted (R340, R343). -/
  | reset
  deriving DecidableEq, Repr

/-! ### State -/

structure State where
  /-- The configuration, fixed at elaboration; no step writes it (R30, R344). -/
  cfg    : Config
  /-- `MEM_0..7` and `cursor[0..7]` (R44). -/
  lines  : Vector Line 8
  /-- `y[0..4]`, the one-pole states (R45, R49). -/
  y      : Vector Word 5
  /-- `phase`, the shared phasor, in turns (R46). -/
  phase  : Word
  /-- `gprev[t][k]` at index `2·t + k` (R47, R32). -/
  gprev  : Vector Word 8
  /-- `goff[t][k]` at index `2·t + k` (R47, R32). -/
  goff   : Vector Word 8
  /-- `rng`, the generator state (R39, R48). -/
  rng    : Word
  /-- `OPR0..7` (R40). -/
  opr    : Vector Word 8
  /-- `RES0` (R41). -/
  res0   : Word
  /-- `RES1` (R41). -/
  res1   : Word
  /-- `STATUS[4:0]`, the sticky flags (R36). -/
  status : Causes
  /-- `IRQEN[4:0]` (R37). -/
  irqen  : Causes
  /-- The sequencer; `STATUS.BUSY` is its not being idle (R36, R350). -/
  seq    : Sequencer
  /-- MODEL'S OWN: the port events still to come, the next one first (log entry 6). -/
  events : List PortEvent
  /-- MODEL'S OWN: the word the port answered the last host read with (log entry 7). -/
  rdata  : Word
  /-- MODEL'S OWN: how many free values reads have taken so far (log entry 5). -/
  draws  : Nat
  deriving DecidableEq, Repr

/-! ### What can stop a step -/

/-- The core has no traps and no faults: "No exceptions or error returns in the real-time path"
(60_exceptions.md R312). A contract breach sets a flag and the machine goes on (R300), so nothing
raises a fault and the type has no value. -/
inductive Fault where
  deriving DecidableEq, Repr

/-- Why a step is refused. -/
inductive Refusal where
  /-- Raised by `exec` for an instruction that has no meaning yet; safe. No arm of `exec` raises it:
  every row of the opcode table has its meaning. -/
  | notModelled (mnemonic : String)
  deriving DecidableEq, Repr

/-! ### Reset -/

/-- A delay line after reset: every slot +0.0, cursor 0 (R44, R340). -/
def Line.empty : Line := ⟨[], 0⟩

/-- The state right after the reset of a core built with a configuration (R340): every value is the
one that rule gives. The last three fields are the model's own: no event, no read answered, no free
value taken (log entries 5 to 7). -/
def State.resetWith (c : Config) : State where
  cfg := c
  lines := Vector.replicate 8 Line.empty
  y := Vector.replicate 5 F32.zero
  phase := F32.zero
  gprev := Vector.replicate 8 F32.zero
  goff := Vector.replicate 8 F32.zero
  rng := c.rngSeed
  opr := Vector.replicate 8 0
  res0 := 0
  res1 := 0
  status := 0
  irqen := 0
  seq := .idle
  events := []
  rdata := 0
  draws := 0

/-- The core with the configuration, if it can be built: "such a build is refused, and there is no
core to reset" otherwise (R6, R344). -/
def State.construct (c : Config) : Option State :=
  if c.buildable then some (State.resetWith c) else none

/-- The machine right after reset, with the reference configuration at `FS = 1000` (R9, R340; log
entry 2). -/
def State.reset : State := State.resetWith Config.reference

end Sys2Proof.Machine
end

