-- ==== Sys2Proof/Machine/Ops.lean ====
section
/-! DEFINITION. The named operations over memory and the units: the delay-line memories (20_memory.md
R62, R63), the internal delay-line operations `dl_write` and `dl_read` (40_delay_line.md R130 to R139),
and the updates of the one-pole states, the phasor, the grain trackers and the generator.

The core has no exception to take and none to return from (R312, R313); what stands in that place,
the merge of a command's causes at its completion, is `State.complete` in Machine/Flags.lean. -/

namespace Sys2Proof.Machine

/-! ### Bytes and words of a delay-line memory -/

/-- What an unlisted byte reads as: the slots are +0.0 after reset (R340). -/
def blankByte : Byte := 0

/-- The byte at an address. -/
def Memory.readByte : Memory → Nat → Byte
  | [], _ => blankByte
  | (k, b) :: rest, a =>
    if a < k then blankByte else if k = a then b else Memory.readByte rest a

/-- Store a byte, keeping the addresses rising and no blank byte listed. -/
def Memory.writeByte : Memory → Nat → Byte → Memory
  | [], a, v => if v = blankByte then [] else [(a, v)]
  | (k, b) :: rest, a, v =>
    if k < a then (k, b) :: Memory.writeByte rest a v
    else if k = a then (if v = blankByte then rest else (a, v) :: rest)
    else (if v = blankByte then (k, b) :: rest else (a, v) :: (k, b) :: rest)

/-- Every listed address is above `a`, the addresses rise strictly, and no listed byte is blank. -/
def Memory.wfAbove : Memory → Option Nat → Bool
  | [], _ => true
  | (k, b) :: rest, lo =>
    (match lo with | none => true | some a => decide (a < k)) && b != blankByte &&
      Memory.wfAbove rest (some k)

/-- The canonical form: equal memories are equal lists. -/
def Memory.wf (m : Memory) : Bool := m.wfAbove none

/-- `MemRead(u, j)`: the word in slot `j`, unchanged (R62, R63). -/
def Memory.readSlot (m : Memory) (j : Nat) : Word :=
  m.readByte (4 * j + 3) ++ m.readByte (4 * j + 2) ++ m.readByte (4 * j + 1) ++ m.readByte (4 * j)

/-- `MemWrite(u, j, v)`: slot `j` becomes `v`, bit for bit (R62, R63). -/
def Memory.writeSlot (m : Memory) (j : Nat) (v : Word) : Memory :=
  (((m.writeByte (4 * j) (v.extractLsb' 0 8)).writeByte (4 * j + 1) (v.extractLsb' 8 8)).writeByte
    (4 * j + 2) (v.extractLsb' 16 8)).writeByte (4 * j + 3) (v.extractLsb' 24 8)

/-! ### Delay lines -/

/-- The slot of the sample written `n + 1` writes ago: `(cursor - 1 - n) mod L` (R133). -/
def Line.slot (l : Line) (len : Nat) (n : Int) : Nat :=
  (((l.cursor : Int) - 1 - n) % (len : Int)).toNat

/-- `sample(u, n)` (R133). -/
def Line.sample (l : Line) (len : Nat) (n : Int) : Word := l.mem.readSlot (l.slot len n)

/-- Store at the cursor and advance it, wrapping (R130). -/
def Line.push (l : Line) (len : Nat) (v : Word) : Line :=
  ⟨l.mem.writeSlot l.cursor v, (l.cursor + 1) % len⟩

/-- `MemRead(u, j)` of the core. -/
def State.memRead (s : State) (u : Fin 8) (j : Nat) : Word := s.lines[u].mem.readSlot j

/-- The byte of line `u` at an address: slot `j` is the bytes `4·j .. 4·j + 3`. -/
def State.memByte (s : State) (u : Fin 8) (a : Nat) : Byte := s.lines[u].mem.readByte a

/-- `sample(u, n)` of the core: the sample written `n + 1` writes ago (R133). -/
def State.sample (s : State) (u : Fin 8) (n : Int) : Word := s.lines[u].sample (s.cfg.length u) n

/-- `dl_write(u, v)` (R130): no rounding, no flushing, no flag. -/
def State.dlWrite (s : State) (u : Fin 8) (v : Word) : State :=
  { s with lines := s.lines.set u.val (s.lines[u].push (s.cfg.length u) v) }

/-- The tap line of tap `t` (R44). -/
def tapLine (t : Fin 4) : Fin 8 := ⟨t.val, by omega⟩

/-- The allpass line of tap `t` (R44). -/
def allpassLine (t : Fin 4) : Fin 8 := ⟨4 + t.val, by omega⟩

/-! ### Interpolation of a delay-line read -/

/-- The 2-point form with weight `w`: `y1 * (1 - w) + y2 * w` (R136). -/
def mix2 (y1 y2 w : Word) : Word :=
  F32.add (F32.mul y1 (F32.sub F32.one w)) (F32.mul y2 w)

/-- The raised-cosine weight `(1 - COS_T(f * 0.5)) * 0.5` (R137). -/
def cosineWeight (c : Config) (f : Word) : Word :=
  F32.mul (F32.sub F32.one (c.cosT (F32.mul f F32.half))) F32.half

/-- The 4-point cubic polynomial (R138). -/
def cubic4 (y0 y1 y2 y3 f : Word) : Word :=
  let a0 := F32.add (F32.sub (F32.sub y3 y2) y0) y1
  let a1 := F32.sub (F32.sub y0 y1) a0
  let a2 := F32.sub y2 y0
  let f2 := F32.mul f f
  let f3 := F32.mul f2 f
  F32.add (F32.add (F32.add (F32.mul a0 f3) (F32.mul a1 f2)) (F32.mul a2 f)) y1

/-- The Catmull-Rom cubic in Horner form (R139). -/
def spline4 (y0 y1 y2 y3 f : Word) : Word :=
  let c3 := F32.add (F32.mul (F32.ofInt 3) (F32.sub y1 y2)) (F32.sub y3 y0)
  let c2 := F32.sub (F32.add (F32.sub (F32.mul (F32.ofInt 2) y0) (F32.mul (F32.ofInt 5) y1))
    (F32.mul (F32.ofInt 4) y2)) y3
  let c1 := F32.sub y2 y0
  let h := F32.add c2 (F32.mul f c3)
  let h := F32.add c1 (F32.mul f h)
  F32.add y1 (F32.mul (F32.mul F32.half f) h)

/-- The value of a read at the finite delay `d` with integer part `k` and fraction `f`, from the
samples of a line (R134, R136 to R139). -/
def interpolate (c : Config) (sample : Int → Word) (mode : Interp) (d : Word) (k : Int) (f : Word) :
    Word :=
  match mode with
  | .step => sample (F32.round d)
  | .linear => mix2 (sample k) (sample (k + 1)) f
  | .cosine => mix2 (sample k) (sample (k + 1)) (cosineWeight c f)
  | .cubic => cubic4 (sample (k - 1)) (sample k) (sample (k + 1)) (sample (k + 2)) f
  | .spline => spline4 (sample (k - 1)) (sample k) (sample (k + 1)) (sample (k + 2)) f

/-- `admissible(mode, d, k, L)`: every sample the mode reads is one of the `L` most recent ones at its
own age (R135). -/
def admissible (mode : Interp) (d : Word) (k : Int) (len : Nat) : Bool :=
  match mode with
  | .step => F32.le F32.zero d && decide (F32.round d ≤ (len : Int) - 1)
  | .linear => F32.le F32.zero d && decide (k + 1 ≤ (len : Int) - 1)
  | .cosine => F32.le F32.zero d && decide (k + 1 ≤ (len : Int) - 1)
  | .cubic => F32.le F32.one d && decide (k + 2 ≤ (len : Int) - 1)
  | .spline => F32.le F32.one d && decide (k + 2 ≤ (len : Int) - 1)

/-- The cause RANGE, bit 0 (R301). -/
def causeRange : Causes := 0b00001#5

/-- The delay in samples of a read time: one multiply by `SPMS` (R131). -/
def State.delayOf (s : State) (timeMs : Word) : Word := F32.mul timeMs s.cfg.spms

/-- The value of `dl_read(u, time_ms, mode)` (R132). -/
def State.dlValue (s : State) (u : Fin 8) (timeMs : Word) (mode : Interp) : Word :=
  let d := s.delayOf timeMs
  if F32.isFinite d then interpolate s.cfg (s.sample u) mode d (F32.floor d) (F32.subFloor d)
  else F32.nan

/-- What `dl_read(u, time_ms, mode)` raises: RANGE for a delay that is not finite or not admissible
(R132, R305). -/
def State.dlCauses (s : State) (u : Fin 8) (timeMs : Word) (mode : Interp) : Causes :=
  let d := s.delayOf timeMs
  if F32.isFinite d && admissible mode d (F32.floor d) (s.cfg.length u) then 0 else causeRange

/-! ### Updates of the other unit state -/

/-- `y[u] <- v` (R160). -/
def State.setY (s : State) (u : Fin 5) (v : Word) : State := { s with y := s.y.set u.val v }

/-- `phase <- v` (R190). -/
def State.setPhase (s : State) (v : Word) : State := { s with phase := v }

/-- The index of grain `k` of tap `t` in the tracker arrays: `2·t + k` (R32). -/
def grainIndex (t : Fin 4) (k : Fin 2) : Fin 8 := ⟨2 * t.val + k.val, by omega⟩

/-- `gprev[t][k] <- v` (R197). -/
def State.setGprev (s : State) (t : Fin 4) (k : Fin 2) (v : Word) : State :=
  { s with gprev := s.gprev.set (grainIndex t k).val v }

/-- `goff[t][k] <- v` (R197). -/
def State.setGoff (s : State) (t : Fin 4) (k : Fin 2) (v : Word) : State :=
  { s with goff := s.goff.set (grainIndex t k).val v }

/-- `rng <- v` (R200). -/
def State.setRng (s : State) (v : Word) : State := { s with rng := v }

/-- What an internal operation leaves: the state, the value it returns and the causes it raised. -/
structure Ran where
  state  : State
  value  : Word
  causes : Causes
  deriving DecidableEq, Repr

end Sys2Proof.Machine
end

