-- ==== Sys2Proof/Machine/Operands.lean ====
section
/-! DEFINITION. Operands and results of commands (30_encoding.md R104, R105; 10_state.md R40, R41):
the operand registers, the result registers, and the `UNIT` field as a delay line, a one-pole unit or
a tap. The command word carries no immediate. -/

namespace Sys2Proof.Machine

/-- `REG[OPRi]`, the 32-bit pattern used as a binary32 value without conversion (R104). -/
def State.operand (s : State) (i : Fin 8) : Word := s.opr[i]

/-- `REG[RES0] <- v`; `RES1` is unchanged (R41). -/
def State.setRes0 (s : State) (v : Word) : State := { s with res0 := v }

/-- `(REG[RES0], REG[RES1]) <- (v, w)` (R104). -/
def State.setRes (s : State) (v w : Word) : State := { s with res0 := v, res1 := w }

/-- `UNIT` as a delay line: all eight values are legal (R103). -/
def unitLine (u : BitVec 3) : Fin 8 := ⟨u.toNat, u.isLt⟩

/-- `UNIT` as a one-pole unit, 0..4 (R103). -/
def unitOnePole (u : BitVec 3) : Option (Fin 5) :=
  if h : u.toNat < 5 then some ⟨u.toNat, h⟩ else none

/-- `UNIT` as a tap, 0..3 (R103). -/
def unitTap (t : BitVec 3) : Option (Fin 4) :=
  if h : t.toNat < 4 then some ⟨t.toNat, h⟩ else none

end Sys2Proof.Machine
end

