-- ==== Sys2Proof/Machine/Flags.lean ====
section
/-! DEFINITION. The five causes, the checks that raise them (60_exceptions.md R300 to R309), the
completion of a command, which merges its causes into `STATUS`, and the interrupt output (R310). -/

namespace Sys2Proof.Machine

/-! ### Causes (R301); RANGE is `causeRange` of Machine/Ops.lean -/

/-- PARAM, bit 1. -/
def causeParam : Causes := 0b00010#5

/-- NONFINITE, bit 2. -/
def causeNonfinite : Causes := 0b00100#5

/-- BADCMD, bit 3. -/
def causeBadcmd : Causes := 0b01000#5

/-- OVERRUN, bit 4. -/
def causeOverrun : Causes := 0b10000#5

/-! ### The checks of the command rules: they only observe -/

/-- `check_finite` of one value (R304). -/
def checkFinite (v : Word) : Causes := if F32.isFinite v then 0 else causeNonfinite

/-- `check_range(v, lo, hi)` (R303). -/
def checkRange (v lo hi : Word) : Causes :=
  if F32.isFinite v && !(F32.le lo v && F32.le v hi) then causeParam else 0

/-- `check_range_open(v, lo, hi)` (R303). -/
def checkRangeOpen (v lo hi : Word) : Causes :=
  if F32.isFinite v && !(F32.lt lo v && F32.lt v hi) then causeParam else 0

/-! ### Completion -/

/-- The completion of a command, one indivisible step: the causes it raised are OR-ed into
`STATUS[4:0]` and `BUSY` becomes 0 (R300, R350). -/
def State.complete (s : State) (causes : Causes) : State :=
  { s with status := s.status ||| causes, seq := .idle }

/-- The completion of an illegal command word: BADCMD, and nothing else (R110, R306). -/
def State.refuseCommand (s : State) : State := s.complete causeBadcmd

/-! ### The interrupt output -/

/-- `irq`: an enabled cause is pending; low during reset (R310, R341). -/
def State.irq (s : State) : Bool :=
  match s.seq with
  | .resetting => false
  | .idle => (s.status &&& s.irqen) != 0
  | .running _ => (s.status &&& s.irqen) != 0

end Sys2Proof.Machine
end

