-- ==== Sys2Proof/Machine/Control.lean ====
section
/-! DEFINITION. The Control family: NOP, COND and SRST (44_control.md). -/

namespace Sys2Proof.Machine

/-- NOP: completes without reading or writing any register, flag or unit state (R280). -/
def execNop (s : State) : Host.Outcome State Fault Refusal := .next (s.complete 0)

/-- `diffuse = min(absorb * 3, 1) * 0.8` (R281). -/
def condDiffuse (absorb : Word) : Word :=
  F32.mul (F32.min (F32.mul absorb (F32.ofInt 3)) F32.one) (F32.ofDec ⟨8, 10⟩)

/-- `absorb' = max(absorb - 1/3, 0) * 1.5`, the third being the binary32 word 0x3EAAAAAB (R281). -/
def condAbsorb (absorb : Word) : Word :=
  F32.mul (F32.max (F32.sub absorb 0x3EAAAAAB#32) F32.zero) (F32.ofDec ⟨15, 10⟩)

/-- COND (R284). -/
def execCond (s : State) : Host.Outcome State Fault Refusal :=
  .next ((s.setRes (condDiffuse (s.operand 0)) (condAbsorb (s.operand 0))).complete
    (checkFinite (s.operand 0) ||| checkRange (s.operand 0) F32.zero F32.one))

/-- The signal state at its construction values: lines, cursors, one-pole states, phasor, grain
trackers, generator and both results (R282). -/
def State.clearSignal (s : State) : State :=
  { s with
    lines := Vector.replicate 8 Line.empty
    y := Vector.replicate 5 F32.zero
    phase := F32.zero
    gprev := Vector.replicate 8 F32.zero
    goff := Vector.replicate 8 F32.zero
    rng := s.cfg.rngSeed
    res0 := F32.zero
    res1 := F32.zero }

/-- SRST (R282): `STATUS`, `IRQEN` and the operand registers stay. -/
def execSrst (s : State) : Host.Outcome State Fault Refusal := .next (s.clearSignal.complete 0)

end Sys2Proof.Machine
end

