-- ==== Sys2Proof/Machine/DelayLine.lean ====
section
/-! DEFINITION. The DelayLine family: DLW and the five modes of DLR (40_delay_line.md R140 to R145). -/

namespace Sys2Proof.Machine

/-- DLW: store the operand in line `u`, bit for bit; NONFINITE is the only flag (R140). -/
def execDlw (u : BitVec 3) (s : State) : Host.Outcome State Fault Refusal :=
  .next ((s.dlWrite (unitLine u) (s.operand 0)).complete (checkFinite (s.operand 0)))

/-- The shared form of the five reads: `REG[RES0] <- dl_read(u, OPR0, mode)` (R132, R141). -/
def State.lineRead (s : State) (u : Fin 8) (mode : Interp) : State :=
  (s.setRes0 (s.dlValue u (s.operand 0) mode)).complete
    (checkFinite (s.operand 0) ||| s.dlCauses u (s.operand 0) mode)

/-- DLR.STEP (R141). -/
def execDlrStep (u : BitVec 3) (s : State) : Host.Outcome State Fault Refusal :=
  .next (s.lineRead (unitLine u) .step)

/-- DLR.LINEAR (R142). -/
def execDlrLinear (u : BitVec 3) (s : State) : Host.Outcome State Fault Refusal :=
  .next (s.lineRead (unitLine u) .linear)

/-- DLR.COSINE (R143). -/
def execDlrCosine (u : BitVec 3) (s : State) : Host.Outcome State Fault Refusal :=
  .next (s.lineRead (unitLine u) .cosine)

/-- DLR.CUBIC (R144). -/
def execDlrCubic (u : BitVec 3) (s : State) : Host.Outcome State Fault Refusal :=
  .next (s.lineRead (unitLine u) .cubic)

/-- DLR.SPLINE (R145). -/
def execDlrSpline (u : BitVec 3) (s : State) : Host.Outcome State Fault Refusal :=
  .next (s.lineRead (unitLine u) .spline)

end Sys2Proof.Machine
end

