-- ==== Sys2Proof/Machine/Filters.lean ====
section
/-! DEFINITION. The Filter family: the one-pole filter and the Schroeder allpass, and their commands
OPF.HZ, OPF.LIN and APF (41_filters.md). -/

namespace Sys2Proof.Machine

/-! ### One-pole filter -/

/-- The output law `y·(1 - c) + x·c` (R160). -/
def onePole (y x c : Word) : Word := F32.add (F32.mul y (F32.sub F32.one c)) (F32.mul x c)

/-- The coefficient of Hertz mode, `clamp01(SIN_T(freq_hz / FS32))` (R161). -/
def hertzCoefficient (c : Config) (freq : Word) : Word :=
  F32.clamp01 (c.sinT (F32.div freq c.fs32))

/-- The coefficient of Linear mode, `1 - value` (R162). -/
def linearCoefficient (value : Word) : Word := F32.sub F32.one value

/-- `op_step(u, x, c)`: the new state of unit `u`, which is also the value returned (R160). -/
def State.opStep (s : State) (u : Fin 5) (x c : Word) : State := s.setY u (onePole s.y[u] x c)

/-- `op_hz(u, x, freq_hz)` (R161); the value returned is the new `y[u]`. -/
def State.opHz (s : State) (u : Fin 5) (x freq : Word) : State :=
  s.opStep u x (hertzCoefficient s.cfg freq)

/-- `op_lin(u, x, value)` (R162); the value returned is the new `y[u]`. -/
def State.opLin (s : State) (u : Fin 5) (x value : Word) : State :=
  s.opStep u x (linearCoefficient value)

/-- `REG[RES0] <- y[u]`: the result of both one-pole commands. -/
def State.resultY (s : State) (u : Fin 5) : State := s.setRes0 s.y[u]

/-- OPF.HZ (R170). A `UNIT` that is no one-pole unit is an illegal word (R110). -/
def execOpfHz (u : BitVec 3) (s : State) : Host.Outcome State Fault Refusal :=
  .next (match unitOnePole u with
    | none => s.refuseCommand
    | some k => ((s.opHz k (s.operand 0) (s.operand 1)).resultY k).complete
        (checkFinite (s.operand 0) ||| checkFinite (s.operand 1)))

/-- OPF.LIN (R171). -/
def execOpfLin (u : BitVec 3) (s : State) : Host.Outcome State Fault Refusal :=
  .next (match unitOnePole u with
    | none => s.refuseCommand
    | some k => ((s.opLin k (s.operand 0) (s.operand 1)).resultY k).complete
        (checkFinite (s.operand 0) ||| checkFinite (s.operand 1) |||
          checkRange (s.operand 1) F32.zero F32.one))

/-! ### Allpass filter -/

/-- The feedback term of an allpass with gain `g` at the delayed read `dr` (R165). -/
def allpassFeedback (dr g : Word) : Word := F32.mul (F32.mul dr g) F32.half

/-- The feedforward term, from the line's new input `ip` (R165). -/
def allpassFeedforward (ip g : Word) : Word := F32.mul (F32.mul ip g) (F32.neg F32.half)

/-- The binary32 read time of the allpass of tap `t` (R9, R166). -/
def State.allpassTime (s : State) (t : Fin 4) : Word := F32.ofDec s.cfg.apTimeMs[t]

/-- The delayed read of the allpass of tap `t` (R165). -/
def State.allpassRead (s : State) (t : Fin 4) : Word :=
  s.dlValue (allpassLine t) (s.allpassTime t) s.cfg.apInterp

/-- `inputPrime` (R165). -/
def State.allpassInput (s : State) (t : Fin 4) (x g : Word) : Word :=
  F32.add x (allpassFeedback (s.allpassRead t) g)

/-- The output of the allpass step (R165). -/
def State.allpassOutput (s : State) (t : Fin 4) (x g : Word) : Word :=
  F32.add (s.allpassRead t) (allpassFeedforward (s.allpassInput t x g) g)

/-- `ap_process(t, x, gain)`: the read precedes the write (R165). -/
def State.apProcess (s : State) (t : Fin 4) (x g : Word) : Ran where
  state := s.dlWrite (allpassLine t) (s.allpassInput t x g)
  value := s.allpassOutput t x g
  causes := s.dlCauses (allpassLine t) (s.allpassTime t) s.cfg.apInterp

/-- APF (R172): the gain is checked against the open interval (-1, 1) (R168, 90_conflicts.md C1). -/
def execApf (t : BitVec 3) (s : State) : Host.Outcome State Fault Refusal :=
  .next (match unitTap t with
    | none => s.refuseCommand
    | some k =>
      let r := s.apProcess k (s.operand 0) (s.operand 1)
      (r.state.setRes0 r.value).complete
        (checkFinite (s.operand 0) ||| checkFinite (s.operand 1) |||
          checkRangeOpen (s.operand 1) (F32.neg F32.one) F32.one ||| r.causes))

end Sys2Proof.Machine
end

