-- ==== Sys2Proof/Machine/Modulation.lean ====
section
/-! DEFINITION. The Modulation family: the shared phasor, the random generator, the static, vibrato
and granular tap reads, and the commands PHS and TAPR (42_modulation.md). -/

namespace Sys2Proof.Machine

/-! ### Phasor -/

/-- `ph_step(freq_hz)`: the phasor after one step, `frac1(phase + freq_hz / FS32)`; the value returned
is the new `phase` (R190). DEDUCED (log entry 27; unsafe): where the quotient of a finite frequency by a
sample rate below 1 overflows, the phase becomes NaN, although R46 keeps it in [0, 1) for finite
frequencies; the model follows R190's division. -/
def State.phStep (s : State) (freq : Word) : State :=
  s.setPhase (F32.frac1 (F32.add s.phase (F32.div freq s.cfg.fs32)))

/-- PHS (R207): no PARAM check. -/
def execPhs (s : State) : Host.Outcome State Fault Refusal :=
  let s' := s.phStep (s.operand 0)
  .next ((s'.setRes0 s'.phase).complete (checkFinite (s.operand 0)))

/-! ### Random source -/

/-- One xorshift32 step (R200). -/
def xorshift (x : Word) : Word :=
  let x := x ^^^ (x <<< 13)
  let x := x ^^^ (x >>> 17)
  x ^^^ (x <<< 5)

/-- `zext(x[31:8]) * 2^-24`, exact (R200). -/
def unitInterval (x : Word) : Word :=
  F32.roundSigned false ((x >>> 8).toNat * 2 ^ 125) 1

/-! ### Tap reads -/

/-- `base = TAP_FRACTION[t] * size`, in milliseconds (R193). -/
def tapBase (c : Config) (t : Fin 4) (size : Word) : Word :=
  F32.mul (F32.ofDec c.tapFraction[t]) size

/-- A read of tap line `t` at a time, with `TAP_INTERP` (R194). -/
def State.tapAt (s : State) (t : Fin 4) (timeMs : Word) : Ran where
  state := s
  value := s.dlValue (tapLine t) timeMs s.cfg.tapInterp
  causes := s.dlCauses (tapLine t) timeMs s.cfg.tapInterp

/-- `lfo_phase + TAP_LFO_OFFSET[t]` (R195, R196). -/
def tapPhase (c : Config) (t : Fin 4) (lfo : Word) : Word :=
  F32.add lfo (F32.ofDec c.tapLfoOffset[t])

/-- The vibrato excursion, `(abs(depth) * MOD_SCALE_MS) * SIN_T(ph)` (R195). -/
def vibratoExcursion (c : Config) (t : Fin 4) (lfo depth : Word) : Word :=
  F32.mul (F32.mul (F32.abs depth) (F32.ofDec c.modScaleMs)) (c.sinT (tapPhase c t lfo))

/-- The phases of grains 0 and 1 (R196). -/
def grainPhase (c : Config) (t : Fin 4) (lfo : Word) (k : Fin 2) : Word :=
  let g0 := F32.frac1 (tapPhase c t lfo)
  if k = 0 then g0 else F32.frac1 (F32.add g0 F32.half)

/-- A grain retriggers when its phase derivative goes negative (R197). -/
def State.retriggers (s : State) (t : Fin 4) (k : Fin 2) (g : Word) : Bool :=
  F32.lt (F32.sub g s.gprev[grainIndex t k]) F32.zero

/-- The tracker of one grain at phase `g`: a retrigger takes one draw of the generator (R197, R201).
DEDUCED (log entry 28; unsafe): the offset is R197's rounded product, which can equal a `depth` of at most
2^-126 and is no value below an infinite one, although R47 has it in [0, depth). -/
def State.retrigger (s : State) (t : Fin 4) (k : Fin 2) (g depth : Word) : State :=
  let s' := if s.retriggers t k g then
      (s.setRng (xorshift s.rng)).setGoff t k (F32.mul (unitInterval (xorshift s.rng)) depth)
    else s
  s'.setGprev t k g

/-- The constant read time of a grain between retriggers (R198). -/
def State.grainTime (s : State) (t : Fin 4) (k : Fin 2) (base : Word) : Word :=
  F32.add base (F32.mul s.goff[grainIndex t k] (F32.ofDec s.cfg.modScaleMs))

/-- The window `SIN_T(g * 0.5)²` (R199). -/
def grainWindow (c : Config) (g : Word) : Word :=
  F32.mul (c.sinT (F32.mul g F32.half)) (c.sinT (F32.mul g F32.half))

/-- One grain: retrigger, read, window (R199). -/
def State.grain (s : State) (t : Fin 4) (k : Fin 2) (base g depth : Word) : Ran :=
  let s' := s.retrigger t k g depth
  let r := s'.tapAt t (s'.grainTime t k base)
  ⟨s', F32.mul r.value (grainWindow s.cfg g), r.causes⟩

/-- The granular read: grain 0 completely before grain 1 (R199). -/
def State.grainRead (s : State) (t : Fin 4) (base lfo depth : Word) : Ran :=
  let r0 := s.grain t 0 base (grainPhase s.cfg t lfo 0) depth
  let r1 := r0.state.grain t 1 base (grainPhase s.cfg t lfo 1) depth
  ⟨r1.state, F32.add r0.value r1.value, r0.causes ||| r1.causes⟩

/-- `tap_read(t, size, lfo_phase, depth)`: static, vibrato or granular by the sign of `depth`; a NaN
`depth` reads nothing and changes nothing (R193). -/
def State.tapRead (s : State) (t : Fin 4) (size lfo depth : Word) : Ran :=
  let base := tapBase s.cfg t size
  if F32.eq depth F32.zero then s.tapAt t base
  else if F32.lt depth F32.zero then
    s.tapAt t (F32.add base (vibratoExcursion s.cfg t lfo depth))
  else if F32.lt F32.zero depth then s.grainRead t base lfo depth
  else ⟨s, F32.nan, 0⟩

/-- TAPR (R208): `lfo_phase` is OPR1 as given; the phasor does not advance. -/
def execTapr (t : BitVec 3) (s : State) : Host.Outcome State Fault Refusal :=
  .next (match unitTap t with
    | none => s.refuseCommand
    | some k =>
      let r := s.tapRead k (s.operand 0) (s.operand 1) (s.operand 2)
      (r.state.setRes0 r.value).complete
        (checkFinite (s.operand 0) ||| checkFinite (s.operand 1) ||| checkFinite (s.operand 2) |||
          checkRange (s.operand 0) sizeMin sizeMax ||| checkRange (s.operand 2) depthMin depthMax |||
          r.causes))

end Sys2Proof.Machine
end

