-- ==== Sys2Proof/Machine/Network.lean ====
section
/-! DEFINITION. The Network family: the early-reflection combiner, the feedback matrix, the saturation
activator, the FDN sample step, and the commands ERC, SATA and FDN (43_network.md). -/

namespace Sys2Proof.Machine

/-! ### Early reflections -/

/-- A stereo pair with the causes raised on the way. -/
structure Stereo where
  left   : Word
  right  : Word
  causes : Causes
  deriving DecidableEq, Repr

/-- `theta = (pan + 1) * 0.125` turns (R232). -/
def panAngle (r : Reflection) : Word :=
  F32.mul (F32.add (F32.ofDec r.pan) F32.one) (F32.ofDec ⟨125, 1000⟩)

/-- `sc = 1 - size * ER_SIZE_SCALE` (R236). -/
def sizeScale (c : Config) (size : Word) : Word :=
  F32.sub F32.one (F32.mul size (F32.ofDec c.erSizeScale))

/-- The read time of a reflection: `ER_FRAC[t][j] * size` milliseconds (R231). -/
def reflectionTime (r : Reflection) (size : Word) : Word := F32.mul (F32.ofDec r.frac) size

/-- The scaled reflection `a` before panning (R233). -/
def State.reflectionValue (s : State) (u : Fin 8) (size : Word) (r : Reflection) : Word :=
  F32.mul (F32.mul (s.dlValue u (reflectionTime r size) s.cfg.erInterp) (F32.ofDec r.gain))
    (sizeScale s.cfg size)

/-- One reflection of a line added to the running sums (R232, R233). -/
def State.addReflection (s : State) (u : Fin 8) (size : Word) (acc : Stereo) (r : Reflection) :
    Stereo :=
  let a := s.reflectionValue u size r
  ⟨F32.add acc.left (F32.mul a (s.cfg.cosT (panAngle r))),
    F32.add acc.right (F32.mul a (s.cfg.sinT (panAngle r))),
    acc.causes ||| s.dlCauses u (reflectionTime r size) s.cfg.erInterp⟩

/-- `er_process(size)`: tap 0 then tap 1, reflections in index order, from +0.0; no unit state changes
(R233). -/
def State.erProcess (s : State) (size : Word) : Stereo :=
  let tap0 := s.cfg.reflections[0].foldl (s.addReflection 0 size) ⟨F32.zero, F32.zero, 0⟩
  s.cfg.reflections[1].foldl (s.addReflection 1 size) tap0

/-- ERC (R245). -/
def execErc (s : State) : Host.Outcome State Fault Refusal :=
  let r := s.erProcess (s.operand 0)
  .next ((s.setRes r.left r.right).complete
    (checkFinite (s.operand 0) ||| checkRange (s.operand 0) sizeMin sizeMax ||| r.causes))

/-! ### Feedback matrix -/

/-- One row of the matrix multiply: signed adds, left to right (R237). -/
def matrixRow (row : Vector Int 4) (r : Vector Word 4) : Word :=
  let acc := if row[0] > 0 then r[0] else F32.neg r[0]
  let acc := if row[1] > 0 then F32.add acc r[1] else F32.sub acc r[1]
  let acc := if row[2] > 0 then F32.add acc r[2] else F32.sub acc r[2]
  if row[3] > 0 then F32.add acc r[3] else F32.sub acc r[3]

/-- The four mixed values (R237). -/
def matrixMul (c : Config) (r : Vector Word 4) : Vector Word 4 :=
  c.matrix.map (fun row => matrixRow row r)

/-! ### Saturation -/

/-- `amp = max_i abs(m[i])`, NaN-propagating, from +0.0 (R239). -/
def amplitude (m : Vector Word 4) : Word :=
  F32.max (F32.max (F32.max (F32.max F32.zero (F32.abs m[0])) (F32.abs m[1])) (F32.abs m[2]))
    (F32.abs m[3])

/-- The gate's target: 1.0 strictly above the threshold, else 0.0 (R238). -/
def gateTarget (c : Config) (amp : Word) : Word :=
  if F32.lt (F32.ofDec c.satThreshold) amp then F32.one else F32.zero

/-- `sat_process(amplitude)`: unit 4 steps towards the target; the value returned is `y[4]` (R238). For a
sample rate so low that the cutoff divided by it overflows, the gate becomes NaN (log entry 34). -/
def State.satProcess (s : State) (amp : Word) : State :=
  s.opHz 4 (gateTarget s.cfg amp) (F32.ofDec s.cfg.satCutoffHz)

/-- SATA (R246): no PARAM check. -/
def execSata (s : State) : Host.Outcome State Fault Refusal :=
  .next (((s.satProcess (s.operand 0)).resultY 4).complete (checkFinite (s.operand 0)))

/-- The blend of a mixed value with its soft-clipped value by the gate, scaled by `hd` (R241). -/
def softClip (c : Config) (g hd m : Word) : Word :=
  F32.mul (F32.add (F32.mul (F32.sub F32.one g) m) (F32.mul g (c.tanh m))) hd

/-! ### The FDN step -/

/-- The operands of one sample step, in the order of R104. -/
structure FdnOperands where
  x       : Word
  size    : Word
  speed   : Word
  depth   : Word
  diffuse : Word
  absorb  : Word
  decay   : Word
  deriving DecidableEq, Repr

/-- What the four tap reads leave (step 2 of R240). -/
structure TapReads where
  state  : State
  r      : Vector Word 4
  causes : Causes
  deriving DecidableEq, Repr

/-- Step 2: the taps in the order 0, 1, 2, 3 (R201, R240). -/
def State.readTaps (s : State) (size lfo depth : Word) : TapReads :=
  let r0 := s.tapRead 0 size lfo depth
  let r1 := r0.state.tapRead 1 size lfo depth
  let r2 := r1.state.tapRead 2 size lfo depth
  let r3 := r2.state.tapRead 3 size lfo depth
  ⟨r3.state, #v[r0.value, r1.value, r2.value, r3.value],
    r0.causes ||| r1.causes ||| r2.causes ||| r3.causes⟩

/-- Steps 7 and 8: the scaled blend, with the input added to taps 0 and 1 only (R241, R242). -/
def lineInputs (c : Config) (g : Word) (m : Vector Word 4) (o : FdnOperands) : Vector Word 4 :=
  let hd := F32.mul o.decay F32.half
  #v[F32.add (softClip c g hd m[0]) o.x, F32.add (softClip c g hd m[1]) o.x,
    softClip c g hd m[2], softClip c g hd m[3]]

/-- The absorption filter of a tap (R45). -/
def absorptionUnit (t : Fin 4) : Fin 5 := ⟨t.val, by omega⟩

/-- Step 9 for one tap: absorption, diffusion, denormal flush, write-back (R240, R243). The value is
what is written into the tap line. DEDUCED (log entry 33; unsafe): with `diffuse = 0` it is the flushed
read of the allpass line, as R165, R240 and example 1 of R247 give it, although a corner case of R247 says
`z = a`. -/
def State.writeTap (s : State) (t : Fin 4) (v absorb diffuse : Word) : Ran :=
  let s1 := s.opLin (absorptionUnit t) v absorb
  let ap := s1.apProcess t s1.y[absorptionUnit t] diffuse
  let z := F32.ftz ap.value
  ⟨ap.state.dlWrite (tapLine t) z, z, ap.causes⟩

/-- Step 9: tap 0 first (R240). -/
def State.writeTaps (s : State) (v : Vector Word 4) (absorb diffuse : Word) : State × Causes :=
  let w0 := s.writeTap 0 v[0] absorb diffuse
  let w1 := w0.state.writeTap 1 v[1] absorb diffuse
  let w2 := w1.state.writeTap 2 v[2] absorb diffuse
  let w3 := w2.state.writeTap 3 v[3] absorb diffuse
  (w3.state, w0.causes ||| w1.causes ||| w2.causes ||| w3.causes)

/-- `left = ((r[0] + r[2]) + erL) * 0.5`, and `right` with taps 1 and 3 (R244). -/
def outputOf (a b er : Word) : Word := F32.mul (F32.add (F32.add a b) er) F32.half

/-- Steps 1 and 2: the phasor advances, then the taps are read at the new phase (R192, R240). -/
def State.fdnTaps (s : State) (o : FdnOperands) : TapReads :=
  (s.phStep o.speed).readTaps o.size (s.phStep o.speed).phase o.depth

/-- Step 4: the mixed values (R237). -/
def State.fdnMixed (s : State) (o : FdnOperands) : Vector Word 4 := matrixMul s.cfg (s.fdnTaps o).r

/-- Steps 5 and 6: the gate follows this step's amplitude (R238, R239). -/
def State.fdnGated (s : State) (o : FdnOperands) : State :=
  (s.fdnTaps o).state.satProcess (amplitude (s.fdnMixed o))

/-- Steps 7 to 9: what goes into the lines, and its writing (R240 to R243). -/
def State.fdnWritten (s : State) (o : FdnOperands) : State × Causes :=
  (s.fdnGated o).writeTaps (lineInputs s.cfg (s.fdnGated o).y[4] (s.fdnMixed o) o) o.absorb
    o.diffuse

/-- `fdn_step`: one sample of the network, in the normative order of R240; the early reflections (step
3) are read before any line is written. -/
def State.fdnStep (s : State) (o : FdnOperands) : State × Stereo :=
  let taps := s.fdnTaps o
  let er := taps.state.erProcess o.size
  let w := s.fdnWritten o
  (w.1, ⟨outputOf taps.r[0] taps.r[2] er.left, outputOf taps.r[1] taps.r[3] er.right,
    taps.causes ||| er.causes ||| w.2⟩)

/-- The operand registers of FDN (R104). -/
def State.fdnOperands (s : State) : FdnOperands :=
  ⟨s.operand 0, s.operand 1, s.operand 2, s.operand 3, s.operand 4, s.operand 5, s.operand 6⟩

/-- The operand checks of FDN (R247). -/
def fdnChecks (o : FdnOperands) : Causes :=
  checkFinite o.x ||| checkFinite o.size ||| checkFinite o.speed ||| checkFinite o.depth |||
  checkFinite o.diffuse ||| checkFinite o.absorb ||| checkFinite o.decay |||
  checkRange o.size sizeMin sizeMax ||| checkRange o.speed speedMin speedMax |||
  checkRange o.depth depthMin depthMax ||| checkRange o.diffuse F32.zero diffuseMax |||
  checkRange o.absorb F32.zero F32.one ||| checkRange o.decay decayMin decayMax

/-- FDN (R247). -/
def execFdn (s : State) : Host.Outcome State Fault Refusal :=
  let r := s.fdnStep s.fdnOperands
  .next ((r.1.setRes r.2.left r.2.right).complete (fdnChecks s.fdnOperands ||| r.2.causes))

end Sys2Proof.Machine
end

