-- ==== Sys2Proof/Machine/Dispatch.lean ====
section
/-! DEFINITION. The meaning of every command: one arm for each constructor of `Instr`. -/

namespace Sys2Proof.Machine

/-- The completion step of a command (70_reset_and_hazards.md R350): it reads the operand registers,
performs the command's rule, merges its causes into `STATUS` and leaves `BUSY = 0`. -/
def exec (i : Instr) (s : State) : Host.Outcome State Fault Refusal :=
  match i with
  | .nop => Sys2Proof.Machine.execNop s
  | .dlw u => Sys2Proof.Machine.execDlw u s
  | .dlrStep u => Sys2Proof.Machine.execDlrStep u s
  | .dlrLinear u => Sys2Proof.Machine.execDlrLinear u s
  | .dlrCosine u => Sys2Proof.Machine.execDlrCosine u s
  | .dlrCubic u => Sys2Proof.Machine.execDlrCubic u s
  | .dlrSpline u => Sys2Proof.Machine.execDlrSpline u s
  | .opfHz u => Sys2Proof.Machine.execOpfHz u s
  | .opfLin u => Sys2Proof.Machine.execOpfLin u s
  | .apf t => Sys2Proof.Machine.execApf t s
  | .phs => Sys2Proof.Machine.execPhs s
  | .tapr t => Sys2Proof.Machine.execTapr t s
  | .erc => Sys2Proof.Machine.execErc s
  | .sata => Sys2Proof.Machine.execSata s
  | .fdn => Sys2Proof.Machine.execFdn s
  | .cond => Sys2Proof.Machine.execCond s
  | .srst => Sys2Proof.Machine.execSrst s

end Sys2Proof.Machine
end

