-- ==== Sys2Proof/WellFormed.lean ====
section
/-! DEFINITION. Which commands are legal (30_encoding.md R103): the range of `UNIT` for each opcode.
The three bits of the field allow 0..7; the delay-line commands take all of them, the one-pole
commands 0..4 and the tap commands 0..3. -/

namespace Sys2Proof

/-- `UNIT` names a one-pole unit: 0..4 (R103, R8). -/
def isOnePole (u : BitVec 3) : Bool := decide (u.toNat < 5)

/-- `UNIT` names a tap: 0..3 (R103, R8). -/
def isTap (t : BitVec 3) : Bool := decide (t.toNat < 4)

/-- The legal commands of R103: a command is well formed exactly when its `UNIT` is in its opcode's
range (`MODE` and the reserved bits are fixed by the constructor). -/
def Instr.wellFormed : Instr → Bool
  | .nop => true
  | .dlw _ => true
  | .dlrStep _ => true
  | .dlrLinear _ => true
  | .dlrCosine _ => true
  | .dlrCubic _ => true
  | .dlrSpline _ => true
  | .opfHz u => isOnePole u
  | .opfLin u => isOnePole u
  | .apf t => isTap t
  | .phs => true
  | .tapr t => isTap t
  | .erc => true
  | .sata => true
  | .fdn => true
  | .cond => true
  | .srst => true

end Sys2Proof
end

