-- ==== Sys2Proof/Decode.lean ====
section
/-! DEFINITION. The command word (30_encoding.md R100, R101, R113), its decoder (R108, R109), which is
total on all 2^32 words and rejects by name, and after it the encoder. -/

namespace Sys2Proof

/-! ### Fields of `CMD32` (R101) -/

/-- `OPC`, bits 7:0. -/
def fieldOpc (w : Word) : BitVec 8 := w.extractLsb' 0 8

/-- `UNIT`, bits 10:8. -/
def fieldUnit (w : Word) : BitVec 3 := w.extractLsb' 8 3

/-- Reserved bit 11. -/
def fieldBit11 (w : Word) : BitVec 1 := w.extractLsb' 11 1

/-- `MODE`, bits 14:12. -/
def fieldMode (w : Word) : BitVec 3 := w.extractLsb' 12 3

/-- Reserved bits 31:15. -/
def fieldHigh (w : Word) : BitVec 17 := w.extractLsb' 15 17

/-- Why a command word is illegal (R108, R110). Every one of these sets `STATUS.BADCMD`. -/
inductive DecodeError where
  /-- `CMD[31:15]` or `CMD[11]` is not 0. -/
  | reservedBits
  /-- `OPC` is 0x0C..0xFF. -/
  | reservedOpcode
  /-- `MODE` is outside the opcode's range. -/
  | illegalMode
  /-- `UNIT` is outside the opcode's range. -/
  | illegalUnit
  deriving DecidableEq, Repr

/-! ### Decoding -/

/-- The command that an opcode and a mode select, before the check of `UNIT` (R102, R106, R107). -/
def selectCommand (opc : BitVec 8) (unit mode : BitVec 3) : Except DecodeError Instr :=
  match opc.toNat, mode.toNat with
  | 0x00, 0 => .ok .nop
  | 0x01, 0 => .ok (.dlw unit)
  | 0x02, 0 => .ok (.dlrStep unit)
  | 0x02, 1 => .ok (.dlrLinear unit)
  | 0x02, 2 => .ok (.dlrCosine unit)
  | 0x02, 3 => .ok (.dlrCubic unit)
  | 0x02, 4 => .ok (.dlrSpline unit)
  | 0x03, 0 => .ok (.opfHz unit)
  | 0x03, 1 => .ok (.opfLin unit)
  | 0x04, 0 => .ok (.apf unit)
  | 0x05, 0 => .ok .phs
  | 0x06, 0 => .ok (.tapr unit)
  | 0x07, 0 => .ok .erc
  | 0x08, 0 => .ok .sata
  | 0x09, 0 => .ok .fdn
  | 0x0A, 0 => .ok .cond
  | 0x0B, 0 => .ok .srst
  | n, _ => if n < 0x0C then .error .illegalMode else .error .reservedOpcode

/-- The legal `UNIT` values of an opcode (R103): the commands without a unit take 0 only. -/
def unitLegal (opc : BitVec 8) (unit : BitVec 3) : Bool :=
  match opc.toNat with
  | 0x01 => true
  | 0x02 => true
  | 0x03 => isOnePole unit
  | 0x04 => isTap unit
  | 0x06 => isTap unit
  | _ => unit == 0

/-- The decoder of R108: every word either names one command with one `UNIT` and one `MODE`, or is
illegal for the first reason found, in R108's order (`UNIT` and `MODE` being one condition there). -/
def decode (w : Word) : Except DecodeError Instr :=
  if fieldHigh w ≠ 0 ∨ fieldBit11 w ≠ 0 then .error .reservedBits
  else match selectCommand (fieldOpc w) (fieldUnit w) (fieldMode w) with
    | .error e => .error e
    | .ok i => if unitLegal (fieldOpc w) (fieldUnit w) then .ok i else .error .illegalUnit

/-- The instruction of a row of spec/opcode_table.json whose bits are `w`, of which the table gives
`nbits`; every bit above `nbits` is 0. A command is exactly one 32-bit word (R100). -/
def decodeTableWord (nbits w : Nat) : Option Instr :=
  (decode (BitVec.ofNat 32 (w % 2 ^ nbits))).toOption

/-! ### Encoding -/

/-- The command word with these fields and its reserved bits 0 (R101, R113). -/
def commandWord (opc : BitVec 8) (unit mode : BitVec 3) : Word :=
  (0 : BitVec 17) ++ mode ++ (0 : BitVec 1) ++ unit ++ opc

/-- The word of a command (R102, R106, R107, R113). -/
def encode : Instr → Word
  | .nop => commandWord 0x00 0 0
  | .dlw u => commandWord 0x01 u 0
  | .dlrStep u => commandWord 0x02 u 0
  | .dlrLinear u => commandWord 0x02 u 1
  | .dlrCosine u => commandWord 0x02 u 2
  | .dlrCubic u => commandWord 0x02 u 3
  | .dlrSpline u => commandWord 0x02 u 4
  | .opfHz u => commandWord 0x03 u 0
  | .opfLin u => commandWord 0x03 u 1
  | .apf t => commandWord 0x04 t 0
  | .phs => commandWord 0x05 0 0
  | .tapr t => commandWord 0x06 t 0
  | .erc => commandWord 0x07 0 0
  | .sata => commandWord 0x08 0 0
  | .fdn => commandWord 0x09 0 0
  | .cond => commandWord 0x0A 0 0
  | .srst => commandWord 0x0B 0 0

end Sys2Proof
end

