-- ==== Sys2Proof/Machine/Port.lean ====
section
/-! DEFINITION. The register port: the register map (10_state.md R32 to R43), host reads and writes
(20_memory.md R65, R68) in each of the core's three conditions (70_reset_and_hazards.md R341, R352,
R353), the acceptance of a command (R350) and the hardware reset (R340 to R343). -/

namespace Sys2Proof.Machine

/-! ### The register map -/

/-- The registers of R32. -/
inductive Reg where
  | id
  | version
  | cmd
  | status
  | irqen
  | cfgFs
  | cfgSpms
  | rng
  | opr (i : Fin 8)
  | res0
  | res1
  | dbgPhase
  | dbgY (u : Fin 5)
  | dbgCursor (u : Fin 8)
  | dbgLength (u : Fin 8)
  /-- `DBG_GPREV_t_k` at index `2·t + k`. -/
  | dbgGprev (i : Fin 8)
  /-- `DBG_GOFF_t_k` at index `2·t + k`. -/
  | dbgGoff (i : Fin 8)
  /-- Every other offset (R43). -/
  | reserved
  deriving DecidableEq, Repr

/-- The register at the word index `a[11:2]` of an access: byte offset `4·a` in the table of R32. -/
def regAt (a : BitVec 10) : Reg :=
  let n := a.toNat
  if n = 0x000 / 4 then .id
  else if n = 0x004 / 4 then .version
  else if n = 0x008 / 4 then .cmd
  else if n = 0x00C / 4 then .status
  else if n = 0x010 / 4 then .irqen
  else if n = 0x014 / 4 then .cfgFs
  else if n = 0x018 / 4 then .cfgSpms
  else if n = 0x01C / 4 then .rng
  else if h : 0x020 / 4 ≤ n ∧ n < 0x040 / 4 then .opr ⟨n - 0x020 / 4, by omega⟩
  else if n = 0x040 / 4 then .res0
  else if n = 0x044 / 4 then .res1
  else if n = 0x080 / 4 then .dbgPhase
  else if h : 0x084 / 4 ≤ n ∧ n < 0x098 / 4 then .dbgY ⟨n - 0x084 / 4, by omega⟩
  else if h : 0x0A0 / 4 ≤ n ∧ n < 0x0C0 / 4 then .dbgCursor ⟨n - 0x0A0 / 4, by omega⟩
  else if h : 0x0C0 / 4 ≤ n ∧ n < 0x0E0 / 4 then .dbgLength ⟨n - 0x0C0 / 4, by omega⟩
  else if h : 0x0E0 / 4 ≤ n ∧ n < 0x100 / 4 then .dbgGprev ⟨n - 0x0E0 / 4, by omega⟩
  else if h : 0x100 / 4 ≤ n ∧ n < 0x120 / 4 then .dbgGoff ⟨n - 0x100 / 4, by omega⟩
  else .reserved

/-- The word index of the register at a byte offset of R32's table. -/
def regOffset (byteOffset : Nat) : BitVec 10 := BitVec.ofNat 10 (byteOffset / 4)

/-- `STATUS`: `BUSY` in bit 31, the sticky flags in bits 4..0, the rest 0 (R36). While reset is in
progress it reads `0x80000000` (R341). -/
def State.statusWord (s : State) : Word :=
  match s.seq with
  | .idle => s.status.setWidth 32
  | .running _ => 0x80000000#32 ||| s.status.setWidth 32
  | .resetting => 0x80000000#32

/-- The value of a register as the state stands (R33 to R43). DESIGN CHOICE (log entry 29; unsafe): a
length or cursor of 2^32 or more, which `zext_32` of R42 does not cover, reads as its low 32 bits. -/
def State.regValue (s : State) : Reg → Word
  | .id => 0x444D5346#32
  | .version => 0x00000001#32
  | .cmd => 0
  | .status => s.statusWord
  | .irqen => s.irqen.setWidth 32
  | .cfgFs => s.cfg.fs32
  | .cfgSpms => s.cfg.spms
  | .rng => s.rng
  | .opr i => s.opr[i]
  | .res0 => s.res0
  | .res1 => s.res1
  | .dbgPhase => s.phase
  | .dbgY u => s.y[u]
  | .dbgCursor u => BitVec.ofNat 32 s.lines[u].cursor
  | .dbgLength u => BitVec.ofNat 32 (s.cfg.length u)
  | .dbgGprev i => s.gprev[i]
  | .dbgGoff i => s.goff[i]
  | .reserved => 0

/-- The registers that a running command leaves readable (R353). -/
def Reg.readableWhileBusy : Reg → Bool
  | .id | .version | .cmd | .status | .irqen | .cfgFs | .cfgSpms | .opr _ | .dbgLength _
  | .reserved => true
  | .rng | .res0 | .res1 | .dbgPhase | .dbgY _ | .dbgCursor _ | .dbgGprev _ | .dbgGoff _ => false

/-- The registers that read their value during reset (R341): the constants and `STATUS`. -/
def Reg.readableInReset : Reg → Bool
  | .id | .version | .cfgFs | .cfgSpms | .dbgLength _ | .status => true
  | .cmd | .irqen | .rng | .opr _ | .res0 | .res1 | .dbgPhase | .dbgY _ | .dbgCursor _
  | .dbgGprev _ | .dbgGoff _ | .reserved => false

/-- Whether a read returns the register's value, or any value (R341, R353). -/
def State.readDefined (s : State) (r : Reg) : Bool :=
  match s.seq with
  | .idle => true
  | .running _ => r.readableWhileBusy
  | .resetting => r.readableInReset

/-- `HostRead(a)`: no side effect on any register (R68). A read that returns "any value" takes the
next free value. -/
def State.hostRead (s : State) (a : BitVec 10) : State :=
  if s.readDefined (regAt a) then { s with rdata := s.regValue (regAt a) }
  else { s with rdata := Config.portDraw s.draws, draws := s.draws + 1 }

/-! ### Host writes -/

/-- The acceptance of a command word: `BUSY` becomes 1 (R350). The operand registers are not copied:
no write reaches them while `BUSY = 1` (R352), so they stand at completion as they stand now. -/
def State.accept (s : State) (w : Word) : State := { s with seq := .running (decode w).toOption }

/-- A 1 written to `STATUS[4:0]` clears the bit (R36). -/
def State.clearFlags (s : State) (v : Word) : State :=
  { s with status := s.status &&& ~~~(v.setWidth 5) }

/-- A write to `IRQEN` (R37). -/
def State.writeIrqen (s : State) (v : Word) : State := { s with irqen := v.setWidth 5 }

/-- A write to `RNG`: zero loads the seed (R39). -/
def State.writeRng (s : State) (v : Word) : State :=
  { s with rng := if v = 0 then s.cfg.rngSeed else v }

/-- A write to `OPRi` (R40). -/
def State.writeOpr (s : State) (i : Fin 8) (v : Word) : State := { s with opr := s.opr.set i.val v }

/-- A write that is dropped because a command is running: OVERRUN, at once (R307, R352). -/
def State.overrun (s : State) : State := { s with status := s.status ||| causeOverrun }

/-- A host write while the core is idle (R32 to R43). -/
def State.writeIdle (s : State) (r : Reg) (v : Word) : State :=
  match r with
  | .cmd => s.accept v
  | .status => s.clearFlags v
  | .irqen => s.writeIrqen v
  | .rng => s.writeRng v
  | .opr i => s.writeOpr i v
  | .id | .version | .cfgFs | .cfgSpms | .res0 | .res1 | .dbgPhase | .dbgY _ | .dbgCursor _
  | .dbgLength _ | .dbgGprev _ | .dbgGoff _ | .reserved => s

/-- A host write while a command is running (R352). -/
def State.writeBusy (s : State) (r : Reg) (v : Word) : State :=
  match r with
  | .cmd | .rng | .opr _ => s.overrun
  | .status => s.clearFlags v
  | .irqen => s.writeIrqen v
  | .id | .version | .cfgFs | .cfgSpms | .res0 | .res1 | .dbgPhase | .dbgY _ | .dbgCursor _
  | .dbgLength _ | .dbgGprev _ | .dbgGoff _ | .reserved => s

/-- `HostWrite(a, v)`; during reset every write is ignored and sets no flag (R341). -/
def State.hostWrite (s : State) (a : BitVec 10) (v : Word) : State :=
  match s.seq with
  | .idle => s.writeIdle (regAt a) v
  | .running _ => s.writeBusy (regAt a) v
  | .resetting => s

/-! ### Hardware reset -/

/-- The reset input is asserted: a command in flight is abandoned (R341, R343). -/
def State.assertReset (s : State) : State := { s with seq := .resetting }

/-- Reset completes: every value of R340 in place and `BUSY = 0`, in one step. The configuration is
the core's own (R344); the model's own fields are not the core's to reset. -/
def State.finishReset (s : State) : State :=
  { State.resetWith s.cfg with events := s.events, rdata := s.rdata, draws := s.draws }

end Sys2Proof.Machine
end

