-- ==== Sys2Proof/Machine/Sequencer.lean ====
section
/-! DEFINITION. The command sequencer (10_state.md R30): the completion of what is in flight, and one
port event (20_memory.md R65, R71; 70_reset_and_hazards.md R341, R350). -/

namespace Sys2Proof.Machine

/-- The core completes what is in flight: a command's second indivisible step (R350), an illegal
word's BADCMD (R110), or the end of a reset (R341). An idle core holds all state (R321). -/
def State.settle (s : State) : Host.Outcome State Fault Refusal :=
  match s.seq with
  | .idle => .next s
  | .running none => .next s.refuseCommand
  | .running (some i) => exec i s
  | .resetting => .next s.finishReset

/-- One port event. A `wait` is the host polling `STATUS` until `BUSY = 0`: its reads have no side
effect (R68), and what is in flight completes (R112, R358). -/
def State.portEvent (s : State) (e : PortEvent) : Host.Outcome State Fault Refusal :=
  match e with
  | .read a => .next (s.hostRead a)
  | .write a v => .next (s.hostWrite a v)
  | .wait => s.settle
  | .reset => .next s.assertReset

/-- The state with the next port event taken. -/
def State.takeEvent (s : State) (rest : List PortEvent) : State := { s with events := rest }

/-- A command word accepted (R350), with its completion as the next event. -/
def State.acceptNow (s : State) (w : Word) : State :=
  { s.accept w with events := .wait :: s.events }

end Sys2Proof.Machine
end

