-- ==== Sys2Proof/Machine/Step.lean ====
section
/-! DEFINITION. One step of the machine: the next port event, or, when none is left, the completion of
what is in flight (20_memory.md R71; 70_reset_and_hazards.md R350, R358). -/

namespace Sys2Proof.Machine

/-- One step: the port events are taken in order, one at a time; with none left, what is in flight
completes (weak fairness, R358). -/
def step (s : State) : Host.Outcome State Fault Refusal :=
  match s.events with
  | [] => s.settle
  | e :: rest => (s.takeEvent rest).portEvent e

/-- The word as an accepted command whose completion is the next event: the state after the host's
`wr CMD, w` to an idle core, as R350 accepts it (log entry 8). The core fetches nothing (R31). -/
def State.withFetchWord (s : State) (nbits w : Nat) : State :=
  s.acceptNow (BitVec.ofNat 32 (w % 2 ^ nbits))

end Sys2Proof.Machine
end

