-- ==== Sys2Proof/Safety.lean ====
section
/-! DEFINITION. What counts as a safe state and a safe run, in the terms the claims use: the invariant
of the machine, the state of a run in which no contract was breached, the correctly rounded value of
R14, and the legal values of the phasor and the gate. -/

namespace Sys2Proof.Machine

/-- A delay line as R44 gives it: its memory in canonical form, nothing listed outside its slots, and
its cursor inside the line. -/
def Line.wf (l : Line) (len : Nat) : Bool :=
  l.mem.wf && l.mem.all (fun cell => decide (cell.1 < 4 * len)) && decide (l.cursor < len)

/-- The command in flight, if any, is a legal one (R108). -/
def Sequencer.legal : Sequencer → Bool
  | .idle => true
  | .running none => true
  | .running (some i) => i.wellFormed
  | .resetting => true

/-- The invariant of the machine: the configuration is one a core is built for (R344), every line is
well formed (R44), the generator state is not 0 (R48), and a command in flight is legal (R108). -/
structure State.Inv (s : State) : Prop where
  buildable : s.cfg.buildable = true
  lines     : ∀ u : Fin 8, s.lines[u].wf (s.cfg.length u) = true
  rng       : s.rng ≠ 0
  inFlight  : s.seq.legal = true

/-- No contract was breached so far: no sticky flag stands (R309; 93_implementation_defined.md's
`fault` record). -/
def State.unflagged (s : State) : Bool := s.status == 0

/-- A run of `k` steps from `s` that no flag mars: it ends in a state without a flag. Flags are
sticky, so none was raised on the way unless the host cleared it. -/
def safeRun (k : Nat) (s : State) : Prop := ∃ t, core.run k s = .next t ∧ t.unflagged = true

/-- The unit state of R44 to R48: everything that SRST and a hardware reset bring back to its
construction value, apart from the results. -/
def State.sameUnits (s t : State) : Prop :=
  s.lines = t.lines ∧ s.y = t.y ∧ s.phase = t.phase ∧ s.gprev = t.gprev ∧ s.goff = t.goff ∧
    s.rng = t.rng

/-- The registers and fields that no command writes: the configuration, the operand registers, the
interrupt enables, and the model's own fields (R40, R37). -/
def State.sameHostSide (s t : State) : Prop :=
  s.cfg = t.cfg ∧ s.opr = t.opr ∧ s.irqen = t.irqen ∧ s.events = t.events ∧ s.rdata = t.rdata ∧
    s.draws = t.draws

/-- A phase the taps may meet: a NaN, or a value in `[0, 1)` (R46, R191). -/
def phaseLegal (w : Word) : Bool := F32.isNaN w || (F32.le F32.zero w && F32.lt w F32.one)

/-- A value in `[0, 1]` (R238). -/
def inUnit (w : Word) : Bool := F32.le F32.zero w && F32.le w F32.one

end Sys2Proof.Machine

namespace Sys2Proof.F32

/-- The least magnitude that rounds to an infinity: the largest finite value and half its spacing, in
units of 2^-149. -/
def overflowBound : Nat := (2 ^ 25 - 1) * 2 ^ 252

/-- `w` is the binary32 value nearest to `num / den` units of 2^-149, ties to even (R14): no finite
value is nearer, of two equally near ones `w` is the one with an even fraction, and `w` is an infinity
exactly when the magnitude reaches the overflow bound. -/
def Nearest (w : Word) (num : Int) (den : Nat) : Prop :=
  isNaN w = false ∧
  (isFinite w = true ↔ num.natAbs < overflowBound * den) ∧
  (isFinite w = false → sign w = decide (num < 0)) ∧
  (isFinite w = true → ∀ v : Word, isFinite v = true →
    (val w * den - num).natAbs ≤ (val v * den - num).natAbs ∧
    ((val w * den - num).natAbs = (val v * den - num).natAbs → val v ≠ val w →
      fracField w % 2 = 0))

end Sys2Proof.F32
end

