-- ==== Sys2Proof/Certificates/Slice0/Obligations.lean ====
section
/-! DEFINITION. What is claimed of the model, one `Obligations.<Name>` each, listed in OBLIGATIONS.json.
Before them stand the words the claims are written in: the five causes, the completion of a command
and the checks of 60_exceptions.md, spelled with literals so that a claim can be held beside the rule
it formalises. -/

namespace Sys2Proof.Claims

open Sys2Proof.Machine

/-! ### Words of the claims -/

/-- The causes of R301 at their `STATUS` bits. -/
def range : Causes := 1
def param : Causes := 2
def nonfinite : Causes := 4
def badcmd : Causes := 8
def overrun : Causes := 16

/-- A cause raised under a condition. -/
def raise (p : Bool) (c : Causes) : Causes := if p then c else 0

/-- A state at the completion of a command that raised `c`: the causes merged into `STATUS[4:0]`, `BUSY`
down, everything else as it is (R300, R350). -/
def done (s : State) (c : Causes) : State := { s with status := s.status ||| c, seq := .idle }

/-- `check_finite` (R304). -/
def finiteCheck (v : Word) : Causes := raise (!F32.isFinite v) nonfinite

/-- `check_range` (R303). -/
def rangeCheck (v lo hi : Word) : Causes :=
  raise (F32.isFinite v && !(F32.le lo v && F32.le v hi)) param

/-- Operand `i` of a state. -/
def opr (s : State) (i : Fin 8) : Word := s.opr[i]

/-- 0.5, 1.0, -0.5, -1.0, 0.8, 500.0: literals of the rules as binary32 words. -/
def half : Word := 0x3F000000
def one : Word := 0x3F800000
def minusHalf : Word := 0xBF000000
def minusOne : Word := 0xBF800000
def fourFifths : Word := 0x3F4CCCCD
def fiveHundred : Word := 0x43FA0000

/-- -0.0, +infinity and the canonical NaN of R15, as binary32 words. -/
def minusZero : Word := 0x80000000
def infinity : Word := 0x7F800000
def canonicalNaN : Word := 0x7FC00000

/-- A word of either sign whose magnitude is infinite. -/
def infinite (a : Word) : Prop := a = infinity ∨ a = infinity ||| minusZero

/-- The sign bit of a word. -/
def negative (a : Word) : Bool := a.getLsbD 31

/-- A word without a sign given one. -/
def signed (neg : Bool) (a : Word) : Word := if neg then a ||| minusZero else a

/-- `y * (1 - c) + x * c`, the output law of R160. -/
def blend (y x c : Word) : Word := F32.add (F32.mul y (F32.sub one c)) (F32.mul x c)

/-- The delay in samples `time_ms * SPMS` (R131). -/
def delay (s : State) (time : Word) : Word := F32.mul time s.cfg.spms

/-- The word index of a byte offset of R32. -/
def at' (byteOffset : Nat) : BitVec 10 := BitVec.ofNat 10 (byteOffset / 4)

/-- Everything but the lines, `res0`, `status` and the sequencer is as before. -/
def onlyLinesAndRes0 (s t : State) : Prop :=
  t = { s with lines := t.lines, res0 := t.res0, status := t.status, seq := t.seq }

/-- The four bytes of slot `j` of line `u` of `t` hold `v`, little-endian, its cursor has advanced by one
place, and every other byte of that line is as in `s` (R62, R130). Which byte of a slot is which cannot be
observed; little-endian is the model's choice (log entry 12). -/
def wroteAtCursor (s t : State) (u : Fin 8) (v : Word) : Prop :=
  (∀ a : Nat, t.memByte u a =
    if a / 4 = s.lines[u].cursor then v.extractLsb' (8 * (a % 4)) 8 else s.memByte u a) ∧
  t.lines[u].cursor = (s.lines[u].cursor + 1) % s.cfg.length u

/-- The read of a delay line is inside its contract (R135), for the 2-point modes. -/
def twoPointAdmissible (s : State) (u : Fin 8) (d : Word) : Bool :=
  decide (0 ≤ F32.val d ∧ F32.floor d + 1 ≤ (s.cfg.length u : Int) - 1)

/-- The read of a delay line is inside its contract (R135), for the 4-point modes. -/
def fourPointAdmissible (s : State) (u : Fin 8) (d : Word) : Bool :=
  decide ((2 ^ 149 : Int) ≤ F32.val d ∧ F32.floor d + 2 ≤ (s.cfg.length u : Int) - 1)

/-- A delay-line read of one of the five modes: with a finite delay `d` it answers `value d` and raises
RANGE outside `inside d`; with any other delay it answers the canonical NaN and raises RANGE (R132).
It changes nothing but `RES0`, the flags and `BUSY`. -/
def reads (i : Instr) (s : State) (inside : Word → Bool) (value : Word → Word) : Prop :=
  let d := delay s (opr s 0)
  exec i s = .next (done { s with res0 := if F32.isFinite d then value d else 0x7FC00000 }
    (finiteCheck (opr s 0) ||| raise (!(F32.isFinite d && inside d)) range))

/-- The causes that a legal command can raise (R302). -/
def mayRaise : Instr → Causes
  | .nop => 0
  | .dlw _ => nonfinite
  | .dlrStep _ => range ||| nonfinite
  | .dlrLinear _ => range ||| nonfinite
  | .dlrCosine _ => range ||| nonfinite
  | .dlrCubic _ => range ||| nonfinite
  | .dlrSpline _ => range ||| nonfinite
  | .opfHz _ => nonfinite
  | .opfLin _ => param ||| nonfinite
  | .apf _ => range ||| param ||| nonfinite
  | .phs => nonfinite
  | .tapr _ => range ||| param ||| nonfinite
  | .erc => range ||| param ||| nonfinite
  | .sata => nonfinite
  | .fdn => range ||| param ||| nonfinite
  | .cond => param ||| nonfinite
  | .srst => 0

/-- The host's next event. -/
def nextEvent (s : State) : Option PortEvent := s.events.head?

/-- The row of R103 that a word's `OPC`, `UNIT` and `MODE` must be in. -/
def inTable (opc unit mode : Nat) : Prop :=
  (opc = 0x00 ∧ unit = 0 ∧ mode = 0) ∨ (opc = 0x01 ∧ mode = 0) ∨ (opc = 0x02 ∧ mode ≤ 4) ∨
  (opc = 0x03 ∧ unit ≤ 4 ∧ mode ≤ 1) ∨ (opc = 0x04 ∧ unit ≤ 3 ∧ mode = 0) ∨
  (opc = 0x05 ∧ unit = 0 ∧ mode = 0) ∨ (opc = 0x06 ∧ unit ≤ 3 ∧ mode = 0) ∨
  (opc = 0x07 ∧ unit = 0 ∧ mode = 0) ∨ (opc = 0x08 ∧ unit = 0 ∧ mode = 0) ∨
  (opc = 0x09 ∧ unit = 0 ∧ mode = 0) ∨ (opc = 0x0A ∧ unit = 0 ∧ mode = 0) ∨
  (opc = 0x0B ∧ unit = 0 ∧ mode = 0)

/-- The values of R340: the unit state, the registers and the flags after a hardware reset. -/
def resetValues (s : State) : Prop :=
  (∀ u : Fin 8, ∀ j : Nat, s.memRead u j = 0) ∧ (∀ u : Fin 8, s.lines[u].cursor = 0) ∧
  (∀ u : Fin 5, s.y[u] = 0) ∧ s.phase = 0 ∧
  (∀ i : Fin 8, s.gprev[i] = 0 ∧ s.goff[i] = 0) ∧ s.rng = s.cfg.rngSeed ∧
  (∀ i : Fin 8, s.opr[i] = 0) ∧ s.res0 = 0 ∧ s.res1 = 0 ∧ s.status = 0 ∧ s.irqen = 0 ∧
  s.seq = .idle ∧ s.statusWord = 0 ∧ s.irq = false

/-- What the port answers for a constant register, in every condition of the core (R33, R34, R38, R42);
`none` for a register that is no constant. -/
def constantAt (c : Config) (a : BitVec 10) : Option Word :=
  if a = at' 0x000 then some 0x444D5346
  else if a = at' 0x004 then some 0x00000001
  else if a = at' 0x014 then some c.fs32
  else if a = at' 0x018 then some c.spms
  else if h : 0x0C0 / 4 ≤ a.toNat ∧ a.toNat < 0x0E0 / 4 then
    some (BitVec.ofNat 32 (c.length ⟨a.toNat - 0x0C0 / 4, by omega⟩))
  else none

/-- The index of an array of registers that starts at a byte offset: `OPRi`, `DBG_Yu`, and so on. -/
def indexIn (a : BitVec 10) (byteOffset count : Nat) : Option (Fin count) :=
  if h : byteOffset / 4 ≤ a.toNat ∧ a.toNat < byteOffset / 4 + count then
    some ⟨a.toNat - byteOffset / 4, by omega⟩
  else none

/-- What the port answers for each offset of R32 while the core is idle (R33 to R43). -/
def idleRead (s : State) (a : BitVec 10) : Word :=
  match constantAt s.cfg a with
  | some v => v
  | none =>
    if a = at' 0x00C then s.status.setWidth 32
    else if a = at' 0x010 then s.irqen.setWidth 32
    else if a = at' 0x01C then s.rng
    else if a = at' 0x040 then s.res0
    else if a = at' 0x044 then s.res1
    else if a = at' 0x080 then s.phase
    else if let some i := indexIn a 0x020 8 then s.opr[i]
    else if let some u := indexIn a 0x084 5 then s.y[u]
    else if let some u := indexIn a 0x0A0 8 then BitVec.ofNat 32 s.lines[u].cursor
    else if let some i := indexIn a 0x0E0 8 then s.gprev[i]
    else if let some i := indexIn a 0x100 8 then s.goff[i]
    else 0

/-- The registers whose read returns any value while a command runs (R353): `RES0`, `RES1`, `RNG` and
the debug registers other than the lengths. -/
def busyDraw (a : BitVec 10) : Bool :=
  a == at' 0x01C || a == at' 0x040 || a == at' 0x044 || a == at' 0x080 ||
  (indexIn a 0x084 5).isSome || (indexIn a 0x0A0 8).isSome || (indexIn a 0x0E0 8).isSome ||
  (indexIn a 0x100 8).isSome

/-- The time of reflection `r` at a size (R231), its scaled sample `a` (R233) on line `u`, and whether
its read is inside its contract. -/
def reflected (s : State) (size : Word) (p : Fin 8 × Reflection) : Word :=
  F32.mul
    (F32.mul (s.dlValue p.1 (F32.mul (F32.ofDec p.2.frac) size) s.cfg.erInterp) (F32.ofDec p.2.gain))
    (F32.sub one (F32.mul size (F32.ofDec s.cfg.erSizeScale)))

/-- The angle of a pan position, `(pan + 1) * 0.125` turns (R232). -/
def angle (r : Reflection) : Word := F32.mul (F32.add (F32.ofDec r.pan) one) 0x3E000000

/-- The reflections in the order of R233: tap 0 then tap 1, in index order, each with its line. -/
def reflectionsInOrder (c : Config) : List (Fin 8 × Reflection) :=
  c.reflections[0].map (fun r => ((0 : Fin 8), r)) ++ c.reflections[1].map (fun r => ((1 : Fin 8), r))

/-- The grain phases of R196. -/
def grain0 (s : State) (t : Fin 4) (lfo : Word) : Word :=
  F32.frac1 (F32.add lfo (F32.ofDec s.cfg.tapLfoOffset[t]))
def grain1 (s : State) (t : Fin 4) (lfo : Word) : Word :=
  F32.frac1 (F32.add (grain0 s t lfo) half)

/-- The four taps in the order of R201, on the state with the new phase, as a chain. -/
def tapChain (s : State) (size p depth : Word) : Vector Ran 4 :=
  let r0 := (s.setPhase p).tapRead 0 size p depth
  let r1 := r0.state.tapRead 1 size p depth
  let r2 := r1.state.tapRead 2 size p depth
  let r3 := r2.state.tapRead 3 size p depth
  #v[r0, r1, r2, r3]

/-- `n` steps of the generator. -/
def drawn : Nat → Word → Word
  | 0, x => x
  | n + 1, x => drawn n (xorshift x)

/-- One row of the matrix applied to the tap values, left to right by signed sums (R237): the first term is
the tap value or its sign flip, and each further one is added or subtracted. -/
def rowSum (row : Vector Int 4) (r : Vector Word 4) : Word :=
  let m0 := if row[0] > 0 then r[0] else r[0] ^^^ minusZero
  let m1 := if row[1] > 0 then F32.add m0 r[1] else F32.sub m0 r[1]
  let m2 := if row[2] > 0 then F32.add m1 r[2] else F32.sub m1 r[2]
  if row[3] > 0 then F32.add m2 r[3] else F32.sub m2 r[3]

/-- The largest magnitude of four values, from +0.0 in index order, a NaN propagated (R239). -/
def largest (m : Vector Word 4) : Word :=
  let a0 := F32.max 0 (F32.abs m[0])
  let a1 := F32.max a0 (F32.abs m[1])
  let a2 := F32.max a1 (F32.abs m[2])
  F32.max a2 (F32.abs m[3])

/-- The checks of FDN (R247, R302): every operand finite, then `size` on [1, 500], `speed_hz` on
[0.02, 150], `depth` on [-1, 1], `diffuse` on [0, 0.8], `absorb'` on [0, 1] and `decay` on [0, 1.2]. -/
def fdnOperandCauses (s : State) : Causes :=
  finiteCheck (opr s 0) ||| finiteCheck (opr s 1) ||| finiteCheck (opr s 2) ||| finiteCheck (opr s 3) |||
    finiteCheck (opr s 4) ||| finiteCheck (opr s 5) ||| finiteCheck (opr s 6) |||
    rangeCheck (opr s 1) one fiveHundred ||| rangeCheck (opr s 2) 0x3CA3D70A 0x43160000 |||
    rangeCheck (opr s 3) minusOne one ||| rangeCheck (opr s 4) 0 fourFifths |||
    rangeCheck (opr s 5) 0 one ||| rangeCheck (opr s 6) 0 0x3F99999A

/-- A power-of-two-scaled half of a word that is even in units of 2^-149. -/
def halves (w : Word) : Prop := F32.isFinite w = true ∧ F32.val w % 2 = 0

end Sys2Proof.Claims

open Sys2Proof Sys2Proof.Machine Sys2Proof.Claims

/-! ### Encoding (30_encoding.md) -/

/-- Decoding the word of a legal command gives the command back, with every `UNIT` the encoding admits. -/
def Obligations.DecodeOfEncode : Prop := ∀ i : Instr, i.wellFormed = true → decode (encode i) = .ok i

/-- Every word is the word of exactly one legal command, which is what it decodes to, or it is illegal
and the word of none (R109). -/
def Obligations.EveryWordHasOneReading : Prop := ∀ w : Word,
  (∃ i : Instr, decode w = .ok i ∧ i.wellFormed = true ∧ encode i = w ∧
    ∀ j : Instr, j.wellFormed = true → encode j = w → j = i) ∨
  (∃ e : DecodeError, decode w = .error e ∧
    ∀ j : Instr, j.wellFormed = true → encode j ≠ w)

/-- The legal words are those of R103's table with reserved bits 0. -/
def Obligations.LegalWordsAreTheTable : Prop := ∀ w : Word,
  (∃ i : Instr, decode w = .ok i) ↔
    (w.toNat / 2 ^ 15 = 0 ∧ w.toNat / 2 ^ 11 % 2 = 0 ∧
      inTable (w.toNat % 2 ^ 8) (w.toNat / 2 ^ 8 % 2 ^ 3) (w.toNat / 2 ^ 12 % 2 ^ 3))

/-- The words of R113, `(MODE << 12) | (UNIT << 8) | OPC`, for every mnemonic, and words written out
from the spec's encodings, legal and illegal. -/
def Obligations.WordsFollowTheEncoding : Prop :=
  (∀ u : BitVec 3,
    (encode (.dlw u)).toNat = (u.toNat <<< 8) ||| 0x01 ∧
    (encode (.dlrStep u)).toNat = (0 <<< 12) ||| (u.toNat <<< 8) ||| 0x02 ∧
    (encode (.dlrLinear u)).toNat = (1 <<< 12) ||| (u.toNat <<< 8) ||| 0x02 ∧
    (encode (.dlrCosine u)).toNat = (2 <<< 12) ||| (u.toNat <<< 8) ||| 0x02 ∧
    (encode (.dlrCubic u)).toNat = (3 <<< 12) ||| (u.toNat <<< 8) ||| 0x02 ∧
    (encode (.dlrSpline u)).toNat = (4 <<< 12) ||| (u.toNat <<< 8) ||| 0x02 ∧
    (encode (.opfHz u)).toNat = (0 <<< 12) ||| (u.toNat <<< 8) ||| 0x03 ∧
    (encode (.opfLin u)).toNat = (1 <<< 12) ||| (u.toNat <<< 8) ||| 0x03 ∧
    (encode (.apf u)).toNat = (u.toNat <<< 8) ||| 0x04 ∧
    (encode (.tapr u)).toNat = (u.toNat <<< 8) ||| 0x06) ∧
  encode .nop = 0x00000000 ∧ encode .phs = 0x00000005 ∧ encode .erc = 0x00000007 ∧
  encode .sata = 0x00000008 ∧ encode .fdn = 0x00000009 ∧ encode .cond = 0x0000000A ∧
  encode .srst = 0x0000000B ∧
  decode 0x00001302 = .ok (.dlrLinear 3) ∧ decode 0x00001203 = .ok (.opfLin 2) ∧
  decode 0x00000106 = .ok (.tapr 1) ∧ decode 0x00000009 = .ok .fdn ∧
  decode 0x00000701 = .ok (.dlw 7) ∧ decode 0x00004702 = .ok (.dlrSpline 7) ∧
  decode 0x00000304 = .ok (.apf 3) ∧ decode 0x0000000B = .ok .srst ∧
  decode 0x00000801 = .error .reservedBits ∧ decode 0x00005002 = .error .illegalMode ∧
  decode 0x00000503 = .error .illegalUnit ∧ decode 0x0000000C = .error .reservedOpcode

/-! ### Steps and the command handshake (20_memory.md section 4, 70_reset_and_hazards.md section 2) -/

/-- A step runs the decoded command: the accepted `CMD` write of a legal word puts its command in
flight and changes nothing else; the next step with no port event, or with a `wait`, is that command's
meaning; and `withFetchWord` is the accepted word with its completion next. The events, the `wait` and
`withFetchWord` are the model's own (log entries 6 and 8). -/
def Obligations.StepRunsTheDecodedCommand : Prop := ∀ (s : State) (w : Word) (i : Instr),
  decode w = .ok i →
  (∀ rest, s.seq = .idle → s.events = .write (at' 0x008) w :: rest →
    step s = .next { s with seq := .running (some i), events := rest }) ∧
  (s.seq = .running (some i) → s.events = [] → step s = exec i s) ∧
  (∀ rest, s.seq = .running (some i) → s.events = .wait :: rest →
    step s = exec i { s with events := rest }) ∧
  step (s.withFetchWord 32 w.toNat) = exec i { s with seq := .running (some i) }

/-- An illegal command word, once accepted, sets BADCMD at its completion and changes nothing else
(R110). That an illegal word takes the two steps of a command is the model's choice (log entry 9), and so
are the events (log entry 6). -/
def Obligations.IllegalWordSetsBadcmdOnly : Prop :=
  ∀ (s : State) (w : Word) (e : DecodeError) (rest : List PortEvent), decode w = .error e →
    s.seq = .idle → s.events = .write (at' 0x008) w :: .wait :: rest →
    ∃ t, step s = .next t ∧ step t = .next (done { s with events := rest } badcmd)

/-- The core never traps: every step answers a next state, whose configuration is the one before
(R312, R344). -/
def Obligations.StepAlwaysContinues : Prop := ∀ s : State, ∃ t, step s = .next t ∧ t.cfg = s.cfg

/-- Every command completes in one step: `BUSY` falls, no flag is lost, and the configuration, the
operand registers, the interrupt enables and the model's own fields are unchanged. -/
def Obligations.CommandsKeepTheHostSide : Prop := ∀ (i : Instr) (s : State),
  ∃ t, exec i s = .next t ∧ t.seq = .idle ∧ s.status ||| t.status = t.status ∧ State.sameHostSide s t

/-- No command reads a flag: with any other flags and enables the command computes the same state and
raises the same causes (R51). -/
def Obligations.FlagsNeverChangeValues : Prop := ∀ (i : Instr) (s t : State), exec i s = .next t →
  ∃ c : Causes, t.status = s.status ||| c ∧ ∀ f e : Causes,
    exec i { s with status := f, irqen := e } = .next { t with status := f ||| c, irqen := e }

/-- A legal command completes, and what it adds to the flags is in its row of R302: no other cause is
raised. A command with a `UNIT` outside its range, which no word decodes to, sets BADCMD and changes
nothing else: the model's choice (log entry 11). -/
def Obligations.FlagsPerCommand : Prop := ∀ (i : Instr) (s : State),
  (i.wellFormed = true →
    ∃ t c, exec i s = .next t ∧ t.status = s.status ||| c ∧ c &&& mayRaise i = c) ∧
  (i.wellFormed = false → exec i s = .next (done s badcmd))

/-- A sticky flag, once set, stays until the host writes 1 to it or a hardware reset completes (R36). R36
says until a reset occurs: that the flag field of the state still stands between the assertion of a reset
and its completion is the model's choice (log entry 15), and no read sees it there, because `STATUS` then
reads no flag (R341). -/
def Obligations.StickyFlagsStay : Prop := ∀ (s t : State) (b : Fin 5), step s = .next t →
  s.status.getLsbD b.val = true → s.seq ≠ .resetting →
  (∀ v, nextEvent s = some (.write (at' 0x00C) v) → v.getLsbD b.val = false) →
  t.status.getLsbD b.val = true

/-- At most one command is in flight: while one runs, a step leaves it running, completes it (on a
`wait`, or with no event left) or abandons it to a reset (on a `reset`), and no other command starts
(R351). The events that say which are the model's own (log entry 6). -/
def Obligations.OneCommandInFlight : Prop := ∀ (s t : State) (c : Option Instr),
  s.seq = .running c → step s = .next t →
  (t.seq = .running c ∧ ∃ e, nextEvent s = some e ∧ e ≠ .wait ∧ e ≠ .reset) ∨
  (t.seq = .idle ∧ (nextEvent s = none ∨ nextEvent s = some .wait)) ∨
  (t.seq = .resetting ∧ nextEvent s = some .reset)

/-- A host read or write changes no signal state: no line, cursor, one-pole state, phase, grain tracker
or result, and the generator only by a write to `RNG` of an idle core (R68). -/
def Obligations.HostTransactionsLeaveTheSignalState : Prop := ∀ (s t : State) (a : BitVec 10) (v : Word),
  (nextEvent s = some (.read a) ∨ nextEvent s = some (.write a v)) → step s = .next t →
  t.lines = s.lines ∧ t.y = s.y ∧ t.phase = s.phase ∧ t.gprev = s.gprev ∧ t.goff = s.goff ∧
  t.res0 = s.res0 ∧ t.res1 = s.res1 ∧
  (t.rng ≠ s.rng → s.seq = .idle ∧ nextEvent s = some (.write (at' 0x01C) v))

/-! ### The register port (10_state.md section 3, 70_reset_and_hazards.md section 2) -/

/-- A write to an idle core: `STATUS` bits are cleared by ones, `IRQEN` takes its five bits, `RNG` takes
the word or, for zero, the seed, `OPRi` takes the word, `CMD` starts a command, and every other offset
ignores it (R35 to R43). That the `CMD` write of an illegal word also raises `BUSY` and leaves `STATUS` as
it is until the word's completion is the model's choice (log entry 9). -/
def Obligations.WritesWhileIdle : Prop := ∀ (s : State) (a : BitVec 10) (v : Word) (rest : List PortEvent),
  s.seq = .idle → s.events = .write a v :: rest →
  step s = .next
    (if a = at' 0x008 then { s with events := rest, seq := .running (decode v).toOption }
     else if a = at' 0x00C then { s with events := rest, status := s.status &&& ~~~(v.setWidth 5) }
     else if a = at' 0x010 then { s with events := rest, irqen := v.setWidth 5 }
     else if a = at' 0x01C then
       { s with events := rest, rng := if v = 0 then s.cfg.rngSeed else v }
     else match indexIn a 0x020 8 with
       | some i => { s with events := rest, opr := s.opr.set i.val v }
       | none => { s with events := rest })

/-- A read of an idle core answers the register's value at every offset and changes nothing else (R32,
R68). That a length or cursor of 2^32 or more reads as its low 32 bits is the model's choice (log entry
29). -/
def Obligations.ReadsWhileIdle : Prop := ∀ (s : State) (a : BitVec 10) (rest : List PortEvent),
  s.seq = .idle → s.events = .read a :: rest →
  step s = .next { s with events := rest, rdata := idleRead s a }

/-- A write while a command runs: to `CMD`, an `OPRi` or `RNG` it is dropped and sets OVERRUN at once, to
`STATUS` it clears, to `IRQEN` it takes effect, elsewhere it is ignored (R352). After a clear the
command completes on the cleared flags, and what it leaves in `STATUS` is those and the causes it raises,
which are what the same command leaves in a `STATUS` of 0: a cleared flag that the command raises is set
again. The `wait` is the model's own (log entry 6). -/
def Obligations.WritesWhileBusy : Prop := ∀ (s : State) (c : Option Instr) (a : BitVec 10) (v : Word)
    (rest : List PortEvent),
  s.seq = .running c → s.events = .write a v :: rest →
  (∀ i tail, c = some i → a = at' 0x00C → rest = .wait :: tail →
    ∃ r t causes, step s = .next r ∧ step r = .next t ∧
      exec i { s with events := tail, status := 0 } = .next { t with status := causes } ∧
      t.status = (s.status &&& ~~~(v.setWidth 5)) ||| causes) ∧
  step s = .next
    (if a = at' 0x008 ∨ a = at' 0x01C ∨ (indexIn a 0x020 8).isSome then
       { s with events := rest, status := s.status ||| overrun }
     else if a = at' 0x00C then { s with events := rest, status := s.status &&& ~~~(v.setWidth 5) }
     else if a = at' 0x010 then { s with events := rest, irqen := v.setWidth 5 }
     else { s with events := rest })

/-- A read while a command runs: `STATUS` answers `BUSY` with the flags as they stand, the constants,
`IRQEN` and `OPRi` their value, `CMD` and the reserved offsets 0, and every other register a free value
(log entry 5); nothing else changes (R353). The statement holds for every value of the free values. A length
of 2^32 or more reads as its low 32 bits, the model's choice (log entry 29). -/
def Obligations.ReadsWhileBusy : Prop := ∀ (s : State) (c : Option Instr) (a : BitVec 10)
    (rest : List PortEvent),
  s.seq = .running c → s.events = .read a :: rest →
  step s = .next
    (if busyDraw a then
       { s with events := rest, rdata := Config.portDraw s.draws, draws := s.draws + 1 }
     else if a = at' 0x00C then
       { s with events := rest, rdata := 0x80000000 ||| s.status.setWidth 32 }
     else { s with events := rest, rdata := idleRead s a })

/-- The interrupt output is high exactly when an enabled cause is pending, and low during reset (R310,
R341). -/
def Obligations.InterruptOutput : Prop := ∀ s : State,
  s.irq = true ↔ (s.seq ≠ .resetting ∧
    ∃ b : Fin 5, s.status.getLsbD b.val = true ∧ s.irqen.getLsbD b.val = true)

/-! ### Reset (70_reset_and_hazards.md section 1) -/

/-- A completed hardware reset leaves every value of R340, and so does the state a core is built with;
in the reference configuration the generator state is 0x12345678. Before it completes `STATUS` reads
0x80000000, afterwards the constants read as R340 says. That no event left is the completion is the model's
own convention (log entry 6). A length of 2^32 or more reads as its low 32 bits, the model's
choice (log entry 29). -/
def Obligations.HardwareResetValues : Prop :=
  (∀ s : State, s.seq = .resetting → s.events = [] → s.statusWord = 0x80000000 ∧
    ∃ t, step s = .next t ∧ t.cfg = s.cfg ∧ resetValues t ∧
      ∀ a v, constantAt s.cfg a = some v → (t.hostRead a).rdata = v) ∧
  (∀ c : Config, resetValues (State.resetWith c) ∧
    ∀ a v, constantAt c a = some v → ((State.resetWith c).hostRead a).rdata = v) ∧
  State.reset.rng = 0x12345678

/-- A reset asserted while a command is in flight abandons it: none of its results, state changes or
flags survive, and the state becomes that of R340 (R343). That the model's own fields `events`, `rdata`
and `draws` stay, and that the values of R340 come at the completion of reset, is the model's choice (log
entry 15). -/
def Obligations.ResetAbandonsTheCommand : Prop := ∀ (s : State) (c : Option Instr) (rest : List PortEvent),
  s.seq = .running c → s.events = .reset :: .wait :: rest →
  ∃ r t, step s = .next r ∧ step r = .next t ∧ resetValues t ∧ t.cfg = s.cfg ∧ t.events = rest ∧
    t.rdata = s.rdata ∧ t.draws = s.draws

/-- While reset is in progress (R341): `STATUS` and the constants read their values and every other read
a free value (log entry 5), every write is ignored and sets no flag, and the interrupt output is low;
reset completes in one step. The events are the model's own (log entry 6). A length of 2^32 or more
reads as its low 32 bits, the model's choice (log entry 29). -/
def Obligations.ResetInProgress : Prop := ∀ (s : State), s.seq = .resetting →
  s.irq = false ∧
  (∀ a v rest, s.events = .write a v :: rest → step s = .next { s with events := rest }) ∧
  (∀ a rest, s.events = .read a :: rest →
    step s = .next (match constantAt s.cfg a with
      | some v => { s with events := rest, rdata := v }
      | none => if a = at' 0x00C then { s with events := rest, rdata := 0x80000000 }
        else { s with events := rest, rdata := Config.portDraw s.draws, draws := s.draws + 1 })) ∧
  (∀ rest, s.events = .wait :: rest → ∃ t, step s = .next t ∧ resetValues t ∧ t.cfg = s.cfg)

/-! ### Invariants -/

/-- Every configuration that meets `Config.buildable` builds a core, which starts in the invariant, the core
of `State.reset` (log entry 2) among them; a configuration that does not builds none (R344).
`Config.buildable` is the model's reading of R6 and R10: it also asks a seed that is not 0, a slot in every
line and an `ER_SIZE_SCALE` below 1/500, with every constant a number (log entry 14), and asks nothing of
the pan positions, `MOD_SCALE_MS` and the interpolations (log entries 26, 30, 31); the properties P1 to P7
of R16 are no part of it (`Config.FunctionsAdmitted`). -/
def Obligations.InvariantHoldsAtReset : Prop :=
  (∀ c : Config, c.buildable = true → State.construct c = some (State.resetWith c) ∧
    (State.resetWith c).Inv) ∧
  (∀ c : Config, c.buildable = false → State.construct c = none) ∧
  State.construct Config.reference = some State.reset ∧ State.reset.Inv

/-- Every step keeps the invariant: the lines stay in canonical form inside their lengths, every cursor
stays inside its line (R44), the generator state is never 0 (R48), a command in flight is legal (R108)
and the configuration stays one a core can be built for. -/
def Obligations.InvariantKeptByStep : Prop := ∀ s t : State, s.Inv → step s = .next t → t.Inv

/-- The phasor stays a NaN or a value in [0, 1) in every step, and a step by a frequency whose quotient by
the sample rate is finite keeps it in [0, 1) (R46, R191). R46 asks only a finite frequency: where its
quotient overflows the phase becomes NaN, the model's choice (log entry 27). -/
def Obligations.PhaseStaysLegal : Prop :=
  (∀ s t : State, phaseLegal s.phase = true → step s = .next t → phaseLegal t.phase = true) ∧
  (∀ s : State, F32.le 0 s.phase = true → F32.lt s.phase one = true →
    F32.isFinite (F32.div (opr s 0) s.cfg.fs32) = true →
    ∃ t, exec .phs s = .next t ∧ F32.le 0 t.phase = true ∧ F32.lt t.phase one = true)

/-- The saturation gate stays in [0, 1] under SATA and FDN (R238), for sine functions with property P3 and a
cutoff whose quotient by the sample rate is finite. With a quotient that overflows the gate becomes NaN,
where R238 has it in [0, 1]: the model's choice (log entry 34). -/
def Obligations.GateStaysInUnit : Prop := ∀ s : State, s.cfg.Bounded →
  F32.isFinite (F32.div (F32.ofDec s.cfg.satCutoffHz) s.cfg.fs32) = true → inUnit s.y[4] = true →
  ∃ t r, exec .sata s = .next t ∧ inUnit t.y[4] = true ∧ exec .fdn s = .next r ∧ inUnit r.y[4] = true

/-! ### Delay lines (40_delay_line.md) -/

/-- DLW stores the operand at the cursor, bit for bit, and advances the cursor, wrapping (R130); it raises
NONFINITE for an operand that is not finite and leaves every other byte, line and register. The byte order
inside the slot is the model's choice (log entry 12). -/
def Obligations.DlwStoresAndAdvances : Prop := ∀ (s : State) (u : BitVec 3), s.Inv →
  ∃ t, exec (.dlw u) s = .next t ∧
    t = done { s with lines := t.lines } (finiteCheck (opr s 0)) ∧
    wroteAtCursor s t (unitLine u) (opr s 0) ∧
    ∀ w : Fin 8, w ≠ unitLine u → t.lines[w] = s.lines[w]

/-- `sample(u, n)` is the sample written `n + 1` writes ago (R133): for any integer `n` it is the word in
slot `(cursor - 1 - n) mod L`, and after any list of writes to a line its newest samples are the
written words, newest first, and older samples have moved back. -/
def Obligations.SamplesAreTheLastWrites : Prop := ∀ (s : State) (u : Fin 8) (vs : List Word), s.Inv →
  (∀ n : Int, s.sample u n =
    s.memRead u (((s.lines[u].cursor : Int) - 1 - n) % (s.cfg.length u : Int)).toNat) ∧
  let t := vs.foldl (fun r v => r.dlWrite u v) s
  ∀ n : Nat, n < s.cfg.length u →
    t.sample u n = if h : n < vs.length then vs[vs.length - 1 - n] else s.sample u (n - vs.length)

/-- R146: a Step read at an integral delay inside the line returns the historical sample bit for bit, and
a Linear read half a sample further returns the sum of the halves of its neighbours, the correctly
rounded mean where the halves are exact. Neither raises a flag. -/
def Obligations.ReadsAtExactOffsets : Prop := ∀ (s : State) (u : BitVec 3) (n : Nat),
  F32.isFinite (delay s (opr s 0)) = true → n < s.cfg.length (unitLine u) →
  (F32.val (delay s (opr s 0)) = n * 2 ^ 149 →
    exec (.dlrStep u) s = .next (done { s with res0 := s.sample (unitLine u) n } 0)) ∧
  (n + 1 < s.cfg.length (unitLine u) → 2 * F32.val (delay s (opr s 0)) = (2 * n + 1) * 2 ^ 149 →
    ∃ v, exec (.dlrLinear u) s = .next (done { s with res0 := v } 0) ∧
      v = F32.add (F32.mul (s.sample (unitLine u) n) half)
        (F32.mul (s.sample (unitLine u) (n + 1)) half) ∧
      (halves (s.sample (unitLine u) n) → halves (s.sample (unitLine u) (n + 1)) →
        F32.Nearest v (F32.val (s.sample (unitLine u) n) + F32.val (s.sample (unitLine u) (n + 1)))
          2))

/-- DLR.STEP: the sample at the delay rounded to the nearest integer, ties away from zero, bit for bit
(R134); inside its contract for a delay from 0 to the last slot (R135). -/
def Obligations.DlrStepResult : Prop := ∀ (s : State) (u : BitVec 3),
  reads (.dlrStep u) s
    (fun d => decide (0 ≤ F32.val d ∧ F32.round d ≤ (s.cfg.length (unitLine u) : Int) - 1))
    (fun d => s.sample (unitLine u) (F32.round d))

/-- DLR.LINEAR: `y1 * (1 - f) + y2 * f` at integer part `k` and fraction `f` (R136). At a negative delay
above -1/2 the fraction is the rounded subtraction, 1.0 for a magnitude of at most 2^-25, where R131 has it
exact and below 1: the model's choice (log entry 13). -/
def Obligations.DlrLinearResult : Prop := ∀ (s : State) (u : BitVec 3),
  reads (.dlrLinear u) s (twoPointAdmissible s (unitLine u)) (fun d =>
    let k := F32.floor d
    let f := F32.sub d (F32.ofInt k)
    F32.add (F32.mul (s.sample (unitLine u) k) (F32.sub one f))
      (F32.mul (s.sample (unitLine u) (k + 1)) f))

/-- DLR.COSINE: the linear form with the weight `(1 - COS_T(f * 0.5)) * 0.5` (R137). The rounded fraction
at a negative delay above -1/2 is the model's choice (log entry 13). -/
def Obligations.DlrCosineResult : Prop := ∀ (s : State) (u : BitVec 3),
  reads (.dlrCosine u) s (twoPointAdmissible s (unitLine u)) (fun d =>
    let k := F32.floor d
    let f := F32.sub d (F32.ofInt k)
    let mu := F32.mul (F32.sub one (s.cfg.cosT (F32.mul f half))) half
    F32.add (F32.mul (s.sample (unitLine u) k) (F32.sub one mu))
      (F32.mul (s.sample (unitLine u) (k + 1)) mu))

/-- DLR.CUBIC: the polynomial of R138 on the samples at `k - 1` to `k + 2`. The rounded
fraction at a negative delay above -1/2 (log entry 13), and the value at `f = 0` where a sum overflows,
which R144 has as `y1` (log entry 34), are the model's choice. -/
def Obligations.DlrCubicResult : Prop := ∀ (s : State) (u : BitVec 3),
  reads (.dlrCubic u) s (fourPointAdmissible s (unitLine u)) (fun d =>
    let k := F32.floor d
    let f := F32.sub d (F32.ofInt k)
    let y0 := s.sample (unitLine u) (k - 1)
    let y1 := s.sample (unitLine u) k
    let y2 := s.sample (unitLine u) (k + 1)
    let y3 := s.sample (unitLine u) (k + 2)
    let a0 := F32.add (F32.sub (F32.sub y3 y2) y0) y1
    let a1 := F32.sub (F32.sub y0 y1) a0
    let a2 := F32.sub y2 y0
    let a3 := y1
    let f2 := F32.mul f f
    let f3 := F32.mul f2 f
    F32.add (F32.add (F32.add (F32.mul a0 f3) (F32.mul a1 f2)) (F32.mul a2 f)) a3)

/-- DLR.SPLINE: the Catmull-Rom cubic of R139 in its Horner order; 3.0, 2.0, 5.0, 4.0 as words. The
rounded fraction at a negative delay above -1/2 is the model's choice (log entry 13). -/
def Obligations.DlrSplineResult : Prop := ∀ (s : State) (u : BitVec 3),
  reads (.dlrSpline u) s (fourPointAdmissible s (unitLine u)) (fun d =>
    let k := F32.floor d
    let f := F32.sub d (F32.ofInt k)
    let y0 := s.sample (unitLine u) (k - 1)
    let y1 := s.sample (unitLine u) k
    let y2 := s.sample (unitLine u) (k + 1)
    let y3 := s.sample (unitLine u) (k + 2)
    let c3 := F32.add (F32.mul 0x40400000 (F32.sub y1 y2)) (F32.sub y3 y0)
    let c2 := F32.sub (F32.add (F32.sub (F32.mul 0x40000000 y0) (F32.mul 0x40A00000 y1))
      (F32.mul 0x40800000 y2)) y3
    let c1 := F32.sub y2 y0
    let h1 := F32.add c2 (F32.mul f c3)
    let h2 := F32.add c1 (F32.mul f h1)
    F32.add y1 (F32.mul (F32.mul half f) h2))

/-! ### Filters (41_filters.md) -/

/-- OPF.HZ: the output law with the coefficient `clamp01(SIN_T(freq / FS32))` (R160, R161). -/
def Obligations.OpfHzResult : Prop := ∀ (s : State) (u : BitVec 3) (h : u.toNat < 5),
  let v := blend s.y[u.toNat] (opr s 0) (F32.clamp01 (s.cfg.sinT (F32.div (opr s 1) s.cfg.fs32)))
  exec (.opfHz u) s = .next (done { s with y := s.y.set u.toNat v, res0 := v }
    (finiteCheck (opr s 0) ||| finiteCheck (opr s 1)))

/-- OPF.LIN: the output law with the coefficient `1 - value`, checked on [0, 1] (R160, R162). -/
def Obligations.OpfLinResult : Prop := ∀ (s : State) (u : BitVec 3) (h : u.toNat < 5),
  let v := blend s.y[u.toNat] (opr s 0) (F32.sub one (opr s 1))
  exec (.opfLin u) s = .next (done { s with y := s.y.set u.toNat v, res0 := v }
    (finiteCheck (opr s 0) ||| finiteCheck (opr s 1) ||| rangeCheck (opr s 1) 0 one))

/-- The ends of Linear mode, for finite input and state: `value = 0` passes the input, `value = 1` holds
the state, as values, and neither raises a flag (R171). -/
def Obligations.OnePoleEndpoints : Prop := ∀ (s : State) (u : BitVec 3) (h : u.toNat < 5),
  F32.isFinite (opr s 0) = true → F32.isFinite s.y[u.toNat] = true →
  (opr s 1 = 0 → ∃ v, F32.eq v (opr s 0) = true ∧
    exec (.opfLin u) s = .next (done { s with y := s.y.set u.toNat v, res0 := v } 0)) ∧
  (opr s 1 = one → ∃ v, F32.eq v s.y[u.toNat] = true ∧
    exec (.opfLin u) s = .next (done { s with y := s.y.set u.toNat v, res0 := v } 0))

/-- APF, the allpass step of R165 on line `4 + t`: the read precedes the one write, the gain is checked on
the open interval (-1, 1), and nothing else changes. The byte order inside the slot is
the model's choice (log entry 12). -/
def Obligations.ApfResult : Prop := ∀ (s : State) (t : Fin 4), s.Inv →
  let time := F32.ofDec s.cfg.apTimeMs[t]
  let dr := s.dlValue (allpassLine t) time s.cfg.apInterp
  let g := opr s 1
  let fb := F32.mul (F32.mul dr g) half
  let ip := F32.add (opr s 0) fb
  let ff := F32.mul (F32.mul ip g) minusHalf
  ∃ r, exec (.apf (BitVec.ofNat 3 t.val)) s = .next r ∧
    r = done { s with lines := r.lines, res0 := F32.add dr ff }
      (finiteCheck (opr s 0) ||| finiteCheck g |||
        raise (F32.isFinite g && !(F32.lt minusOne g && F32.lt g one)) param |||
        s.dlCauses (allpassLine t) time s.cfg.apInterp) ∧
    wroteAtCursor s r (allpassLine t) ip ∧
    ∀ w : Fin 8, w ≠ allpassLine t → r.lines[w] = s.lines[w]

/-- Under property P1 of the sine functions: the cosine read half way between two samples is the linear
read there, and on a sample it is the linear read too (R143); a Hertz coefficient is 1 at an odd quarter
1, 5, ... of the sample rate and 0 at the other quarters (R163); the pan ends are hard left and hard
right (R232). -/
def Obligations.QuarterPointConsequences : Prop := ∀ s : State, s.cfg.QuarterPointsExact →
  (∀ (u : BitVec 3) (k : Nat), F32.isFinite (delay s (opr s 0)) = true →
    (2 * F32.val (delay s (opr s 0)) = (2 * k + 1) * 2 ^ 149 ∨
      F32.val (delay s (opr s 0)) = (k + 1) * 2 ^ 149 ∨ delay s (opr s 0) = 0) →
    exec (.dlrCosine u) s = exec (.dlrLinear u) s) ∧
  (∀ (freq : Word) (n : Int), F32.isFinite (F32.div freq s.cfg.fs32) = true →
    4 * F32.val (F32.div freq s.cfg.fs32) = n * 2 ^ 149 →
    hertzCoefficient s.cfg freq = if n % 4 = 1 then one else 0) ∧
  (∀ r : Reflection, r.pan = ⟨-1, 1⟩ → F32.eq (s.cfg.cosT (panAngle r)) one = true ∧
    F32.eq (s.cfg.sinT (panAngle r)) 0 = true) ∧
  (∀ r : Reflection, r.pan = ⟨1, 1⟩ → F32.eq (s.cfg.cosT (panAngle r)) 0 = true ∧
    F32.eq (s.cfg.sinT (panAngle r)) one = true)

/-- The line lengths of R12 and the integer allpass delays of R166 in the reference configuration at
1000, 44100 and 48000 Hz; every allpass read there is inside its contract. -/
def Obligations.ReferenceLengthsAndAllpassDelays : Prop :=
  let lengths := fun c : Config => (List.finRange 8).map c.length
  let delays := fun c : Config => (List.finRange 4).map fun t : Fin 4 =>
    F32.round (F32.mul (F32.ofDec c.apTimeMs[t]) c.spms)
  let inside := fun c : Config => (List.finRange 4).all fun t : Fin 4 =>
    (State.resetWith c).dlCauses (allpassLine t) (F32.ofDec c.apTimeMs[t]) c.apInterp == 0
  let at1000 := Config.referenceAt 0x447A0000
  let at44100 := Config.referenceAt 0x472C4400
  let at48000 := Config.referenceAt 0x473B8000
  lengths at1000 = [505, 420, 340, 260, 9, 8, 7, 7] ∧
  lengths at44100 = [22099, 18350, 14822, 11294, 207, 168, 132, 106] ∧
  lengths at48000 = [24052, 19972, 16132, 12292, 225, 182, 144, 115] ∧
  delays at1000 = [5, 4, 3, 2] ∧ delays at44100 = [203, 163, 128, 101] ∧
  delays at48000 = [221, 178, 139, 110] ∧
  inside at1000 = true ∧ inside at44100 = true ∧ inside at48000 = true

/-! ### Modulation (42_modulation.md) -/

/-- PHS: the phase becomes `frac1(phase + freq / FS32)` and is the result (R190). That the phase becomes NaN
where the quotient of a finite frequency overflows, which R46 does not have, is the model's choice (log
entry 27). -/
def Obligations.PhsResult : Prop := ∀ s : State,
  let p := F32.frac1 (F32.add s.phase (F32.div (opr s 0) s.cfg.fs32))
  exec .phs s = .next (done { s with phase := p, res0 := p } (finiteCheck (opr s 0)))

/-- The generator of R200: one xorshift32 step in 32-bit arithmetic, which never leads to zero, and the
top 24 bits as an exact binary32 value in [0, 1). -/
def Obligations.GeneratorStep : Prop := ∀ x : Word,
  (let a := x.toNat ^^^ (x.toNat * 2 ^ 13 % 2 ^ 32)
   let b := a ^^^ (a / 2 ^ 17)
   (xorshift x).toNat = b ^^^ (b * 2 ^ 5 % 2 ^ 32)) ∧
  (xorshift x = 0 ↔ x = 0) ∧
  F32.isFinite (unitInterval x) = true ∧
  F32.val (unitInterval x) * 2 ^ 24 = ((x.toNat / 2 ^ 8 : Nat) : Int) * 2 ^ 149 ∧
  F32.le 0 (unitInterval x) = true ∧ F32.lt (unitInterval x) one = true

/-- TAPR with a depth that is 0, negative or a NaN (R193 to R195): a static or a vibrato read of tap line
`t`, or the canonical NaN and no read; the phasor, the grain trackers and the generator stay. -/
def Obligations.TaprWithoutGrains : Prop := ∀ (s : State) (t : Fin 4),
  let size := opr s 0
  let lfo := opr s 1
  let depth := opr s 2
  let base := F32.mul (F32.ofDec s.cfg.tapFraction[t]) size
  let exc := F32.mul (F32.mul (F32.abs depth) (F32.ofDec s.cfg.modScaleMs))
    (s.cfg.sinT (F32.add lfo (F32.ofDec s.cfg.tapLfoOffset[t])))
  let checks := finiteCheck size ||| finiteCheck lfo ||| finiteCheck depth |||
    rangeCheck size one fiveHundred ||| rangeCheck depth minusOne one
  let readAt := fun time => exec (.tapr (BitVec.ofNat 3 t.val)) s =
    .next (done { s with res0 := s.dlValue (tapLine t) time s.cfg.tapInterp }
      (checks ||| s.dlCauses (tapLine t) time s.cfg.tapInterp))
  (F32.eq depth 0 = true → readAt base) ∧
  (F32.lt depth 0 = true → readAt (F32.add base exc)) ∧
  (F32.isNaN depth = true → exec (.tapr (BitVec.ofNat 3 t.val)) s =
    .next (done { s with res0 := 0x7FC00000 } checks))

/-- TAPR with a positive depth (R196 to R199): each grain retriggers when its phase has gone down, taking
one draw for its offset; the result is the sum of the two windowed reads at their constant times. The offset
is the rounded product, which R47 has below `depth`: the model's choice where it is not (log entry 28). -/
def Obligations.TaprGranular : Prop := ∀ (s : State) (t : Fin 4), F32.lt 0 (opr s 2) = true →
  let size := opr s 0
  let lfo := opr s 1
  let depth := opr s 2
  let base := F32.mul (F32.ofDec s.cfg.tapFraction[t]) size
  let i0 := 2 * t.val
  let i1 := 2 * t.val + 1
  let g0 := grain0 s t lfo
  let g1 := grain1 s t lfo
  let again0 := F32.lt (F32.sub g0 s.gprev[i0]) 0
  let again1 := F32.lt (F32.sub g1 s.gprev[i1]) 0
  let rng0 := if again0 then xorshift s.rng else s.rng
  let rng1 := if again1 then xorshift rng0 else rng0
  let off0 := if again0 then F32.mul (unitInterval rng0) depth else s.goff[i0]
  let off1 := if again1 then F32.mul (unitInterval rng1) depth else s.goff[i1]
  let time := fun off => F32.add base (F32.mul off (F32.ofDec s.cfg.modScaleMs))
  let window := fun g => F32.mul (s.cfg.sinT (F32.mul g half)) (s.cfg.sinT (F32.mul g half))
  let read := fun off => s.dlValue (tapLine t) (time off) s.cfg.tapInterp
  exec (.tapr (BitVec.ofNat 3 t.val)) s = .next (done
    { s with
      gprev := (s.gprev.set i0 g0).set i1 g1
      goff := (s.goff.set i0 off0).set i1 off1
      rng := rng1
      res0 := F32.add (F32.mul (read off0) (window g0)) (F32.mul (read off1) (window g1)) }
    (finiteCheck size ||| finiteCheck lfo ||| finiteCheck depth |||
      rangeCheck size one fiveHundred ||| rangeCheck depth minusOne one |||
      s.dlCauses (tapLine t) (time off0) s.cfg.tapInterp |||
      s.dlCauses (tapLine t) (time off1) s.cfg.tapInterp))

/-- The grain trackers and the generator change only in granular mode (R202), in which a tap takes at most
two draws and a sample step at most eight, one for each retrigger (R201); no tap read writes a line, a
one-pole state or the phase (R205). -/
def Obligations.GrainStateOnlyInGranularMode : Prop := ∀ (s : State) (u : BitVec 3),
  ∃ t r, exec (.tapr u) s = .next t ∧ exec .fdn s = .next r ∧
    t.lines = s.lines ∧ t.y = s.y ∧ t.phase = s.phase ∧
    (F32.lt 0 (opr s 2) = false → t.gprev = s.gprev ∧ t.goff = s.goff ∧ t.rng = s.rng) ∧
    (F32.lt 0 (opr s 3) = false → r.gprev = s.gprev ∧ r.goff = s.goff ∧ r.rng = s.rng) ∧
    (∃ n, n ≤ 2 ∧ t.rng = drawn n s.rng) ∧ (∃ n, n ≤ 8 ∧ r.rng = drawn n s.rng)

/-! ### Network (43_network.md) -/

/-- ERC: the stereo sum of the reflections, tap 0 then tap 1 in index order from +0.0, each scaled and
panned (R233); no unit state changes, and RANGE is raised when a reflection read is outside its
contract. It holds of every configuration; which ones the model admits, where `sc` is 0
or a read inadmissible, log entries 31 and 32 say. -/
def Obligations.ErcResult : Prop := ∀ s : State,
  let size := opr s 0
  let rs := reflectionsInOrder s.cfg
  exec .erc s = .next (done
    { s with
      res0 := rs.foldl (fun acc p =>
        F32.add acc (F32.mul (reflected s size p) (s.cfg.cosT (angle p.2)))) 0
      res1 := rs.foldl (fun acc p =>
        F32.add acc (F32.mul (reflected s size p) (s.cfg.sinT (angle p.2)))) 0 }
    (finiteCheck size ||| rangeCheck size one fiveHundred |||
      raise (rs.any fun p =>
        s.dlCauses p.1 (F32.mul (F32.ofDec p.2.frac) size) s.cfg.erInterp != 0) range))

/-- In the reference configuration at 1000, 44100 and 48000 Hz every reflection read with a size from 1 to
500 is inside its contract: ERC raises no flag (R235). R235 says it of every configuration, which R135 does
not bear out for 4-point reads and a negative `MOD_SCALE_MS` (log entries 30 and 31). -/
def Obligations.ReflectionReadsAdmissible : Prop := ∀ s : State,
  s.cfg = Config.referenceAt 0x447A0000 ∨ s.cfg = Config.referenceAt 0x472C4400 ∨
    s.cfg = Config.referenceAt 0x473B8000 →
  F32.le one (opr s 0) = true → F32.le (opr s 0) fiveHundred = true →
  ∃ t, exec .erc s = .next t ∧ t.status = s.status

/-- SATA: unit 4 steps in Hertz mode at `SAT_CUTOFF_HZ` towards 1.0 when the amplitude is above the
threshold, and towards 0.0 otherwise, a NaN amplitude included (R238). -/
def Obligations.SataResult : Prop := ∀ s : State,
  let target := if F32.lt (F32.ofDec s.cfg.satThreshold) (opr s 0) then one else 0
  let c := F32.clamp01 (s.cfg.sinT (F32.div (F32.ofDec s.cfg.satCutoffHz) s.cfg.fs32))
  let g := blend s.y[4] target c
  exec .sata s = .next (done { s with y := s.y.set 4 g, res0 := g } (finiteCheck (opr s 0)))

/-- The matrix of a core is orthogonal with norm 2, over the real numbers, and its binary32 sums are exact
on integer vectors of up to 22 bits (R250). -/
def Obligations.MatrixOrthogonalAndExact : Prop := ∀ c : Config, c.buildable = true →
  (∀ v : Fin 4 → ℝ,
    (∑ i : Fin 4, (∑ j : Fin 4, (c.matrix[i][j] : ℝ) * v j) ^ 2) = 4 * ∑ j : Fin 4, v j ^ 2) ∧
  (∀ n : Fin 4 → Int, (∀ j, (n j).natAbs ≤ 2 ^ 22) → ∀ i : Fin 4,
    F32.val (matrixMul c #v[F32.ofInt (n 0), F32.ofInt (n 1), F32.ofInt (n 2), F32.ofInt (n 3)])[i] =
      (∑ j : Fin 4, c.matrix[i][j] * n j) * 2 ^ 149)

/-- FDN is the sample step of R240 with every read made on the state before the command: the taps in order
on the new phase, the reflections, the matrix by signed sums from left to right (R237), the gate fed with
the largest magnitude of the mixed values (R239), the blend scaled by `decay·0.5`, the input into taps 0
and 1, and for each tap one absorption step, one allpass step and one flushed write; and its causes are
those of its operand checks (R247), of the tap and reflection reads and of the four allpass reads.
The byte order inside a slot (log entry 12), a phase that becomes NaN at a finite frequency whose quotient
by the sample rate overflows (log entry 27), the allpass reads among the causes (log entry 31) and what a
tap line takes at `diffuse = 0` (log entry 33) are the model's choice where other rules say otherwise or
nothing. -/
def Obligations.FdnStep : Prop := ∀ s : State,
  let c := s.cfg
  let p := F32.frac1 (F32.add s.phase (F32.div (opr s 2) c.fs32))
  let taps := tapChain s (opr s 1) p (opr s 3)
  let r : Vector Word 4 := taps.map (·.value)
  let er := s.erProcess (opr s 1)
  let m : Vector Word 4 := c.matrix.map fun row => rowSum row r
  let g := blend s.y[4] (if F32.lt (F32.ofDec c.satThreshold) (largest m) then one else 0)
    (F32.clamp01 (c.sinT (F32.div (F32.ofDec c.satCutoffHz) c.fs32)))
  let mixed := fun i : Fin 4 => F32.mul
    (F32.add (F32.mul (F32.sub one g) m[i]) (F32.mul g (c.tanh m[i]))) (F32.mul (opr s 6) half)
  let x := fun i : Fin 4 => if i.val < 2 then F32.add (mixed i) (opr s 0) else mixed i
  let a := fun i : Fin 4 => blend s.y[i.val] (x i) (F32.sub one (opr s 5))
  let time := fun i : Fin 4 => F32.ofDec c.apTimeMs[i]
  let dr := fun i : Fin 4 => s.dlValue (allpassLine i) (time i) c.apInterp
  let ip := fun i : Fin 4 => F32.add (a i) (F32.mul (F32.mul (dr i) (opr s 4)) half)
  let z := fun i : Fin 4 =>
    F32.ftz (F32.add (dr i) (F32.mul (F32.mul (ip i) (opr s 4)) minusHalf))
  ∃ t, exec .fdn s = .next t ∧
    t = done
      { s with
        lines := t.lines
        y := #v[a 0, a 1, a 2, a 3, g]
        phase := p
        gprev := taps[3].state.gprev
        goff := taps[3].state.goff
        rng := taps[3].state.rng
        res0 := F32.mul (F32.add (F32.add r[0] r[2]) er.left) half
        res1 := F32.mul (F32.add (F32.add r[1] r[3]) er.right) half }
      (fdnOperandCauses s ||| taps[0].causes ||| taps[1].causes ||| taps[2].causes |||
        taps[3].causes ||| er.causes ||| s.dlCauses (allpassLine 0) (time 0) c.apInterp |||
        s.dlCauses (allpassLine 1) (time 1) c.apInterp |||
        s.dlCauses (allpassLine 2) (time 2) c.apInterp |||
        s.dlCauses (allpassLine 3) (time 3) c.apInterp) ∧
    (s.Inv → ∀ i : Fin 4, wroteAtCursor s t (tapLine i) (z i) ∧
      wroteAtCursor s t (allpassLine i) (ip i))

/-- What one sample step changes (R248): the phase once, each of the eight lines by exactly one write at its
cursor, the one-pole states, in granular mode the trackers and the generator, the results and the flags;
nothing else. The byte order inside a slot (log entry 12) and a phase that becomes NaN at a finite frequency
(log entry 27) are the model's choice. -/
def Obligations.FdnFrame : Prop := ∀ s : State, s.Inv →
  ∃ t, exec .fdn s = .next t ∧
    t.phase = F32.frac1 (F32.add s.phase (F32.div (opr s 2) s.cfg.fs32)) ∧
    (∀ u : Fin 8, (∃ v, wroteAtCursor s t u v) ∧
      ∀ j, j ≠ s.lines[u].cursor → t.memRead u j = s.memRead u j) ∧
    (F32.lt 0 (opr s 3) = false → t.gprev = s.gprev ∧ t.goff = s.goff ∧ t.rng = s.rng) ∧
    State.sameHostSide s t ∧ t.seq = .idle ∧
    (t.status ^^^ s.status) &&& (badcmd ||| overrun) = 0

/-- The input reaches taps 0 and 1 only (R242): with another input, one sample step gives the same results,
lines 2, 3, 6 and 7, one-pole states 2 to 4, phase, trackers and generator. -/
def Obligations.FdnInputReachesTapsZeroAndOne : Prop := ∀ (s : State) (x : Word),
  ∃ t r, exec .fdn s = .next t ∧ exec .fdn { s with opr := s.opr.set 0 x } = .next r ∧
    r.res0 = t.res0 ∧ r.res1 = t.res1 ∧ r.lines[2] = t.lines[2] ∧ r.lines[3] = t.lines[3] ∧
    r.lines[6] = t.lines[6] ∧ r.lines[7] = t.lines[7] ∧ r.y[2] = t.y[2] ∧ r.y[3] = t.y[3] ∧
    r.y[4] = t.y[4] ∧ r.phase = t.phase ∧ r.gprev = t.gprev ∧ r.goff = t.goff ∧ r.rng = t.rng

/-- No sample step writes a subnormal into a tap line (R243). -/
def Obligations.FdnWritesNoSubnormal : Prop := ∀ s : State, s.Inv →
  ∃ t, exec .fdn s = .next t ∧ ∀ i : Fin 4, F32.isSubnormal (t.sample (tapLine i) 0) = false

/-! ### Control (44_control.md) -/

/-- COND: `min(absorb * 3, 1) * 0.8` and `max(absorb - 0x3EAAAAAB, 0) * 1.5` (R281). -/
def Obligations.CondResult : Prop := ∀ s : State,
  let a := opr s 0
  exec .cond s = .next (done
    { s with
      res0 := F32.mul (F32.min (F32.mul a 0x40400000) one) fourFifths
      res1 := F32.mul (F32.max (F32.sub a 0x3EAAAAAB) 0) 0x3FC00000 }
    (finiteCheck a ||| rangeCheck a 0 one))

/-- For a control from 0 to 1 the two results of COND are in the ranges the FDN command checks, the second
at most 0x3F7FFFFF; from 0x3EAAAAAB up the first is 0.8, and up to there the second is a zero; no flag
is raised (R283). -/
def Obligations.CondMeetsTheFdnRanges : Prop := ∀ s : State,
  F32.le 0 (opr s 0) = true → F32.le (opr s 0) one = true →
  ∃ t, exec .cond s = .next t ∧ t.status = s.status ∧
    F32.le 0 t.res0 = true ∧ F32.le t.res0 fourFifths = true ∧
    F32.le 0 t.res1 = true ∧ F32.le t.res1 0x3F7FFFFF = true ∧
    (F32.le 0x3EAAAAAB (opr s 0) = true → t.res0 = fourFifths) ∧
    (F32.le (opr s 0) 0x3EAAAAAB = true → t.res1 = 0)

/-- SRST: every slot, cursor, one-pole state, the phase, every grain tracker and the results +0.0, the
generator at its seed; `STATUS`, `IRQEN` and the operands stay (R282). -/
def Obligations.SrstResult : Prop := ∀ s : State,
  ∃ t, exec .srst s = .next t ∧
    t = done { s with lines := t.lines, y := t.y, phase := 0, gprev := t.gprev, goff := t.goff,
                      rng := s.cfg.rngSeed, res0 := 0, res1 := 0 } 0 ∧
    (∀ u : Fin 8, ∀ j : Nat, t.memRead u j = 0) ∧ (∀ u : Fin 8, t.lines[u].cursor = 0) ∧
    (∀ u : Fin 5, t.y[u] = 0) ∧ (∀ i : Fin 8, t.gprev[i] = 0 ∧ t.goff[i] = 0) ∧
    State.sameUnits t (State.resetWith s.cfg)

/-- NOP completes without changing anything but `BUSY`, and a word with its opcode and any other bit set
is illegal (R280). -/
def Obligations.NopResult : Prop :=
  (∀ s : State, exec .nop s = .next { s with seq := .idle }) ∧
  (∀ w : Word, w.toNat % 2 ^ 8 = 0 → w ≠ 0 → ∃ e, decode w = .error e)

/-! ### Sample arithmetic (00_scope.md section 5, 60_exceptions.md section 1) -/

/-- Each arithmetic operation on finite operands is the exact result rounded once, to nearest, ties to even
(R14); values count units of 2^-149. The rest is what IEEE 754 gives the special values, as R14 says: an
exact sum or difference of zero is +0.0 but for two negative zeros, a product or quotient has the sign that
differing signs of the operands make negative, a nonzero value divided by zero is an infinity, an
infinity absorbs a finite term or factor and divides to zero, and `inf - inf`, `0 * inf`, `inf / inf` and
`0 / 0` are the NaN of R15. -/
def Obligations.ArithmeticRoundsToNearest : Prop := ∀ a b : Word,
  let minus := negative a != negative b
  (F32.isFinite a = true → F32.isFinite b = true →
    (F32.Nearest (F32.add a b) (F32.val a + F32.val b) 1 ∧
      (F32.val a + F32.val b = 0 →
        F32.add a b = if a = minusZero ∧ b = minusZero then minusZero else 0)) ∧
    (F32.Nearest (F32.sub a b) (F32.val a - F32.val b) 1 ∧
      (F32.val a = F32.val b → F32.sub a b = if a = minusZero ∧ b = 0 then minusZero else 0)) ∧
    (F32.Nearest (F32.mul a b) (F32.val a * F32.val b) (2 ^ 149) ∧
      negative (F32.mul a b) = minus) ∧
    (F32.val b ≠ 0 →
      F32.Nearest (F32.div a b) (F32.val a * 2 ^ 149 * (F32.val b).sign) (F32.val b).natAbs ∧
      negative (F32.div a b) = minus) ∧
    (F32.val b = 0 → F32.div a b = if F32.val a = 0 then canonicalNaN else signed minus infinity)) ∧
  (infinite a → F32.isFinite b = true →
    F32.add a b = a ∧ F32.add b a = a ∧ F32.sub a b = a ∧ F32.sub b a = a ^^^ minusZero ∧
    F32.mul a b = (if F32.val b = 0 then canonicalNaN else signed minus infinity) ∧
    F32.mul b a = F32.mul a b ∧ F32.div a b = signed minus infinity ∧ F32.div b a = signed minus 0) ∧
  (infinite a → infinite b →
    F32.add a b = (if a = b then a else canonicalNaN) ∧
    F32.sub a b = (if a = b then canonicalNaN else a) ∧
    F32.mul a b = signed minus infinity ∧ F32.div a b = canonicalNaN)

/-- A NaN result is the canonical NaN, comparisons with a NaN are false, and `min` and `max` propagate it
(R15, R17). -/
def Obligations.NaNResultsAreCanonical : Prop := ∀ a b : Word,
  (F32.isNaN a = true ∨ F32.isNaN b = true →
    F32.add a b = 0x7FC00000 ∧ F32.sub a b = 0x7FC00000 ∧ F32.mul a b = 0x7FC00000 ∧
    F32.div a b = 0x7FC00000 ∧ F32.min a b = 0x7FC00000 ∧ F32.max a b = 0x7FC00000 ∧
    F32.lt a b = false ∧ F32.le a b = false ∧ F32.eq a b = false) ∧
  (F32.isNaN (F32.add a b) = true → F32.add a b = 0x7FC00000) ∧
  (F32.isNaN (F32.sub a b) = true → F32.sub a b = 0x7FC00000) ∧
  (F32.isNaN (F32.mul a b) = true → F32.mul a b = 0x7FC00000) ∧
  (F32.isNaN (F32.div a b) = true → F32.div a b = 0x7FC00000)

/-- The helper primitives of R17, and the comparisons they are written in. `finite` is what is neither a NaN
nor an infinity; the comparisons of numbers are those of their values; `floor` is the largest integer at or
below, `round` the nearest with ties away from zero; `frac1` is the one subtraction `x - floor(x)` with 1.0
sent to 0.0, in [0, 1), and the canonical NaN of what is not finite; `abs` clears the sign bit; `min`,
`max` and `clamp01` choose as R17 writes them and keep a NaN, and `clamp01` of a number lies in [0, 1];
`ftz` sends exactly the subnormals to +0.0. -/
def Obligations.HelperPrimitives : Prop := ∀ x y : Word,
  ((F32.isFinite x = true ↔ x.toNat % 2 ^ 31 < 0x7F800000) ∧
    (F32.isNaN x = true ↔ 0x7F800000 < x.toNat % 2 ^ 31)) ∧
  (F32.floor x * 2 ^ 149 ≤ F32.val x ∧ F32.val x < (F32.floor x + 1) * 2 ^ 149) ∧
  (2 * (F32.round x * 2 ^ 149 - F32.val x).natAbs ≤ 2 ^ 149 ∧
    (2 * (F32.round x * 2 ^ 149 - F32.val x).natAbs = 2 ^ 149 →
      (F32.val x).natAbs < (F32.round x * 2 ^ 149).natAbs)) ∧
  (F32.isFinite x = true →
    let whole := F32.ofInt (F32.floor x)
    let z := F32.sub x whole
    F32.val whole = F32.floor x * 2 ^ 149 ∧ F32.frac1 x = (if z = one then 0 else z) ∧
    F32.le 0 (F32.frac1 x) = true ∧ F32.lt (F32.frac1 x) one = true) ∧
  (F32.isFinite x = false → F32.frac1 x = canonicalNaN) ∧
  F32.abs x = x &&& 0x7FFFFFFF ∧
  (F32.isNaN x = false →
    F32.clamp01 x = (if F32.val x ≤ 0 then 0 else if F32.val x < 2 ^ 149 then x else one) ∧
    inUnit (F32.clamp01 x) = true) ∧
  (F32.isNaN x = true → F32.clamp01 x = canonicalNaN) ∧
  (F32.isNaN x = false → F32.isNaN y = false →
    F32.lt x y = decide (F32.val x < F32.val y) ∧ F32.le x y = decide (F32.val x ≤ F32.val y) ∧
    F32.eq x y = decide (F32.val x = F32.val y) ∧
    F32.min x y = (if F32.val x < F32.val y then x else y) ∧
    F32.max x y = (if F32.val y < F32.val x then x else y)) ∧
  (F32.isNaN x = true ∨ F32.isNaN y = true →
    F32.min x y = canonicalNaN ∧ F32.max x y = canonicalNaN) ∧
  (F32.ftz x = if 0 < (F32.val x).natAbs ∧ (F32.val x).natAbs < 2 ^ 23 then 0 else x)

/-- The bounds of the PARAM checks are the binary32 words of their literals, and a value equal to a bound
passes; a value that is not finite raises NONFINITE and never PARAM (R303). -/
def Obligations.RangeCheckBounds : Prop :=
  (sizeMin = 0x3F800000 ∧ sizeMax = 0x43FA0000 ∧ speedMin = 0x3CA3D70A ∧ speedMax = 0x43160000 ∧
    depthMin = 0xBF800000 ∧ depthMax = 0x3F800000 ∧ diffuseMax = 0x3F4CCCCD ∧ decayMin = 0 ∧
    decayMax = 0x3F99999A) ∧
  (∀ v lo hi : Word, F32.isFinite lo = true → F32.isFinite hi = true →
    (checkRange v lo hi = param ↔ F32.isFinite v = true ∧
      (F32.val v < F32.val lo ∨ F32.val hi < F32.val v)) ∧
    (checkRange v lo hi = 0 ↔ F32.isFinite v = false ∨
      (F32.val lo ≤ F32.val v ∧ F32.val v ≤ F32.val hi)) ∧
    (checkRangeOpen v lo hi = param ↔ F32.isFinite v = true ∧
      (F32.val v ≤ F32.val lo ∨ F32.val hi ≤ F32.val v)) ∧
    (checkRangeOpen v lo hi = 0 ↔ F32.isFinite v = false ∨
      (F32.val lo < F32.val v ∧ F32.val v < F32.val hi))) ∧
  (∀ v : Word, (checkFinite v = nonfinite ↔ F32.isFinite v = false) ∧
    (checkFinite v = 0 ↔ F32.isFinite v = true))
end

