-- ==== Sys2Proof/Laws/PerInstr.lean ====
section
/-! SUPPORT. A statement about every command as syntax, made per constructor: the fields of its encoded
word (30_encoding.md R101, R102, R113). -/

namespace Sys2Proof

/-- The opcode of a command (R102). -/
def Instr.opcode : Instr → Nat
  | .nop => 0x00
  | .dlw _ => 0x01
  | .dlrStep _ => 0x02
  | .dlrLinear _ => 0x02
  | .dlrCosine _ => 0x02
  | .dlrCubic _ => 0x02
  | .dlrSpline _ => 0x02
  | .opfHz _ => 0x03
  | .opfLin _ => 0x03
  | .apf _ => 0x04
  | .phs => 0x05
  | .tapr _ => 0x06
  | .erc => 0x07
  | .sata => 0x08
  | .fdn => 0x09
  | .cond => 0x0A
  | .srst => 0x0B

/-- The fields of a word built from its fields (R101). -/
theorem commandWord_fields (opc : BitVec 8) (unit mode : BitVec 3) :
    fieldOpc (commandWord opc unit mode) = opc ∧ fieldUnit (commandWord opc unit mode) = unit ∧
      fieldMode (commandWord opc unit mode) = mode ∧ fieldBit11 (commandWord opc unit mode) = 0 ∧
      fieldHigh (commandWord opc unit mode) = 0 := by
  refine ⟨?_, ?_, ?_, ?_, ?_⟩ <;>
    (apply BitVec.eq_of_getLsbD_eq; intro i hi
     simp only [fieldOpc, fieldUnit, fieldMode, fieldBit11, fieldHigh, commandWord,
       BitVec.getLsbD_extractLsb', BitVec.getLsbD_append, hi, decide_true, Bool.true_and])
  · simp [hi]
  · simp [show ¬ 8 + i < 8 by omega, hi]
  · simp [show ¬ 12 + i < 8 by omega, show ¬ 12 + i - 8 < 3 by omega, show ¬ 12 + i - 8 - 3 < 1 by omega,
      show 12 + i - 8 - 3 - 1 = i by omega, hi]
  · simp [show ¬ 11 + i < 8 by omega, show ¬ 11 + i - 8 < 3 by omega, show 11 + i - 8 - 3 < 1 by omega]
  · simp [show ¬ 15 + i < 8 by omega, show ¬ 15 + i - 8 < 3 by omega, show ¬ 15 + i - 8 - 3 < 1 by omega,
      show ¬ 15 + i - 8 - 3 - 1 < 3 by omega]

end Sys2Proof

namespace Sys2Proof.Laws.EncodedFields

/-- The encoded word of a command carries its opcode in bits 7:0 and has its reserved bits 0. -/
def Statement (i : Instr) : Prop :=
  (fieldOpc (encode i)).toNat = i.opcode ∧ fieldBit11 (encode i) = 0 ∧ fieldHigh (encode i) = 0

theorem nop : Statement .nop := by
  have h := commandWord_fields
  simp [Statement, encode, Instr.opcode, h]

theorem dlw (u : BitVec 3) : Statement (.dlw u) := by
  have h := commandWord_fields
  simp [Statement, encode, Instr.opcode, h]

theorem dlrStep (u : BitVec 3) : Statement (.dlrStep u) := by
  have h := commandWord_fields
  simp [Statement, encode, Instr.opcode, h]

theorem dlrLinear (u : BitVec 3) : Statement (.dlrLinear u) := by
  have h := commandWord_fields
  simp [Statement, encode, Instr.opcode, h]

theorem dlrCosine (u : BitVec 3) : Statement (.dlrCosine u) := by
  have h := commandWord_fields
  simp [Statement, encode, Instr.opcode, h]

theorem dlrCubic (u : BitVec 3) : Statement (.dlrCubic u) := by
  have h := commandWord_fields
  simp [Statement, encode, Instr.opcode, h]

theorem dlrSpline (u : BitVec 3) : Statement (.dlrSpline u) := by
  have h := commandWord_fields
  simp [Statement, encode, Instr.opcode, h]

theorem opfHz (u : BitVec 3) : Statement (.opfHz u) := by
  have h := commandWord_fields
  simp [Statement, encode, Instr.opcode, h]

theorem opfLin (u : BitVec 3) : Statement (.opfLin u) := by
  have h := commandWord_fields
  simp [Statement, encode, Instr.opcode, h]

theorem apf (u : BitVec 3) : Statement (.apf u) := by
  have h := commandWord_fields
  simp [Statement, encode, Instr.opcode, h]

theorem phs : Statement .phs := by
  have h := commandWord_fields
  simp [Statement, encode, Instr.opcode, h]

theorem tapr (u : BitVec 3) : Statement (.tapr u) := by
  have h := commandWord_fields
  simp [Statement, encode, Instr.opcode, h]

theorem erc : Statement .erc := by
  have h := commandWord_fields
  simp [Statement, encode, Instr.opcode, h]

theorem sata : Statement .sata := by
  have h := commandWord_fields
  simp [Statement, encode, Instr.opcode, h]

theorem fdn : Statement .fdn := by
  have h := commandWord_fields
  simp [Statement, encode, Instr.opcode, h]

theorem cond : Statement .cond := by
  have h := commandWord_fields
  simp [Statement, encode, Instr.opcode, h]

theorem srst : Statement .srst := by
  have h := commandWord_fields
  simp [Statement, encode, Instr.opcode, h]

end Sys2Proof.Laws.EncodedFields
end

