-- ==== Sys2Proof/Laws/Decode.lean ====
section
/-! SUPPORT. The decoder (30_encoding.md R108): what an accepted word is like, and a word put together
again from its fields. -/

namespace Sys2Proof

/-- A word is made of its five fields (R101). -/
theorem word_of_fields (w : Word) :
    w = fieldHigh w ++ fieldMode w ++ fieldBit11 w ++ fieldUnit w ++ fieldOpc w := by
  apply BitVec.eq_of_getLsbD_eq
  intro i hi
  simp only [fieldOpc, fieldUnit, fieldMode, fieldBit11, fieldHigh, BitVec.getLsbD_append,
    BitVec.getLsbD_extractLsb']
  by_cases h1 : i < 8
  · simp [h1]
  by_cases h2 : i < 11
  · simp [h1, show i - 8 < 3 by omega, show 8 + (i - 8) = i by omega]
  by_cases h3 : i < 12
  · simp [h1, show ¬ i - 8 < 3 by omega, show i - 8 - 3 < 1 by omega,
      show 11 + (i - 8 - 3) = i by omega]
  by_cases h4 : i < 15
  · simp [h1, show ¬ i - 8 < 3 by omega, show ¬ i - 8 - 3 < 1 by omega,
      show i - 8 - 3 - 1 < 3 by omega, show 12 + (i - 8 - 3 - 1) = i by omega]
  · simp [h1, show ¬ i - 8 < 3 by omega, show ¬ i - 8 - 3 < 1 by omega,
      show ¬ i - 8 - 3 - 1 < 3 by omega, show i - 8 - 3 - 1 - 3 < 17 by omega,
      show 15 + (i - 8 - 3 - 1 - 3) = i by omega]

/-- A word whose reserved bits are 0 is the command word of its other fields (R113). -/
theorem word_of_legal_fields {w : Word} (h1 : fieldHigh w = 0) (h2 : fieldBit11 w = 0) :
    w = commandWord (fieldOpc w) (fieldUnit w) (fieldMode w) := by
  conv_lhs => rw [word_of_fields w, h1, h2]
  rfl

/-- What the decoder accepts: the reserved bits are 0, the opcode and mode select the command, and the
unit is in its range (R103, R108). -/
theorem decode_ok {w : Word} {i : Instr} (h : decode w = .ok i) :
    fieldHigh w = 0 ∧ fieldBit11 w = 0 ∧
      selectCommand (fieldOpc w) (fieldUnit w) (fieldMode w) = .ok i ∧
      unitLegal (fieldOpc w) (fieldUnit w) = true := by
  simp only [decode] at h
  split at h
  · cases h
  · rename_i hr
    have h1 : fieldHigh w = 0 := by by_contra hc; exact hr (.inl hc)
    have h2 : fieldBit11 w = 0 := by by_contra hc; exact hr (.inr hc)
    split at h
    · cases h
    · rename_i j hj
      split at h
      · cases h; exact ⟨h1, h2, hj, by assumption⟩
      · cases h

/-- What an opcode and a mode select: one of the rows of R102, with that opcode and mode. -/
theorem selectCommand_ok {opc : BitVec 8} {unit mode : BitVec 3} {i : Instr}
    (h : selectCommand opc unit mode = .ok i) :
    (unitLegal opc unit = true → i.wellFormed = true) ∧
      (unitLegal opc unit = true → encode i = commandWord opc unit mode) := by
  simp only [selectCommand] at h
  have ho : ∀ n, opc.toNat = n → opc = BitVec.ofNat 8 n := by
    rintro n rfl; simp
  have hm : ∀ n, mode.toNat = n → mode = BitVec.ofNat 3 n := by
    rintro n rfl; simp
  split at h
  all_goals first
    | (rename_i e1 e2
       cases h
       rw [ho _ e1, hm _ e2]
       refine ⟨fun hu => ?_, fun hu => ?_⟩ <;>
         simp_all [unitLegal, Instr.wellFormed, encode])
    | (split at h <;> cases h)

/-- The decoder answers legal commands only (R103). -/
theorem decode_wellFormed {w : Word} {i : Instr} (h : decode w = .ok i) : i.wellFormed = true := by
  obtain ⟨-, -, h3, h4⟩ := decode_ok h
  exact (selectCommand_ok h3).1 h4

end Sys2Proof
end

