-- ==== Sys2Proof/Laws/Memory.lean ====
section
/-! SUPPORT. The laws of the delay-line memories: every operation keeps the canonical form, a read after
a write to the same place gives the value written, and a write leaves every other place alone. -/

namespace Sys2Proof.Machine

/-- The lower bound of `Memory.wfAbove` as a proposition. -/
def aboveBound (lo : Option Nat) (a : Nat) : Prop := ∀ x, lo = some x → x < a

theorem wfAbove_cons {k : Nat} {b : Byte} {rest : Memory} {lo : Option Nat} :
    Memory.wfAbove ((k, b) :: rest) lo = true ↔
      aboveBound lo k ∧ b ≠ blankByte ∧ Memory.wfAbove rest (some k) = true := by
  cases lo <;> simp [Memory.wfAbove, aboveBound, and_assoc]

theorem readByte_le_bound {m : Memory} {lo a : Nat} (h : m.wfAbove (some lo) = true) (ha : a ≤ lo) :
    m.readByte a = blankByte := by
  cases m with
  | nil => rfl
  | cons c rest =>
    obtain ⟨k, b⟩ := c
    have hk := (wfAbove_cons.1 h).1 lo rfl
    simp [Memory.readByte, show a < k by omega]

theorem writeByte_wfAbove {m : Memory} {lo : Option Nat} {a : Nat} {v : Byte}
    (h : m.wfAbove lo = true) (ha : aboveBound lo a) : (m.writeByte a v).wfAbove lo = true := by
  induction m generalizing lo with
  | nil =>
    by_cases hv : v = blankByte
    · simp [Memory.writeByte, hv, Memory.wfAbove]
    · simp only [Memory.writeByte, hv, if_false]
      exact wfAbove_cons.2 ⟨ha, hv, rfl⟩
  | cons c rest ih =>
    obtain ⟨k, b⟩ := c
    obtain ⟨hk, hb, hr⟩ := wfAbove_cons.1 h
    have weaken : ∀ {r : Memory} {x : Nat}, r.wfAbove (some x) = true → aboveBound lo x →
        r.wfAbove lo = true := by
      intro r x hx hlo
      cases r with
      | nil => rfl
      | cons d r =>
        obtain ⟨j, w⟩ := d
        obtain ⟨h1, h2, h3⟩ := wfAbove_cons.1 hx
        refine wfAbove_cons.2 ⟨fun y hy => ?_, h2, h3⟩
        have := hlo y hy
        have := h1 x rfl
        omega
    simp only [Memory.writeByte]
    split
    · exact wfAbove_cons.2 ⟨hk, hb, ih hr (fun x hx => by cases hx; assumption)⟩
    · split
      · subst_vars
        split
        · exact weaken hr hk
        · exact wfAbove_cons.2 ⟨ha, by assumption, hr⟩
      · split
        · exact h
        · refine wfAbove_cons.2 ⟨ha, by assumption, wfAbove_cons.2 ⟨fun x hx => ?_, hb, hr⟩⟩
          cases hx; omega

/-- A byte store keeps the canonical form. -/
theorem writeByte_wf {m : Memory} (h : m.wf = true) (a : Nat) (v : Byte) :
    (m.writeByte a v).wf = true :=
  writeByte_wfAbove h (fun _ hx => by cases hx)

theorem readByte_writeByte_above {m : Memory} {lo : Option Nat} (h : m.wfAbove lo = true) (a : Nat)
    (v : Byte) (x : Nat) :
    (m.writeByte a v).readByte x = if x = a then v else m.readByte x := by
  induction m generalizing lo with
  | nil =>
    by_cases hv : v = blankByte
    · simp [Memory.writeByte, Memory.readByte, hv]
    · by_cases hx : x = a
      · simp [Memory.writeByte, hv, Memory.readByte, hx]
      · by_cases hlt : x < a
        · simp [Memory.writeByte, hv, Memory.readByte, hx, hlt]
        · simp [Memory.writeByte, hv, Memory.readByte, hx, hlt, Ne.symm hx]
  | cons c rest ih =>
    obtain ⟨k, b⟩ := c
    obtain ⟨-, -, hr⟩ := wfAbove_cons.1 h
    have low : x ≤ k → Memory.readByte rest x = blankByte := readByte_le_bound hr
    rcases Nat.lt_trichotomy k a with hka | hka | hka
    · simp only [Memory.writeByte, hka, if_true, Memory.readByte, ih hr]
      split_ifs <;> first | rfl | omega
    · subst hka
      by_cases hv : v = blankByte
      · simp only [Memory.writeByte, hv, lt_irrefl, if_false, if_true, Memory.readByte]
        split_ifs <;> first | rfl | omega | exact low (by omega)
      · simp only [Memory.writeByte, hv, lt_irrefl, if_false, if_true, Memory.readByte]
        split_ifs <;> first | rfl | omega
    · by_cases hv : v = blankByte
      · simp only [Memory.writeByte, hv, show ¬ k < a by omega, show k ≠ a by omega, if_false,
          if_true, Memory.readByte]
        split_ifs <;> first | rfl | omega
      · simp only [Memory.writeByte, hv, show ¬ k < a by omega, show k ≠ a by omega, if_false,
          Memory.readByte]
        split_ifs <;> first | rfl | omega

/-- Reading one byte after a byte store. -/
theorem readByte_writeByte {m : Memory} (h : m.wf = true) (a : Nat) (v : Byte) (x : Nat) :
    (m.writeByte a v).readByte x = if x = a then v else m.readByte x :=
  readByte_writeByte_above h a v x

/-- A byte store lists nothing at or above a bound that its address respects. -/
theorem writeByte_all_lt {m : Memory} {n a : Nat} {v : Byte} (ha : a < n)
    (h : m.all (fun cell => decide (cell.1 < n)) = true) :
    (m.writeByte a v).all (fun cell => decide (cell.1 < n)) = true := by
  induction m with
  | nil => by_cases hv : v = blankByte <;> simp [Memory.writeByte, hv, ha]
  | cons c rest ih =>
    obtain ⟨k, b⟩ := c
    simp only [List.all_cons, Bool.and_eq_true, decide_eq_true_eq] at h
    simp only [Memory.writeByte]
    split
    · simp [h.1, ih h.2]
    · split <;> split <;> simp [ha, h.1, h.2]

/-! ### Slots -/

/-- A slot write keeps the canonical form. -/
theorem writeSlot_wf {m : Memory} (h : m.wf = true) (j : Nat) (v : Word) :
    (m.writeSlot j v).wf = true :=
  writeByte_wf (writeByte_wf (writeByte_wf (writeByte_wf h _ _) _ _) _ _) _ _

/-- Reading one byte after a slot write: the four bytes of the slot hold the word, little-endian, and
every other byte is as before. -/
theorem readByte_writeSlot {m : Memory} (h : m.wf = true) (j : Nat) (v : Word) (x : Nat) :
    (m.writeSlot j v).readByte x =
      if x = 4 * j + 3 then v.extractLsb' 24 8
      else if x = 4 * j + 2 then v.extractLsb' 16 8
      else if x = 4 * j + 1 then v.extractLsb' 8 8
      else if x = 4 * j then v.extractLsb' 0 8
      else m.readByte x := by
  have h1 := writeByte_wf h (4 * j) (v.extractLsb' 0 8)
  have h2 := writeByte_wf h1 (4 * j + 1) (v.extractLsb' 8 8)
  have h3 := writeByte_wf h2 (4 * j + 2) (v.extractLsb' 16 8)
  rw [Memory.writeSlot, readByte_writeByte h3, readByte_writeByte h2, readByte_writeByte h1,
    readByte_writeByte h]

/-- A byte outside the slot written reads as before. -/
theorem readByte_writeSlot_other {m : Memory} (h : m.wf = true) {j : Nat} {v : Word} {x : Nat}
    (hx : x < 4 * j ∨ 4 * j + 3 < x) : (m.writeSlot j v).readByte x = m.readByte x := by
  rw [readByte_writeSlot h]
  simp [show x ≠ 4 * j + 3 by omega, show x ≠ 4 * j + 2 by omega, show x ≠ 4 * j + 1 by omega,
    show x ≠ 4 * j by omega]

/-- The bytes of a word, put together again. -/
theorem bytes_of_word (v : Word) :
    v.extractLsb' 24 8 ++ v.extractLsb' 16 8 ++ v.extractLsb' 8 8 ++ v.extractLsb' 0 8 = v := by
  ext i hi
  simp only [BitVec.getElem_append, BitVec.getElem_extractLsb']
  split
  · simp [BitVec.getLsbD_eq_getElem, hi]
  · split
    · rw [BitVec.getLsbD_eq_getElem (by omega)]; congr 1; omega
    · split
      · rw [BitVec.getLsbD_eq_getElem (by omega)]; congr 1; omega
      · rw [BitVec.getLsbD_eq_getElem (by omega)]; congr 1; omega

/-- `MemRead` after `MemWrite` (R62): the word written in its slot, every other slot unchanged. -/
theorem readSlot_writeSlot {m : Memory} (h : m.wf = true) (j : Nat) (v : Word) (i : Nat) :
    (m.writeSlot j v).readSlot i = if i = j then v else m.readSlot i := by
  by_cases hij : i = j
  · subst hij
    simp only [Memory.readSlot, readByte_writeSlot h, if_true]
    simp only [show 4 * i + 2 ≠ 4 * i + 3 by omega, show 4 * i + 1 ≠ 4 * i + 3 by omega,
      show 4 * i + 1 ≠ 4 * i + 2 by omega, show 4 * i ≠ 4 * i + 3 by omega,
      show 4 * i ≠ 4 * i + 2 by omega, show 4 * i ≠ 4 * i + 1 by omega, if_false]
    exact bytes_of_word v
  · simp only [Memory.readSlot, hij, if_false]
    rw [readByte_writeSlot_other h (by omega), readByte_writeSlot_other h (by omega),
      readByte_writeSlot_other h (by omega), readByte_writeSlot_other h (by omega)]

/-- A slot write inside the line lists nothing outside it. -/
theorem writeSlot_all_lt {m : Memory} {len j : Nat} {v : Word} (hj : j < len)
    (h : m.all (fun cell => decide (cell.1 < 4 * len)) = true) :
    (m.writeSlot j v).all (fun cell => decide (cell.1 < 4 * len)) = true :=
  writeByte_all_lt (by omega) (writeByte_all_lt (by omega) (writeByte_all_lt (by omega)
    (writeByte_all_lt (by omega) h)))

/-! ### Lines -/

theorem Line.wf_iff {l : Line} {len : Nat} :
    l.wf len = true ↔ l.mem.wf = true ∧
      l.mem.all (fun cell => decide (cell.1 < 4 * len)) = true ∧ l.cursor < len := by
  simp [Line.wf, and_assoc]

/-- A push keeps a line well formed. -/
theorem Line.push_wf {l : Line} {len : Nat} (h : l.wf len = true) (v : Word) :
    (l.push len v).wf len = true := by
  obtain ⟨h1, h2, h3⟩ := Line.wf_iff.1 h
  exact Line.wf_iff.2 ⟨writeSlot_wf h1 _ _, writeSlot_all_lt h3 h2, Nat.mod_lt _ (by omega)⟩

/-- The empty line is well formed when the line has a slot. -/
theorem Line.empty_wf {len : Nat} (h : 0 < len) : Line.empty.wf len = true := by
  simp [Line.wf, Line.empty, Memory.wf, Memory.wfAbove, h]

/-- The slot of a sample is inside the line. -/
theorem Line.slot_lt (l : Line) {len : Nat} (h : 0 < len) (n : Int) : l.slot len n < len := by
  have := Int.emod_lt_of_pos ((l.cursor : Int) - 1 - n) (show (0 : Int) < len by omega)
  have := Int.emod_nonneg ((l.cursor : Int) - 1 - n) (show (len : Int) ≠ 0 by omega)
  simp only [Line.slot]
  omega

/-- Sample addressing after a push (R130, R133): the newest sample is the value pushed, and every
older one of the line's `len` samples has moved one place back. -/
theorem Line.sample_push {l : Line} {len : Nat} (h : l.wf len = true) (v : Word) {n : Nat}
    (hn : n < len) :
    (l.push len v).sample len n = if n = 0 then v else l.sample len (n - 1) := by
  obtain ⟨hm, -, hc⟩ := Line.wf_iff.1 h
  have slot : (l.push len v).slot len n = if n = 0 then l.cursor else l.slot len (n - 1) := by
    have hlen : (len : Int) ≠ 0 := by omega
    have key : (((l.cursor + 1) % len : Nat) : Int) - 1 - (n : Int) ≡
        (l.cursor : Int) - n [ZMOD len] := by
      have : (((l.cursor + 1) % len : Nat) : Int) ≡ (l.cursor : Int) + 1 [ZMOD len] := by
        push_cast
        exact Int.mod_modEq _ _
      have := (this.sub_right 1).sub_right (n : Int)
      simpa using this
    by_cases h0 : n = 0
    · subst h0
      have e := Int.ModEq.eq key
      simp only [Line.slot, Line.push, if_true]
      simp only [Nat.cast_zero, sub_zero] at e ⊢
      rw [e, Int.emod_eq_of_lt (by omega) (by omega)]
      simp
    · simp only [h0, if_false, Line.slot, Line.push]
      have e := Int.ModEq.eq key
      have : (l.cursor : Int) - 1 - ((n : Int) - 1) = (l.cursor : Int) - n := by ring
      rw [this, e]
  rw [Line.sample, slot]
  simp only [Line.push, readSlot_writeSlot hm]
  by_cases h0 : n = 0
  · simp [h0]
  · have hne : l.slot len (n - 1) ≠ l.cursor := by
      intro he
      have hlen : (len : Int) ≠ 0 := by omega
      have h1 : (l.cursor : Int) - 1 - ((n : Int) - 1) = (l.cursor : Int) - n := by ring
      have h2 := Int.emod_nonneg ((l.cursor : Int) - n) hlen
      simp only [Line.slot, h1] at he
      by_cases hcn : n ≤ l.cursor
      · rw [Int.emod_eq_of_lt (by omega) (by omega)] at he
        omega
      · have : ((l.cursor : Int) - n) % len = (l.cursor : Int) - n + len := by
          rw [← Int.add_emod_right, Int.emod_eq_of_lt (by omega) (by omega)]
        omega
    simp [h0, hne, Line.sample]

end Sys2Proof.Machine
end

