-- ==== Sys2Proof/Laws/State.lean ====
section
/-! SUPPORT. The lemmas of the state updates: for each update and each field of `State`, what the field
holds afterwards, by rfl. No later proof unfolds a record update. -/

namespace Sys2Proof.Machine

/-! ### `State.dlWrite` -/

section

variable (s : State) (u : Fin 8) (v : Word)

@[simp] theorem State.dlWrite_cfg : (s.dlWrite u v).cfg = s.cfg := (rfl)
@[simp] theorem State.dlWrite_lines : (s.dlWrite u v).lines = s.lines.set u.val (s.lines[u].push (s.cfg.length u) v) := (rfl)
@[simp] theorem State.dlWrite_y : (s.dlWrite u v).y = s.y := (rfl)
@[simp] theorem State.dlWrite_phase : (s.dlWrite u v).phase = s.phase := (rfl)
@[simp] theorem State.dlWrite_gprev : (s.dlWrite u v).gprev = s.gprev := (rfl)
@[simp] theorem State.dlWrite_goff : (s.dlWrite u v).goff = s.goff := (rfl)
@[simp] theorem State.dlWrite_rng : (s.dlWrite u v).rng = s.rng := (rfl)
@[simp] theorem State.dlWrite_opr : (s.dlWrite u v).opr = s.opr := (rfl)
@[simp] theorem State.dlWrite_res0 : (s.dlWrite u v).res0 = s.res0 := (rfl)
@[simp] theorem State.dlWrite_res1 : (s.dlWrite u v).res1 = s.res1 := (rfl)
@[simp] theorem State.dlWrite_status : (s.dlWrite u v).status = s.status := (rfl)
@[simp] theorem State.dlWrite_irqen : (s.dlWrite u v).irqen = s.irqen := (rfl)
@[simp] theorem State.dlWrite_seq : (s.dlWrite u v).seq = s.seq := (rfl)
@[simp] theorem State.dlWrite_events : (s.dlWrite u v).events = s.events := (rfl)
@[simp] theorem State.dlWrite_rdata : (s.dlWrite u v).rdata = s.rdata := (rfl)
@[simp] theorem State.dlWrite_draws : (s.dlWrite u v).draws = s.draws := (rfl)

end

/-! ### `State.setY` -/

section

variable (s : State) (u : Fin 5) (v : Word)

@[simp] theorem State.setY_cfg : (s.setY u v).cfg = s.cfg := (rfl)
@[simp] theorem State.setY_lines : (s.setY u v).lines = s.lines := (rfl)
@[simp] theorem State.setY_y : (s.setY u v).y = s.y.set u.val v := (rfl)
@[simp] theorem State.setY_phase : (s.setY u v).phase = s.phase := (rfl)
@[simp] theorem State.setY_gprev : (s.setY u v).gprev = s.gprev := (rfl)
@[simp] theorem State.setY_goff : (s.setY u v).goff = s.goff := (rfl)
@[simp] theorem State.setY_rng : (s.setY u v).rng = s.rng := (rfl)
@[simp] theorem State.setY_opr : (s.setY u v).opr = s.opr := (rfl)
@[simp] theorem State.setY_res0 : (s.setY u v).res0 = s.res0 := (rfl)
@[simp] theorem State.setY_res1 : (s.setY u v).res1 = s.res1 := (rfl)
@[simp] theorem State.setY_status : (s.setY u v).status = s.status := (rfl)
@[simp] theorem State.setY_irqen : (s.setY u v).irqen = s.irqen := (rfl)
@[simp] theorem State.setY_seq : (s.setY u v).seq = s.seq := (rfl)
@[simp] theorem State.setY_events : (s.setY u v).events = s.events := (rfl)
@[simp] theorem State.setY_rdata : (s.setY u v).rdata = s.rdata := (rfl)
@[simp] theorem State.setY_draws : (s.setY u v).draws = s.draws := (rfl)

end

/-! ### `State.setPhase` -/

section

variable (s : State) (v : Word)

@[simp] theorem State.setPhase_cfg : (s.setPhase v).cfg = s.cfg := (rfl)
@[simp] theorem State.setPhase_lines : (s.setPhase v).lines = s.lines := (rfl)
@[simp] theorem State.setPhase_y : (s.setPhase v).y = s.y := (rfl)
@[simp] theorem State.setPhase_phase : (s.setPhase v).phase = v := (rfl)
@[simp] theorem State.setPhase_gprev : (s.setPhase v).gprev = s.gprev := (rfl)
@[simp] theorem State.setPhase_goff : (s.setPhase v).goff = s.goff := (rfl)
@[simp] theorem State.setPhase_rng : (s.setPhase v).rng = s.rng := (rfl)
@[simp] theorem State.setPhase_opr : (s.setPhase v).opr = s.opr := (rfl)
@[simp] theorem State.setPhase_res0 : (s.setPhase v).res0 = s.res0 := (rfl)
@[simp] theorem State.setPhase_res1 : (s.setPhase v).res1 = s.res1 := (rfl)
@[simp] theorem State.setPhase_status : (s.setPhase v).status = s.status := (rfl)
@[simp] theorem State.setPhase_irqen : (s.setPhase v).irqen = s.irqen := (rfl)
@[simp] theorem State.setPhase_seq : (s.setPhase v).seq = s.seq := (rfl)
@[simp] theorem State.setPhase_events : (s.setPhase v).events = s.events := (rfl)
@[simp] theorem State.setPhase_rdata : (s.setPhase v).rdata = s.rdata := (rfl)
@[simp] theorem State.setPhase_draws : (s.setPhase v).draws = s.draws := (rfl)

end

/-! ### `State.setGprev` -/

section

variable (s : State) (t : Fin 4) (k : Fin 2) (v : Word)

@[simp] theorem State.setGprev_cfg : (s.setGprev t k v).cfg = s.cfg := (rfl)
@[simp] theorem State.setGprev_lines : (s.setGprev t k v).lines = s.lines := (rfl)
@[simp] theorem State.setGprev_y : (s.setGprev t k v).y = s.y := (rfl)
@[simp] theorem State.setGprev_phase : (s.setGprev t k v).phase = s.phase := (rfl)
@[simp] theorem State.setGprev_gprev : (s.setGprev t k v).gprev = s.gprev.set (grainIndex t k).val v := (rfl)
@[simp] theorem State.setGprev_goff : (s.setGprev t k v).goff = s.goff := (rfl)
@[simp] theorem State.setGprev_rng : (s.setGprev t k v).rng = s.rng := (rfl)
@[simp] theorem State.setGprev_opr : (s.setGprev t k v).opr = s.opr := (rfl)
@[simp] theorem State.setGprev_res0 : (s.setGprev t k v).res0 = s.res0 := (rfl)
@[simp] theorem State.setGprev_res1 : (s.setGprev t k v).res1 = s.res1 := (rfl)
@[simp] theorem State.setGprev_status : (s.setGprev t k v).status = s.status := (rfl)
@[simp] theorem State.setGprev_irqen : (s.setGprev t k v).irqen = s.irqen := (rfl)
@[simp] theorem State.setGprev_seq : (s.setGprev t k v).seq = s.seq := (rfl)
@[simp] theorem State.setGprev_events : (s.setGprev t k v).events = s.events := (rfl)
@[simp] theorem State.setGprev_rdata : (s.setGprev t k v).rdata = s.rdata := (rfl)
@[simp] theorem State.setGprev_draws : (s.setGprev t k v).draws = s.draws := (rfl)

end

/-! ### `State.setGoff` -/

section

variable (s : State) (t : Fin 4) (k : Fin 2) (v : Word)

@[simp] theorem State.setGoff_cfg : (s.setGoff t k v).cfg = s.cfg := (rfl)
@[simp] theorem State.setGoff_lines : (s.setGoff t k v).lines = s.lines := (rfl)
@[simp] theorem State.setGoff_y : (s.setGoff t k v).y = s.y := (rfl)
@[simp] theorem State.setGoff_phase : (s.setGoff t k v).phase = s.phase := (rfl)
@[simp] theorem State.setGoff_gprev : (s.setGoff t k v).gprev = s.gprev := (rfl)
@[simp] theorem State.setGoff_goff : (s.setGoff t k v).goff = s.goff.set (grainIndex t k).val v := (rfl)
@[simp] theorem State.setGoff_rng : (s.setGoff t k v).rng = s.rng := (rfl)
@[simp] theorem State.setGoff_opr : (s.setGoff t k v).opr = s.opr := (rfl)
@[simp] theorem State.setGoff_res0 : (s.setGoff t k v).res0 = s.res0 := (rfl)
@[simp] theorem State.setGoff_res1 : (s.setGoff t k v).res1 = s.res1 := (rfl)
@[simp] theorem State.setGoff_status : (s.setGoff t k v).status = s.status := (rfl)
@[simp] theorem State.setGoff_irqen : (s.setGoff t k v).irqen = s.irqen := (rfl)
@[simp] theorem State.setGoff_seq : (s.setGoff t k v).seq = s.seq := (rfl)
@[simp] theorem State.setGoff_events : (s.setGoff t k v).events = s.events := (rfl)
@[simp] theorem State.setGoff_rdata : (s.setGoff t k v).rdata = s.rdata := (rfl)
@[simp] theorem State.setGoff_draws : (s.setGoff t k v).draws = s.draws := (rfl)

end

/-! ### `State.setRng` -/

section

variable (s : State) (v : Word)

@[simp] theorem State.setRng_cfg : (s.setRng v).cfg = s.cfg := (rfl)
@[simp] theorem State.setRng_lines : (s.setRng v).lines = s.lines := (rfl)
@[simp] theorem State.setRng_y : (s.setRng v).y = s.y := (rfl)
@[simp] theorem State.setRng_phase : (s.setRng v).phase = s.phase := (rfl)
@[simp] theorem State.setRng_gprev : (s.setRng v).gprev = s.gprev := (rfl)
@[simp] theorem State.setRng_goff : (s.setRng v).goff = s.goff := (rfl)
@[simp] theorem State.setRng_rng : (s.setRng v).rng = v := (rfl)
@[simp] theorem State.setRng_opr : (s.setRng v).opr = s.opr := (rfl)
@[simp] theorem State.setRng_res0 : (s.setRng v).res0 = s.res0 := (rfl)
@[simp] theorem State.setRng_res1 : (s.setRng v).res1 = s.res1 := (rfl)
@[simp] theorem State.setRng_status : (s.setRng v).status = s.status := (rfl)
@[simp] theorem State.setRng_irqen : (s.setRng v).irqen = s.irqen := (rfl)
@[simp] theorem State.setRng_seq : (s.setRng v).seq = s.seq := (rfl)
@[simp] theorem State.setRng_events : (s.setRng v).events = s.events := (rfl)
@[simp] theorem State.setRng_rdata : (s.setRng v).rdata = s.rdata := (rfl)
@[simp] theorem State.setRng_draws : (s.setRng v).draws = s.draws := (rfl)

end

/-! ### `State.setRes0` -/

section

variable (s : State) (v : Word)

@[simp] theorem State.setRes0_cfg : (s.setRes0 v).cfg = s.cfg := (rfl)
@[simp] theorem State.setRes0_lines : (s.setRes0 v).lines = s.lines := (rfl)
@[simp] theorem State.setRes0_y : (s.setRes0 v).y = s.y := (rfl)
@[simp] theorem State.setRes0_phase : (s.setRes0 v).phase = s.phase := (rfl)
@[simp] theorem State.setRes0_gprev : (s.setRes0 v).gprev = s.gprev := (rfl)
@[simp] theorem State.setRes0_goff : (s.setRes0 v).goff = s.goff := (rfl)
@[simp] theorem State.setRes0_rng : (s.setRes0 v).rng = s.rng := (rfl)
@[simp] theorem State.setRes0_opr : (s.setRes0 v).opr = s.opr := (rfl)
@[simp] theorem State.setRes0_res0 : (s.setRes0 v).res0 = v := (rfl)
@[simp] theorem State.setRes0_res1 : (s.setRes0 v).res1 = s.res1 := (rfl)
@[simp] theorem State.setRes0_status : (s.setRes0 v).status = s.status := (rfl)
@[simp] theorem State.setRes0_irqen : (s.setRes0 v).irqen = s.irqen := (rfl)
@[simp] theorem State.setRes0_seq : (s.setRes0 v).seq = s.seq := (rfl)
@[simp] theorem State.setRes0_events : (s.setRes0 v).events = s.events := (rfl)
@[simp] theorem State.setRes0_rdata : (s.setRes0 v).rdata = s.rdata := (rfl)
@[simp] theorem State.setRes0_draws : (s.setRes0 v).draws = s.draws := (rfl)

end

/-! ### `State.setRes` -/

section

variable (s : State) (v w : Word)

@[simp] theorem State.setRes_cfg : (s.setRes v w).cfg = s.cfg := (rfl)
@[simp] theorem State.setRes_lines : (s.setRes v w).lines = s.lines := (rfl)
@[simp] theorem State.setRes_y : (s.setRes v w).y = s.y := (rfl)
@[simp] theorem State.setRes_phase : (s.setRes v w).phase = s.phase := (rfl)
@[simp] theorem State.setRes_gprev : (s.setRes v w).gprev = s.gprev := (rfl)
@[simp] theorem State.setRes_goff : (s.setRes v w).goff = s.goff := (rfl)
@[simp] theorem State.setRes_rng : (s.setRes v w).rng = s.rng := (rfl)
@[simp] theorem State.setRes_opr : (s.setRes v w).opr = s.opr := (rfl)
@[simp] theorem State.setRes_res0 : (s.setRes v w).res0 = v := (rfl)
@[simp] theorem State.setRes_res1 : (s.setRes v w).res1 = w := (rfl)
@[simp] theorem State.setRes_status : (s.setRes v w).status = s.status := (rfl)
@[simp] theorem State.setRes_irqen : (s.setRes v w).irqen = s.irqen := (rfl)
@[simp] theorem State.setRes_seq : (s.setRes v w).seq = s.seq := (rfl)
@[simp] theorem State.setRes_events : (s.setRes v w).events = s.events := (rfl)
@[simp] theorem State.setRes_rdata : (s.setRes v w).rdata = s.rdata := (rfl)
@[simp] theorem State.setRes_draws : (s.setRes v w).draws = s.draws := (rfl)

end

/-! ### `State.complete` -/

section

variable (s : State) (c : Causes)

@[simp] theorem State.complete_cfg : (s.complete c).cfg = s.cfg := (rfl)
@[simp] theorem State.complete_lines : (s.complete c).lines = s.lines := (rfl)
@[simp] theorem State.complete_y : (s.complete c).y = s.y := (rfl)
@[simp] theorem State.complete_phase : (s.complete c).phase = s.phase := (rfl)
@[simp] theorem State.complete_gprev : (s.complete c).gprev = s.gprev := (rfl)
@[simp] theorem State.complete_goff : (s.complete c).goff = s.goff := (rfl)
@[simp] theorem State.complete_rng : (s.complete c).rng = s.rng := (rfl)
@[simp] theorem State.complete_opr : (s.complete c).opr = s.opr := (rfl)
@[simp] theorem State.complete_res0 : (s.complete c).res0 = s.res0 := (rfl)
@[simp] theorem State.complete_res1 : (s.complete c).res1 = s.res1 := (rfl)
@[simp] theorem State.complete_status : (s.complete c).status = s.status ||| c := (rfl)
@[simp] theorem State.complete_irqen : (s.complete c).irqen = s.irqen := (rfl)
@[simp] theorem State.complete_seq : (s.complete c).seq = .idle := (rfl)
@[simp] theorem State.complete_events : (s.complete c).events = s.events := (rfl)
@[simp] theorem State.complete_rdata : (s.complete c).rdata = s.rdata := (rfl)
@[simp] theorem State.complete_draws : (s.complete c).draws = s.draws := (rfl)

end

/-! ### `State.refuseCommand` -/

section

variable (s : State)

@[simp] theorem State.refuseCommand_cfg : s.refuseCommand.cfg = s.cfg := (rfl)
@[simp] theorem State.refuseCommand_lines : s.refuseCommand.lines = s.lines := (rfl)
@[simp] theorem State.refuseCommand_y : s.refuseCommand.y = s.y := (rfl)
@[simp] theorem State.refuseCommand_phase : s.refuseCommand.phase = s.phase := (rfl)
@[simp] theorem State.refuseCommand_gprev : s.refuseCommand.gprev = s.gprev := (rfl)
@[simp] theorem State.refuseCommand_goff : s.refuseCommand.goff = s.goff := (rfl)
@[simp] theorem State.refuseCommand_rng : s.refuseCommand.rng = s.rng := (rfl)
@[simp] theorem State.refuseCommand_opr : s.refuseCommand.opr = s.opr := (rfl)
@[simp] theorem State.refuseCommand_res0 : s.refuseCommand.res0 = s.res0 := (rfl)
@[simp] theorem State.refuseCommand_res1 : s.refuseCommand.res1 = s.res1 := (rfl)
@[simp] theorem State.refuseCommand_status : s.refuseCommand.status = s.status ||| causeBadcmd := (rfl)
@[simp] theorem State.refuseCommand_irqen : s.refuseCommand.irqen = s.irqen := (rfl)
@[simp] theorem State.refuseCommand_seq : s.refuseCommand.seq = .idle := (rfl)
@[simp] theorem State.refuseCommand_events : s.refuseCommand.events = s.events := (rfl)
@[simp] theorem State.refuseCommand_rdata : s.refuseCommand.rdata = s.rdata := (rfl)
@[simp] theorem State.refuseCommand_draws : s.refuseCommand.draws = s.draws := (rfl)

end

/-! ### `State.phStep` -/

section

variable (s : State) (f : Word)

@[simp] theorem State.phStep_cfg : (s.phStep f).cfg = s.cfg := (rfl)
@[simp] theorem State.phStep_lines : (s.phStep f).lines = s.lines := (rfl)
@[simp] theorem State.phStep_y : (s.phStep f).y = s.y := (rfl)
@[simp] theorem State.phStep_phase : (s.phStep f).phase = F32.frac1 (F32.add s.phase (F32.div f s.cfg.fs32)) := (rfl)
@[simp] theorem State.phStep_gprev : (s.phStep f).gprev = s.gprev := (rfl)
@[simp] theorem State.phStep_goff : (s.phStep f).goff = s.goff := (rfl)
@[simp] theorem State.phStep_rng : (s.phStep f).rng = s.rng := (rfl)
@[simp] theorem State.phStep_opr : (s.phStep f).opr = s.opr := (rfl)
@[simp] theorem State.phStep_res0 : (s.phStep f).res0 = s.res0 := (rfl)
@[simp] theorem State.phStep_res1 : (s.phStep f).res1 = s.res1 := (rfl)
@[simp] theorem State.phStep_status : (s.phStep f).status = s.status := (rfl)
@[simp] theorem State.phStep_irqen : (s.phStep f).irqen = s.irqen := (rfl)
@[simp] theorem State.phStep_seq : (s.phStep f).seq = s.seq := (rfl)
@[simp] theorem State.phStep_events : (s.phStep f).events = s.events := (rfl)
@[simp] theorem State.phStep_rdata : (s.phStep f).rdata = s.rdata := (rfl)
@[simp] theorem State.phStep_draws : (s.phStep f).draws = s.draws := (rfl)

end

/-! ### `State.opStep` -/

section

variable (s : State) (u : Fin 5) (x c : Word)

@[simp] theorem State.opStep_cfg : (s.opStep u x c).cfg = s.cfg := (rfl)
@[simp] theorem State.opStep_lines : (s.opStep u x c).lines = s.lines := (rfl)
@[simp] theorem State.opStep_y : (s.opStep u x c).y = s.y.set u.val (onePole s.y[u] x c) := (rfl)
@[simp] theorem State.opStep_phase : (s.opStep u x c).phase = s.phase := (rfl)
@[simp] theorem State.opStep_gprev : (s.opStep u x c).gprev = s.gprev := (rfl)
@[simp] theorem State.opStep_goff : (s.opStep u x c).goff = s.goff := (rfl)
@[simp] theorem State.opStep_rng : (s.opStep u x c).rng = s.rng := (rfl)
@[simp] theorem State.opStep_opr : (s.opStep u x c).opr = s.opr := (rfl)
@[simp] theorem State.opStep_res0 : (s.opStep u x c).res0 = s.res0 := (rfl)
@[simp] theorem State.opStep_res1 : (s.opStep u x c).res1 = s.res1 := (rfl)
@[simp] theorem State.opStep_status : (s.opStep u x c).status = s.status := (rfl)
@[simp] theorem State.opStep_irqen : (s.opStep u x c).irqen = s.irqen := (rfl)
@[simp] theorem State.opStep_seq : (s.opStep u x c).seq = s.seq := (rfl)
@[simp] theorem State.opStep_events : (s.opStep u x c).events = s.events := (rfl)
@[simp] theorem State.opStep_rdata : (s.opStep u x c).rdata = s.rdata := (rfl)
@[simp] theorem State.opStep_draws : (s.opStep u x c).draws = s.draws := (rfl)

end

/-! ### `State.opHz` -/

section

variable (s : State) (u : Fin 5) (x f : Word)

@[simp] theorem State.opHz_cfg : (s.opHz u x f).cfg = s.cfg := (rfl)
@[simp] theorem State.opHz_lines : (s.opHz u x f).lines = s.lines := (rfl)
@[simp] theorem State.opHz_y : (s.opHz u x f).y = s.y.set u.val (onePole s.y[u] x (hertzCoefficient s.cfg f)) := (rfl)
@[simp] theorem State.opHz_phase : (s.opHz u x f).phase = s.phase := (rfl)
@[simp] theorem State.opHz_gprev : (s.opHz u x f).gprev = s.gprev := (rfl)
@[simp] theorem State.opHz_goff : (s.opHz u x f).goff = s.goff := (rfl)
@[simp] theorem State.opHz_rng : (s.opHz u x f).rng = s.rng := (rfl)
@[simp] theorem State.opHz_opr : (s.opHz u x f).opr = s.opr := (rfl)
@[simp] theorem State.opHz_res0 : (s.opHz u x f).res0 = s.res0 := (rfl)
@[simp] theorem State.opHz_res1 : (s.opHz u x f).res1 = s.res1 := (rfl)
@[simp] theorem State.opHz_status : (s.opHz u x f).status = s.status := (rfl)
@[simp] theorem State.opHz_irqen : (s.opHz u x f).irqen = s.irqen := (rfl)
@[simp] theorem State.opHz_seq : (s.opHz u x f).seq = s.seq := (rfl)
@[simp] theorem State.opHz_events : (s.opHz u x f).events = s.events := (rfl)
@[simp] theorem State.opHz_rdata : (s.opHz u x f).rdata = s.rdata := (rfl)
@[simp] theorem State.opHz_draws : (s.opHz u x f).draws = s.draws := (rfl)

end

/-! ### `State.opLin` -/

section

variable (s : State) (u : Fin 5) (x v : Word)

@[simp] theorem State.opLin_cfg : (s.opLin u x v).cfg = s.cfg := (rfl)
@[simp] theorem State.opLin_lines : (s.opLin u x v).lines = s.lines := (rfl)
@[simp] theorem State.opLin_y : (s.opLin u x v).y = s.y.set u.val (onePole s.y[u] x (linearCoefficient v)) := (rfl)
@[simp] theorem State.opLin_phase : (s.opLin u x v).phase = s.phase := (rfl)
@[simp] theorem State.opLin_gprev : (s.opLin u x v).gprev = s.gprev := (rfl)
@[simp] theorem State.opLin_goff : (s.opLin u x v).goff = s.goff := (rfl)
@[simp] theorem State.opLin_rng : (s.opLin u x v).rng = s.rng := (rfl)
@[simp] theorem State.opLin_opr : (s.opLin u x v).opr = s.opr := (rfl)
@[simp] theorem State.opLin_res0 : (s.opLin u x v).res0 = s.res0 := (rfl)
@[simp] theorem State.opLin_res1 : (s.opLin u x v).res1 = s.res1 := (rfl)
@[simp] theorem State.opLin_status : (s.opLin u x v).status = s.status := (rfl)
@[simp] theorem State.opLin_irqen : (s.opLin u x v).irqen = s.irqen := (rfl)
@[simp] theorem State.opLin_seq : (s.opLin u x v).seq = s.seq := (rfl)
@[simp] theorem State.opLin_events : (s.opLin u x v).events = s.events := (rfl)
@[simp] theorem State.opLin_rdata : (s.opLin u x v).rdata = s.rdata := (rfl)
@[simp] theorem State.opLin_draws : (s.opLin u x v).draws = s.draws := (rfl)

end

/-! ### `State.resultY` -/

section

variable (s : State) (u : Fin 5)

@[simp] theorem State.resultY_cfg : (s.resultY u).cfg = s.cfg := (rfl)
@[simp] theorem State.resultY_lines : (s.resultY u).lines = s.lines := (rfl)
@[simp] theorem State.resultY_y : (s.resultY u).y = s.y := (rfl)
@[simp] theorem State.resultY_phase : (s.resultY u).phase = s.phase := (rfl)
@[simp] theorem State.resultY_gprev : (s.resultY u).gprev = s.gprev := (rfl)
@[simp] theorem State.resultY_goff : (s.resultY u).goff = s.goff := (rfl)
@[simp] theorem State.resultY_rng : (s.resultY u).rng = s.rng := (rfl)
@[simp] theorem State.resultY_opr : (s.resultY u).opr = s.opr := (rfl)
@[simp] theorem State.resultY_res0 : (s.resultY u).res0 = s.y[u] := (rfl)
@[simp] theorem State.resultY_res1 : (s.resultY u).res1 = s.res1 := (rfl)
@[simp] theorem State.resultY_status : (s.resultY u).status = s.status := (rfl)
@[simp] theorem State.resultY_irqen : (s.resultY u).irqen = s.irqen := (rfl)
@[simp] theorem State.resultY_seq : (s.resultY u).seq = s.seq := (rfl)
@[simp] theorem State.resultY_events : (s.resultY u).events = s.events := (rfl)
@[simp] theorem State.resultY_rdata : (s.resultY u).rdata = s.rdata := (rfl)
@[simp] theorem State.resultY_draws : (s.resultY u).draws = s.draws := (rfl)

end

/-! ### `State.satProcess` -/

section

variable (s : State) (a : Word)

@[simp] theorem State.satProcess_cfg : (s.satProcess a).cfg = s.cfg := (rfl)
@[simp] theorem State.satProcess_lines : (s.satProcess a).lines = s.lines := (rfl)
@[simp] theorem State.satProcess_y : (s.satProcess a).y = s.y.set 4 (onePole s.y[4] (gateTarget s.cfg a) (hertzCoefficient s.cfg (F32.ofDec s.cfg.satCutoffHz))) := (rfl)
@[simp] theorem State.satProcess_phase : (s.satProcess a).phase = s.phase := (rfl)
@[simp] theorem State.satProcess_gprev : (s.satProcess a).gprev = s.gprev := (rfl)
@[simp] theorem State.satProcess_goff : (s.satProcess a).goff = s.goff := (rfl)
@[simp] theorem State.satProcess_rng : (s.satProcess a).rng = s.rng := (rfl)
@[simp] theorem State.satProcess_opr : (s.satProcess a).opr = s.opr := (rfl)
@[simp] theorem State.satProcess_res0 : (s.satProcess a).res0 = s.res0 := (rfl)
@[simp] theorem State.satProcess_res1 : (s.satProcess a).res1 = s.res1 := (rfl)
@[simp] theorem State.satProcess_status : (s.satProcess a).status = s.status := (rfl)
@[simp] theorem State.satProcess_irqen : (s.satProcess a).irqen = s.irqen := (rfl)
@[simp] theorem State.satProcess_seq : (s.satProcess a).seq = s.seq := (rfl)
@[simp] theorem State.satProcess_events : (s.satProcess a).events = s.events := (rfl)
@[simp] theorem State.satProcess_rdata : (s.satProcess a).rdata = s.rdata := (rfl)
@[simp] theorem State.satProcess_draws : (s.satProcess a).draws = s.draws := (rfl)

end

/-! ### `State.clearSignal` -/

section

variable (s : State)

@[simp] theorem State.clearSignal_cfg : s.clearSignal.cfg = s.cfg := (rfl)
@[simp] theorem State.clearSignal_lines : s.clearSignal.lines = Vector.replicate 8 Line.empty := (rfl)
@[simp] theorem State.clearSignal_y : s.clearSignal.y = Vector.replicate 5 F32.zero := (rfl)
@[simp] theorem State.clearSignal_phase : s.clearSignal.phase = F32.zero := (rfl)
@[simp] theorem State.clearSignal_gprev : s.clearSignal.gprev = Vector.replicate 8 F32.zero := (rfl)
@[simp] theorem State.clearSignal_goff : s.clearSignal.goff = Vector.replicate 8 F32.zero := (rfl)
@[simp] theorem State.clearSignal_rng : s.clearSignal.rng = s.cfg.rngSeed := (rfl)
@[simp] theorem State.clearSignal_opr : s.clearSignal.opr = s.opr := (rfl)
@[simp] theorem State.clearSignal_res0 : s.clearSignal.res0 = F32.zero := (rfl)
@[simp] theorem State.clearSignal_res1 : s.clearSignal.res1 = F32.zero := (rfl)
@[simp] theorem State.clearSignal_status : s.clearSignal.status = s.status := (rfl)
@[simp] theorem State.clearSignal_irqen : s.clearSignal.irqen = s.irqen := (rfl)
@[simp] theorem State.clearSignal_seq : s.clearSignal.seq = s.seq := (rfl)
@[simp] theorem State.clearSignal_events : s.clearSignal.events = s.events := (rfl)
@[simp] theorem State.clearSignal_rdata : s.clearSignal.rdata = s.rdata := (rfl)
@[simp] theorem State.clearSignal_draws : s.clearSignal.draws = s.draws := (rfl)

end

/-! ### `State.accept` -/

section

variable (s : State) (w : Word)

@[simp] theorem State.accept_cfg : (s.accept w).cfg = s.cfg := (rfl)
@[simp] theorem State.accept_lines : (s.accept w).lines = s.lines := (rfl)
@[simp] theorem State.accept_y : (s.accept w).y = s.y := (rfl)
@[simp] theorem State.accept_phase : (s.accept w).phase = s.phase := (rfl)
@[simp] theorem State.accept_gprev : (s.accept w).gprev = s.gprev := (rfl)
@[simp] theorem State.accept_goff : (s.accept w).goff = s.goff := (rfl)
@[simp] theorem State.accept_rng : (s.accept w).rng = s.rng := (rfl)
@[simp] theorem State.accept_opr : (s.accept w).opr = s.opr := (rfl)
@[simp] theorem State.accept_res0 : (s.accept w).res0 = s.res0 := (rfl)
@[simp] theorem State.accept_res1 : (s.accept w).res1 = s.res1 := (rfl)
@[simp] theorem State.accept_status : (s.accept w).status = s.status := (rfl)
@[simp] theorem State.accept_irqen : (s.accept w).irqen = s.irqen := (rfl)
@[simp] theorem State.accept_seq : (s.accept w).seq = .running (decode w).toOption := (rfl)
@[simp] theorem State.accept_events : (s.accept w).events = s.events := (rfl)
@[simp] theorem State.accept_rdata : (s.accept w).rdata = s.rdata := (rfl)
@[simp] theorem State.accept_draws : (s.accept w).draws = s.draws := (rfl)

end

/-! ### `State.clearFlags` -/

section

variable (s : State) (v : Word)

@[simp] theorem State.clearFlags_cfg : (s.clearFlags v).cfg = s.cfg := (rfl)
@[simp] theorem State.clearFlags_lines : (s.clearFlags v).lines = s.lines := (rfl)
@[simp] theorem State.clearFlags_y : (s.clearFlags v).y = s.y := (rfl)
@[simp] theorem State.clearFlags_phase : (s.clearFlags v).phase = s.phase := (rfl)
@[simp] theorem State.clearFlags_gprev : (s.clearFlags v).gprev = s.gprev := (rfl)
@[simp] theorem State.clearFlags_goff : (s.clearFlags v).goff = s.goff := (rfl)
@[simp] theorem State.clearFlags_rng : (s.clearFlags v).rng = s.rng := (rfl)
@[simp] theorem State.clearFlags_opr : (s.clearFlags v).opr = s.opr := (rfl)
@[simp] theorem State.clearFlags_res0 : (s.clearFlags v).res0 = s.res0 := (rfl)
@[simp] theorem State.clearFlags_res1 : (s.clearFlags v).res1 = s.res1 := (rfl)
@[simp] theorem State.clearFlags_status : (s.clearFlags v).status = s.status &&& ~~~(v.setWidth 5) := (rfl)
@[simp] theorem State.clearFlags_irqen : (s.clearFlags v).irqen = s.irqen := (rfl)
@[simp] theorem State.clearFlags_seq : (s.clearFlags v).seq = s.seq := (rfl)
@[simp] theorem State.clearFlags_events : (s.clearFlags v).events = s.events := (rfl)
@[simp] theorem State.clearFlags_rdata : (s.clearFlags v).rdata = s.rdata := (rfl)
@[simp] theorem State.clearFlags_draws : (s.clearFlags v).draws = s.draws := (rfl)

end

/-! ### `State.writeIrqen` -/

section

variable (s : State) (v : Word)

@[simp] theorem State.writeIrqen_cfg : (s.writeIrqen v).cfg = s.cfg := (rfl)
@[simp] theorem State.writeIrqen_lines : (s.writeIrqen v).lines = s.lines := (rfl)
@[simp] theorem State.writeIrqen_y : (s.writeIrqen v).y = s.y := (rfl)
@[simp] theorem State.writeIrqen_phase : (s.writeIrqen v).phase = s.phase := (rfl)
@[simp] theorem State.writeIrqen_gprev : (s.writeIrqen v).gprev = s.gprev := (rfl)
@[simp] theorem State.writeIrqen_goff : (s.writeIrqen v).goff = s.goff := (rfl)
@[simp] theorem State.writeIrqen_rng : (s.writeIrqen v).rng = s.rng := (rfl)
@[simp] theorem State.writeIrqen_opr : (s.writeIrqen v).opr = s.opr := (rfl)
@[simp] theorem State.writeIrqen_res0 : (s.writeIrqen v).res0 = s.res0 := (rfl)
@[simp] theorem State.writeIrqen_res1 : (s.writeIrqen v).res1 = s.res1 := (rfl)
@[simp] theorem State.writeIrqen_status : (s.writeIrqen v).status = s.status := (rfl)
@[simp] theorem State.writeIrqen_irqen : (s.writeIrqen v).irqen = v.setWidth 5 := (rfl)
@[simp] theorem State.writeIrqen_seq : (s.writeIrqen v).seq = s.seq := (rfl)
@[simp] theorem State.writeIrqen_events : (s.writeIrqen v).events = s.events := (rfl)
@[simp] theorem State.writeIrqen_rdata : (s.writeIrqen v).rdata = s.rdata := (rfl)
@[simp] theorem State.writeIrqen_draws : (s.writeIrqen v).draws = s.draws := (rfl)

end

/-! ### `State.writeRng` -/

section

variable (s : State) (v : Word)

@[simp] theorem State.writeRng_cfg : (s.writeRng v).cfg = s.cfg := (rfl)
@[simp] theorem State.writeRng_lines : (s.writeRng v).lines = s.lines := (rfl)
@[simp] theorem State.writeRng_y : (s.writeRng v).y = s.y := (rfl)
@[simp] theorem State.writeRng_phase : (s.writeRng v).phase = s.phase := (rfl)
@[simp] theorem State.writeRng_gprev : (s.writeRng v).gprev = s.gprev := (rfl)
@[simp] theorem State.writeRng_goff : (s.writeRng v).goff = s.goff := (rfl)
@[simp] theorem State.writeRng_rng : (s.writeRng v).rng = if v = 0 then s.cfg.rngSeed else v := (rfl)
@[simp] theorem State.writeRng_opr : (s.writeRng v).opr = s.opr := (rfl)
@[simp] theorem State.writeRng_res0 : (s.writeRng v).res0 = s.res0 := (rfl)
@[simp] theorem State.writeRng_res1 : (s.writeRng v).res1 = s.res1 := (rfl)
@[simp] theorem State.writeRng_status : (s.writeRng v).status = s.status := (rfl)
@[simp] theorem State.writeRng_irqen : (s.writeRng v).irqen = s.irqen := (rfl)
@[simp] theorem State.writeRng_seq : (s.writeRng v).seq = s.seq := (rfl)
@[simp] theorem State.writeRng_events : (s.writeRng v).events = s.events := (rfl)
@[simp] theorem State.writeRng_rdata : (s.writeRng v).rdata = s.rdata := (rfl)
@[simp] theorem State.writeRng_draws : (s.writeRng v).draws = s.draws := (rfl)

end

/-! ### `State.writeOpr` -/

section

variable (s : State) (i : Fin 8) (v : Word)

@[simp] theorem State.writeOpr_cfg : (s.writeOpr i v).cfg = s.cfg := (rfl)
@[simp] theorem State.writeOpr_lines : (s.writeOpr i v).lines = s.lines := (rfl)
@[simp] theorem State.writeOpr_y : (s.writeOpr i v).y = s.y := (rfl)
@[simp] theorem State.writeOpr_phase : (s.writeOpr i v).phase = s.phase := (rfl)
@[simp] theorem State.writeOpr_gprev : (s.writeOpr i v).gprev = s.gprev := (rfl)
@[simp] theorem State.writeOpr_goff : (s.writeOpr i v).goff = s.goff := (rfl)
@[simp] theorem State.writeOpr_rng : (s.writeOpr i v).rng = s.rng := (rfl)
@[simp] theorem State.writeOpr_opr : (s.writeOpr i v).opr = s.opr.set i.val v := (rfl)
@[simp] theorem State.writeOpr_res0 : (s.writeOpr i v).res0 = s.res0 := (rfl)
@[simp] theorem State.writeOpr_res1 : (s.writeOpr i v).res1 = s.res1 := (rfl)
@[simp] theorem State.writeOpr_status : (s.writeOpr i v).status = s.status := (rfl)
@[simp] theorem State.writeOpr_irqen : (s.writeOpr i v).irqen = s.irqen := (rfl)
@[simp] theorem State.writeOpr_seq : (s.writeOpr i v).seq = s.seq := (rfl)
@[simp] theorem State.writeOpr_events : (s.writeOpr i v).events = s.events := (rfl)
@[simp] theorem State.writeOpr_rdata : (s.writeOpr i v).rdata = s.rdata := (rfl)
@[simp] theorem State.writeOpr_draws : (s.writeOpr i v).draws = s.draws := (rfl)

end

/-! ### `State.overrun` -/

section

variable (s : State)

@[simp] theorem State.overrun_cfg : s.overrun.cfg = s.cfg := (rfl)
@[simp] theorem State.overrun_lines : s.overrun.lines = s.lines := (rfl)
@[simp] theorem State.overrun_y : s.overrun.y = s.y := (rfl)
@[simp] theorem State.overrun_phase : s.overrun.phase = s.phase := (rfl)
@[simp] theorem State.overrun_gprev : s.overrun.gprev = s.gprev := (rfl)
@[simp] theorem State.overrun_goff : s.overrun.goff = s.goff := (rfl)
@[simp] theorem State.overrun_rng : s.overrun.rng = s.rng := (rfl)
@[simp] theorem State.overrun_opr : s.overrun.opr = s.opr := (rfl)
@[simp] theorem State.overrun_res0 : s.overrun.res0 = s.res0 := (rfl)
@[simp] theorem State.overrun_res1 : s.overrun.res1 = s.res1 := (rfl)
@[simp] theorem State.overrun_status : s.overrun.status = s.status ||| causeOverrun := (rfl)
@[simp] theorem State.overrun_irqen : s.overrun.irqen = s.irqen := (rfl)
@[simp] theorem State.overrun_seq : s.overrun.seq = s.seq := (rfl)
@[simp] theorem State.overrun_events : s.overrun.events = s.events := (rfl)
@[simp] theorem State.overrun_rdata : s.overrun.rdata = s.rdata := (rfl)
@[simp] theorem State.overrun_draws : s.overrun.draws = s.draws := (rfl)

end

/-! ### `State.assertReset` -/

section

variable (s : State)

@[simp] theorem State.assertReset_cfg : s.assertReset.cfg = s.cfg := (rfl)
@[simp] theorem State.assertReset_lines : s.assertReset.lines = s.lines := (rfl)
@[simp] theorem State.assertReset_y : s.assertReset.y = s.y := (rfl)
@[simp] theorem State.assertReset_phase : s.assertReset.phase = s.phase := (rfl)
@[simp] theorem State.assertReset_gprev : s.assertReset.gprev = s.gprev := (rfl)
@[simp] theorem State.assertReset_goff : s.assertReset.goff = s.goff := (rfl)
@[simp] theorem State.assertReset_rng : s.assertReset.rng = s.rng := (rfl)
@[simp] theorem State.assertReset_opr : s.assertReset.opr = s.opr := (rfl)
@[simp] theorem State.assertReset_res0 : s.assertReset.res0 = s.res0 := (rfl)
@[simp] theorem State.assertReset_res1 : s.assertReset.res1 = s.res1 := (rfl)
@[simp] theorem State.assertReset_status : s.assertReset.status = s.status := (rfl)
@[simp] theorem State.assertReset_irqen : s.assertReset.irqen = s.irqen := (rfl)
@[simp] theorem State.assertReset_seq : s.assertReset.seq = .resetting := (rfl)
@[simp] theorem State.assertReset_events : s.assertReset.events = s.events := (rfl)
@[simp] theorem State.assertReset_rdata : s.assertReset.rdata = s.rdata := (rfl)
@[simp] theorem State.assertReset_draws : s.assertReset.draws = s.draws := (rfl)

end

/-! ### `State.finishReset` -/

section

variable (s : State)

@[simp] theorem State.finishReset_cfg : s.finishReset.cfg = s.cfg := (rfl)
@[simp] theorem State.finishReset_lines : s.finishReset.lines = Vector.replicate 8 Line.empty := (rfl)
@[simp] theorem State.finishReset_y : s.finishReset.y = Vector.replicate 5 F32.zero := (rfl)
@[simp] theorem State.finishReset_phase : s.finishReset.phase = F32.zero := (rfl)
@[simp] theorem State.finishReset_gprev : s.finishReset.gprev = Vector.replicate 8 F32.zero := (rfl)
@[simp] theorem State.finishReset_goff : s.finishReset.goff = Vector.replicate 8 F32.zero := (rfl)
@[simp] theorem State.finishReset_rng : s.finishReset.rng = s.cfg.rngSeed := (rfl)
@[simp] theorem State.finishReset_opr : s.finishReset.opr = Vector.replicate 8 0 := (rfl)
@[simp] theorem State.finishReset_res0 : s.finishReset.res0 = 0 := (rfl)
@[simp] theorem State.finishReset_res1 : s.finishReset.res1 = 0 := (rfl)
@[simp] theorem State.finishReset_status : s.finishReset.status = 0 := (rfl)
@[simp] theorem State.finishReset_irqen : s.finishReset.irqen = 0 := (rfl)
@[simp] theorem State.finishReset_seq : s.finishReset.seq = .idle := (rfl)
@[simp] theorem State.finishReset_events : s.finishReset.events = s.events := (rfl)
@[simp] theorem State.finishReset_rdata : s.finishReset.rdata = s.rdata := (rfl)
@[simp] theorem State.finishReset_draws : s.finishReset.draws = s.draws := (rfl)

end

/-! ### `State.takeEvent` -/

section

variable (s : State) (rest : List PortEvent)

@[simp] theorem State.takeEvent_cfg : (s.takeEvent rest).cfg = s.cfg := (rfl)
@[simp] theorem State.takeEvent_lines : (s.takeEvent rest).lines = s.lines := (rfl)
@[simp] theorem State.takeEvent_y : (s.takeEvent rest).y = s.y := (rfl)
@[simp] theorem State.takeEvent_phase : (s.takeEvent rest).phase = s.phase := (rfl)
@[simp] theorem State.takeEvent_gprev : (s.takeEvent rest).gprev = s.gprev := (rfl)
@[simp] theorem State.takeEvent_goff : (s.takeEvent rest).goff = s.goff := (rfl)
@[simp] theorem State.takeEvent_rng : (s.takeEvent rest).rng = s.rng := (rfl)
@[simp] theorem State.takeEvent_opr : (s.takeEvent rest).opr = s.opr := (rfl)
@[simp] theorem State.takeEvent_res0 : (s.takeEvent rest).res0 = s.res0 := (rfl)
@[simp] theorem State.takeEvent_res1 : (s.takeEvent rest).res1 = s.res1 := (rfl)
@[simp] theorem State.takeEvent_status : (s.takeEvent rest).status = s.status := (rfl)
@[simp] theorem State.takeEvent_irqen : (s.takeEvent rest).irqen = s.irqen := (rfl)
@[simp] theorem State.takeEvent_seq : (s.takeEvent rest).seq = s.seq := (rfl)
@[simp] theorem State.takeEvent_events : (s.takeEvent rest).events = rest := (rfl)
@[simp] theorem State.takeEvent_rdata : (s.takeEvent rest).rdata = s.rdata := (rfl)
@[simp] theorem State.takeEvent_draws : (s.takeEvent rest).draws = s.draws := (rfl)

end

/-! ### `State.acceptNow` -/

section

variable (s : State) (w : Word)

@[simp] theorem State.acceptNow_cfg : (s.acceptNow w).cfg = s.cfg := (rfl)
@[simp] theorem State.acceptNow_lines : (s.acceptNow w).lines = s.lines := (rfl)
@[simp] theorem State.acceptNow_y : (s.acceptNow w).y = s.y := (rfl)
@[simp] theorem State.acceptNow_phase : (s.acceptNow w).phase = s.phase := (rfl)
@[simp] theorem State.acceptNow_gprev : (s.acceptNow w).gprev = s.gprev := (rfl)
@[simp] theorem State.acceptNow_goff : (s.acceptNow w).goff = s.goff := (rfl)
@[simp] theorem State.acceptNow_rng : (s.acceptNow w).rng = s.rng := (rfl)
@[simp] theorem State.acceptNow_opr : (s.acceptNow w).opr = s.opr := (rfl)
@[simp] theorem State.acceptNow_res0 : (s.acceptNow w).res0 = s.res0 := (rfl)
@[simp] theorem State.acceptNow_res1 : (s.acceptNow w).res1 = s.res1 := (rfl)
@[simp] theorem State.acceptNow_status : (s.acceptNow w).status = s.status := (rfl)
@[simp] theorem State.acceptNow_irqen : (s.acceptNow w).irqen = s.irqen := (rfl)
@[simp] theorem State.acceptNow_seq : (s.acceptNow w).seq = .running (decode w).toOption := (rfl)
@[simp] theorem State.acceptNow_events : (s.acceptNow w).events = .wait :: s.events := (rfl)
@[simp] theorem State.acceptNow_rdata : (s.acceptNow w).rdata = s.rdata := (rfl)
@[simp] theorem State.acceptNow_draws : (s.acceptNow w).draws = s.draws := (rfl)

end

/-! ### `State.resetWith` (R340) -/

section

variable (c : Config)

@[simp] theorem State.resetWith_cfg : (State.resetWith c).cfg = c := (rfl)
@[simp] theorem State.resetWith_lines : (State.resetWith c).lines = Vector.replicate 8 Line.empty := (rfl)
@[simp] theorem State.resetWith_y : (State.resetWith c).y = Vector.replicate 5 F32.zero := (rfl)
@[simp] theorem State.resetWith_phase : (State.resetWith c).phase = F32.zero := (rfl)
@[simp] theorem State.resetWith_gprev : (State.resetWith c).gprev = Vector.replicate 8 F32.zero := (rfl)
@[simp] theorem State.resetWith_goff : (State.resetWith c).goff = Vector.replicate 8 F32.zero := (rfl)
@[simp] theorem State.resetWith_rng : (State.resetWith c).rng = c.rngSeed := (rfl)
@[simp] theorem State.resetWith_opr : (State.resetWith c).opr = Vector.replicate 8 0 := (rfl)
@[simp] theorem State.resetWith_res0 : (State.resetWith c).res0 = 0 := (rfl)
@[simp] theorem State.resetWith_res1 : (State.resetWith c).res1 = 0 := (rfl)
@[simp] theorem State.resetWith_status : (State.resetWith c).status = 0 := (rfl)
@[simp] theorem State.resetWith_irqen : (State.resetWith c).irqen = 0 := (rfl)
@[simp] theorem State.resetWith_seq : (State.resetWith c).seq = .idle := (rfl)
@[simp] theorem State.resetWith_events : (State.resetWith c).events = [] := (rfl)
@[simp] theorem State.resetWith_rdata : (State.resetWith c).rdata = 0 := (rfl)
@[simp] theorem State.resetWith_draws : (State.resetWith c).draws = 0 := (rfl)

end

/-! ### Reading an entry of an updated array -/

theorem State.dlWrite_line (s : State) (u w : Fin 8) (v : Word) :
    (s.dlWrite u v).lines[w] = if w = u then s.lines[u].push (s.cfg.length u) v else s.lines[w] := by
  by_cases h : w = u
  · subst h; simp
  · have : u.val ≠ w.val := fun h' => h (Fin.ext h'.symm)
    simp [h, this]

theorem State.setY_y_get (s : State) (u w : Fin 5) (v : Word) :
    (s.setY u v).y[w] = if w = u then v else s.y[w] := by
  by_cases h : w = u
  · subst h; simp
  · have : u.val ≠ w.val := fun h' => h (Fin.ext h'.symm)
    simp [h, this]

end Sys2Proof.Machine
end

