-- ==== Sys2Proof/Laws/Ops.lean ====
section
/-! SUPPORT. One lemma for each shared operation of the units, saying what it can do: the delay-line
write, the tap reads (which touch the grain trackers and the generator only), the allpass step, the
write-back of a tap and the sample step; and that the generator never reaches 0. -/

namespace Sys2Proof.Machine

/-! ### The generator (R48, R200) -/

theorem eq_zero_of_eq_shiftLeft {x : Word} {k : Nat} (hk : 0 < k) (h : x = x <<< k) : x = 0 := by
  have key : ∀ i, x.getLsbD i = false := by
    intro i
    induction i using Nat.strongRecOn with
    | ind i ih =>
      rw [h, BitVec.getLsbD_shiftLeft]
      by_cases hi : i < k
      · simp [hi]
      · simp [ih (i - k) (by omega)]
  exact BitVec.eq_of_getLsbD_eq fun i _ => by simp [key i]

theorem eq_zero_of_eq_shiftRight {x : Word} {k : Nat} (hk : 0 < k) (h : x = x >>> k) : x = 0 := by
  have key : ∀ n i, 32 ≤ i + n → x.getLsbD i = false := by
    intro n
    induction n with
    | zero => exact fun i hi => BitVec.getLsbD_of_ge _ _ (by omega)
    | succ n ih =>
      intro i hi
      rw [h, BitVec.getLsbD_ushiftRight]
      exact ih _ (by omega)
  exact BitVec.eq_of_getLsbD_eq fun i _ => by simp [key 32 i (by omega)]

theorem eq_of_xor_eq_zero {x y : Word} (h : x ^^^ y = 0) : x = y := by
  have h1 : x ^^^ y ^^^ y = 0 ^^^ y := by rw [h]
  simpa [BitVec.xor_assoc] using h1

/-- A step of the generator does not reach 0 from another state (R48). -/
theorem xorshift_ne_zero {x : Word} (h : x ≠ 0) : xorshift x ≠ 0 := by
  intro hc
  simp only [xorshift] at hc
  have h3 := eq_zero_of_eq_shiftLeft (by decide) (eq_of_xor_eq_zero hc)
  have h2 := eq_zero_of_eq_shiftRight (by decide) (eq_of_xor_eq_zero h3)
  exact h (eq_zero_of_eq_shiftLeft (by decide) (eq_of_xor_eq_zero h2))

/-! ### Causes -/

/-- The causes of a delay-line read are none or RANGE (R305). -/
theorem dlCauses_cases (s : State) (u : Fin 8) (t : Word) (m : Interp) :
    s.dlCauses u t m = 0 ∨ s.dlCauses u t m = causeRange := by
  simp only [State.dlCauses]
  split <;> simp

theorem checkFinite_cases (v : Word) : checkFinite v = 0 ∨ checkFinite v = causeNonfinite := by
  simp only [checkFinite]; split <;> simp

theorem checkRange_cases (v lo hi : Word) :
    checkRange v lo hi = 0 ∨ checkRange v lo hi = causeParam := by
  simp only [checkRange]; split <;> simp

theorem checkRangeOpen_cases (v lo hi : Word) :
    checkRangeOpen v lo hi = 0 ∨ checkRangeOpen v lo hi = causeParam := by
  simp only [checkRangeOpen]; split <;> simp

/-! ### Reads depend on the lines and the configuration only -/

theorem dlValue_congr {s t : State} {u : Fin 8} (hc : t.cfg = s.cfg) (hl : t.lines[u] = s.lines[u])
    (x : Word) (m : Interp) : t.dlValue u x m = s.dlValue u x m := by
  have hs : t.sample u = s.sample u := by
    funext n; simp only [State.sample, hc, hl]
  unfold State.dlValue State.delayOf
  rw [hc, hs]

theorem dlCauses_congr {s t : State} (hc : t.cfg = s.cfg) (u : Fin 8) (x : Word) (m : Interp) :
    t.dlCauses u x m = s.dlCauses u x m := by
  unfold State.dlCauses State.delayOf
  rw [hc]

/-! ### Tap reads: the grain trackers and the generator, nothing else (R205) -/

/-- The state with other grain trackers and another generator state. -/
def State.withGrains (s : State) (gp go : Vector Word 8) (r : Word) : State :=
  { s with gprev := gp, goff := go, rng := r }

/-- What a tap read may change (R205): the trackers and the generator, which stays non-zero. -/
def GrainsOnly (s t : State) : Prop :=
  t = s.withGrains t.gprev t.goff t.rng ∧ (s.rng ≠ 0 → t.rng ≠ 0)

theorem GrainsOnly.refl (s : State) : GrainsOnly s s := ⟨rfl, id⟩

theorem GrainsOnly.trans {s t r : State} (h : GrainsOnly s t) (h' : GrainsOnly t r) :
    GrainsOnly s r := by
  refine ⟨?_, fun hs => h'.2 (h.2 hs)⟩
  rw [h'.1, h.1]
  rfl

/-- The fields that a tap read leaves alone, one equation each. -/
theorem GrainsOnly.fields {s t : State} (h : GrainsOnly s t) :
    t.cfg = s.cfg ∧ t.lines = s.lines ∧ t.y = s.y ∧ t.phase = s.phase ∧ t.opr = s.opr ∧
      t.res0 = s.res0 ∧ t.res1 = s.res1 ∧ t.status = s.status ∧ t.irqen = s.irqen ∧ t.seq = s.seq ∧
      t.events = s.events ∧ t.rdata = s.rdata ∧ t.draws = s.draws := by
  rw [h.1]
  exact ⟨rfl, rfl, rfl, rfl, rfl, rfl, rfl, rfl, rfl, rfl, rfl, rfl, rfl⟩

theorem retrigger_grainsOnly (s : State) (t : Fin 4) (k : Fin 2) (g d : Word) :
    GrainsOnly s (s.retrigger t k g d) := by
  simp only [State.retrigger]
  split
  · exact ⟨rfl, xorshift_ne_zero⟩
  · exact ⟨rfl, id⟩

theorem grain_grainsOnly (s : State) (t : Fin 4) (k : Fin 2) (b g d : Word) :
    GrainsOnly s (s.grain t k b g d).state := retrigger_grainsOnly s t k g d

theorem grainRead_grainsOnly (s : State) (t : Fin 4) (b l d : Word) :
    GrainsOnly s (s.grainRead t b l d).state :=
  (grain_grainsOnly s t 0 b _ d).trans (grain_grainsOnly _ t 1 b _ d)

/-- A tap read changes the grain trackers and the generator only (R205). -/
theorem tapRead_grainsOnly (s : State) (t : Fin 4) (z l d : Word) :
    GrainsOnly s (s.tapRead t z l d).state := by
  simp only [State.tapRead]
  split
  · exact .refl s
  · split
    · exact .refl s
    · split
      · exact grainRead_grainsOnly s t _ l d
      · exact .refl s

/-- Outside granular mode a tap read changes nothing (R202). -/
theorem tapRead_state_of_not_positive (s : State) (t : Fin 4) (z l d : Word)
    (h : F32.lt F32.zero d = false) : (s.tapRead t z l d).state = s := by
  simp only [State.tapRead, h]
  split
  · rfl
  · split <;> rfl

theorem readTaps_grainsOnly (s : State) (z l d : Word) : GrainsOnly s (s.readTaps z l d).state :=
  (((tapRead_grainsOnly s 0 z l d).trans (tapRead_grainsOnly _ 1 z l d)).trans
    (tapRead_grainsOnly _ 2 z l d)).trans (tapRead_grainsOnly _ 3 z l d)

/-! ### Lines -/

/-- Every line is well formed: the part of `State.Inv` that writes must keep (R44). -/
def State.linesWf (s : State) : Prop := ∀ u : Fin 8, s.lines[u].wf (s.cfg.length u) = true

/-- A delay-line write keeps every line well formed. -/
theorem dlWrite_linesWf {s : State} (h : s.linesWf) (u : Fin 8) (v : Word) :
    (s.dlWrite u v).linesWf := by
  intro w
  rw [State.dlWrite_line, State.dlWrite_cfg]
  split
  · subst_vars; exact Line.push_wf (h _) v
  · exact h w

/-- What a delay-line write does (R130): the slot at the cursor holds the value, the cursor advances,
every other slot and every other line stay. -/
theorem dlWrite_spec {s : State} (h : s.linesWf) (u : Fin 8) (v : Word) :
    (s.dlWrite u v).memRead u s.lines[u].cursor = v ∧
      (∀ j, j ≠ s.lines[u].cursor → (s.dlWrite u v).memRead u j = s.memRead u j) ∧
      (s.dlWrite u v).lines[u].cursor = (s.lines[u].cursor + 1) % s.cfg.length u ∧
      (∀ w : Fin 8, w ≠ u → (s.dlWrite u v).lines[w] = s.lines[w]) := by
  have hm := (Line.wf_iff.1 (h u)).1
  refine ⟨?_, fun j hj => ?_, ?_, fun w hw => ?_⟩
  · rw [State.memRead, State.dlWrite_line, if_pos rfl, Line.push, readSlot_writeSlot hm, if_pos rfl]
  · rw [State.memRead, State.dlWrite_line, if_pos rfl, Line.push, readSlot_writeSlot hm, if_neg hj]
    rfl
  · rw [State.dlWrite_line, if_pos rfl]; rfl
  · rw [State.dlWrite_line, if_neg hw]

/-- Sample addressing after a delay-line write (R133): the newest sample is the value written, the
older ones have moved one place back. -/
theorem sample_dlWrite {s : State} (h : s.linesWf) (u : Fin 8) (v : Word) {n : Nat}
    (hn : n < s.cfg.length u) :
    (s.dlWrite u v).sample u n = if n = 0 then v else s.sample u (n - 1) := by
  rw [State.sample, State.dlWrite_line, if_pos rfl, State.dlWrite_cfg, Line.sample_push (h u) v hn]
  rfl

/-! ### Lines and one-pole states, nothing else (step 9 of R240) -/

/-- The state with other lines and one-pole states. -/
def State.withLinesY (s : State) (l : Vector Line 8) (y : Vector Word 5) : State :=
  { s with lines := l, y := y }

/-- What the write-back of a tap may change: the lines and the one-pole states. -/
def LinesYOnly (s t : State) : Prop :=
  t = s.withLinesY t.lines t.y ∧ (s.linesWf → t.linesWf)

theorem LinesYOnly.trans {s t r : State} (h : LinesYOnly s t) (h' : LinesYOnly t r) :
    LinesYOnly s r := by
  refine ⟨?_, fun hs => h'.2 (h.2 hs)⟩
  rw [h'.1, h.1]
  rfl

theorem LinesYOnly.fields {s t : State} (h : LinesYOnly s t) :
    t.cfg = s.cfg ∧ t.phase = s.phase ∧ t.gprev = s.gprev ∧ t.goff = s.goff ∧ t.rng = s.rng ∧
      t.opr = s.opr ∧ t.res0 = s.res0 ∧ t.res1 = s.res1 ∧ t.status = s.status ∧
      t.irqen = s.irqen ∧ t.seq = s.seq ∧ t.events = s.events ∧ t.rdata = s.rdata ∧
      t.draws = s.draws := by
  rw [h.1]
  exact ⟨rfl, rfl, rfl, rfl, rfl, rfl, rfl, rfl, rfl, rfl, rfl, rfl, rfl, rfl⟩

theorem dlWrite_linesYOnly (s : State) (u : Fin 8) (v : Word) : LinesYOnly s (s.dlWrite u v) :=
  ⟨rfl, fun h => dlWrite_linesWf h u v⟩

theorem setY_linesYOnly (s : State) (u : Fin 5) (v : Word) : LinesYOnly s (s.setY u v) :=
  ⟨rfl, id⟩

/-- The allpass step writes its own line, once (R165). -/
theorem apProcess_linesYOnly (s : State) (t : Fin 4) (x g : Word) :
    LinesYOnly s (s.apProcess t x g).state := dlWrite_linesYOnly s _ _

theorem writeTap_linesYOnly (s : State) (t : Fin 4) (v a d : Word) :
    LinesYOnly s (s.writeTap t v a d).state :=
  ((setY_linesYOnly s _ _).trans (apProcess_linesYOnly _ t _ d)).trans (dlWrite_linesYOnly _ _ _)

theorem writeTaps_linesYOnly (s : State) (v : Vector Word 4) (a d : Word) :
    LinesYOnly s (s.writeTaps v a d).1 :=
  (((writeTap_linesYOnly s 0 v[0] a d).trans (writeTap_linesYOnly _ 1 v[1] a d)).trans
    (writeTap_linesYOnly _ 2 v[2] a d)).trans (writeTap_linesYOnly _ 3 v[3] a d)

/-- What the write-back of tap `t` leaves in the lines: one push into the allpass line and one into
the tap line; every other line stays. -/
theorem writeTap_lines (s : State) (t : Fin 4) (v a d : Word) (u : Fin 8) :
    (s.writeTap t v a d).state.lines[u] =
      if u = tapLine t then s.lines[u].push (s.cfg.length u) (s.writeTap t v a d).value
      else if u = allpassLine t then s.lines[u].push (s.cfg.length u)
        ((s.opLin (absorptionUnit t) v a).allpassInput t
          (s.opLin (absorptionUnit t) v a).y[absorptionUnit t] d)
      else s.lines[u] := by
  have hne : tapLine t ≠ allpassLine t := by
    intro h; have := congrArg Fin.val h; simp [tapLine, allpassLine] at this
  simp only [State.writeTap, State.apProcess, State.dlWrite_line, State.dlWrite_cfg]
  split
  · subst_vars; simp
  · split
    · subst_vars; simp
    · simp

/-! ### The sample step (R240, R248) -/

/-- Steps 1 to 6 leave the lines; they change the phasor, the grain trackers, the generator and the
gate. -/
theorem fdnGated_fields (s : State) (o : FdnOperands) :
    (s.fdnGated o).cfg = s.cfg ∧ (s.fdnGated o).lines = s.lines ∧
      (s.fdnGated o).phase = (s.phStep o.speed).phase ∧ (s.fdnGated o).opr = s.opr ∧
      (s.fdnGated o).res0 = s.res0 ∧ (s.fdnGated o).res1 = s.res1 ∧
      (s.fdnGated o).status = s.status ∧ (s.fdnGated o).irqen = s.irqen ∧
      (s.fdnGated o).seq = s.seq ∧ (s.fdnGated o).events = s.events ∧
      (s.fdnGated o).rdata = s.rdata ∧ (s.fdnGated o).draws = s.draws ∧
      (s.rng ≠ 0 → (s.fdnGated o).rng ≠ 0) := by
  have h := readTaps_grainsOnly (s.phStep o.speed) o.size (s.phStep o.speed).phase o.depth
  obtain ⟨h1, h2, -, h4, h5, h6, h7, h8, h9, h10, h11, h12, h13⟩ := h.fields
  exact ⟨h1, h2, h4, h5, h6, h7, h8, h9, h10, h11, h12, h13, h.2⟩

/-- Steps 7 to 9 change the lines and the one-pole states only. -/
theorem fdnWritten_linesYOnly (s : State) (o : FdnOperands) :
    LinesYOnly (s.fdnGated o) (s.fdnStep o).1 := writeTaps_linesYOnly _ _ _ _

/-- What one sample step leaves alone (R248): the configuration, the registers, the flags, the
sequencer and the model's own fields; the phasor has advanced once. -/
theorem fdnStep_fields (s : State) (o : FdnOperands) :
    (s.fdnStep o).1.cfg = s.cfg ∧ (s.fdnStep o).1.phase = (s.phStep o.speed).phase ∧
      (s.fdnStep o).1.opr = s.opr ∧ (s.fdnStep o).1.res0 = s.res0 ∧
      (s.fdnStep o).1.res1 = s.res1 ∧ (s.fdnStep o).1.status = s.status ∧
      (s.fdnStep o).1.irqen = s.irqen ∧ (s.fdnStep o).1.seq = s.seq ∧
      (s.fdnStep o).1.events = s.events ∧ (s.fdnStep o).1.rdata = s.rdata ∧
      (s.fdnStep o).1.draws = s.draws := by
  obtain ⟨h1, -, h3, h4, h5, h6, h7, h8, h9, h10, h11, h12, -⟩ := fdnGated_fields s o
  obtain ⟨g1, g2, -, -, -, g6, g7, g8, g9, g10, g11, g12, g13, g14⟩ :=
    (fdnWritten_linesYOnly s o).fields
  exact ⟨g1.trans h1, g2.trans h3, g6.trans h4, g7.trans h5, g8.trans h6, g9.trans h7, g10.trans h8,
    g11.trans h9, g12.trans h10, g13.trans h11, g14.trans h12⟩

/-- A sample step keeps every line well formed and the generator non-zero. -/
theorem fdnStep_keeps (s : State) (o : FdnOperands) :
    (s.linesWf → (s.fdnStep o).1.linesWf) ∧ (s.rng ≠ 0 → (s.fdnStep o).1.rng ≠ 0) := by
  obtain ⟨h1, h2, -, -, -, -, -, -, -, -, -, -, h13⟩ := fdnGated_fields s o
  constructor
  · intro h
    refine (fdnWritten_linesYOnly s o).2 fun u => ?_
    rw [h1, h2]
    exact h u
  · intro h
    rw [(fdnWritten_linesYOnly s o).fields.2.2.2.2.1]
    exact h13 h

end Sys2Proof.Machine
end

