-- ==== Sys2Proof/Laws/Exec.lean ====
section
/-! SUPPORT. What a command can do, said once: every command answers a next state that is the completion
of a state with its unit state and results changed and everything else as before. -/

namespace Sys2Proof.Machine

/-- What the body of a command, before its completion, leaves alone and what it keeps. -/
structure Body (s t : State) : Prop where
  cfg : t.cfg = s.cfg
  opr : t.opr = s.opr
  status : t.status = s.status
  irqen : t.irqen = s.irqen
  seq : t.seq = s.seq
  events : t.events = s.events
  rdata : t.rdata = s.rdata
  draws : t.draws = s.draws
  lines : s.cfg.buildable = true → s.linesWf → t.linesWf
  rng : s.cfg.buildable = true → s.rng ≠ 0 → t.rng ≠ 0
  phase : t.phase = s.phase ∨ t.phase = F32.zero ∨
    ∃ f, t.phase = F32.frac1 (F32.add s.phase (F32.div f s.cfg.fs32))

theorem Body.refl (s : State) : Body s s :=
  ⟨rfl, rfl, rfl, rfl, rfl, rfl, rfl, rfl, fun _ h => h, fun _ h => h, .inl rfl⟩

/-- The results change nothing that `Body` speaks of. -/
theorem Body.setRes0 {s t : State} (h : Body s t) (v : Word) : Body s (t.setRes0 v) :=
  ⟨h.cfg, h.opr, h.status, h.irqen, h.seq, h.events, h.rdata, h.draws, h.lines, h.rng, h.phase⟩

theorem Body.setRes {s t : State} (h : Body s t) (v w : Word) : Body s (t.setRes v w) :=
  ⟨h.cfg, h.opr, h.status, h.irqen, h.seq, h.events, h.rdata, h.draws, h.lines, h.rng, h.phase⟩

theorem Body.ofLinesY {s t : State} (h : LinesYOnly s t) : Body s t := by
  obtain ⟨h1, h2, -, -, h5, h6, -, -, h9, h10, h11, h12, h13, h14⟩ := h.fields
  exact ⟨h1, h6, h9, h10, h11, h12, h13, h14, fun _ => h.2, fun _ h => by rw [h5]; exact h, .inl h2⟩

theorem Body.ofGrains {s t : State} (h : GrainsOnly s t) : Body s t := by
  obtain ⟨h1, h2, -, h4, h5, -, -, h8, h9, h10, h11, h12, h13⟩ := h.fields
  exact ⟨h1, h5, h8, h9, h10, h11, h12, h13, fun _ hw u => by rw [h1, h2]; exact hw u,
    fun _ => h.2, .inl h4⟩

theorem phStep_body (s : State) (f : Word) : Body s (s.phStep f) :=
  ⟨rfl, rfl, rfl, rfl, rfl, rfl, rfl, rfl, fun _ h => h, fun _ h => h, .inr (.inr ⟨f, rfl⟩)⟩

theorem fdnStep_body (s : State) (o : FdnOperands) : Body s (s.fdnStep o).1 := by
  obtain ⟨h1, h2, h3, -, -, h6, h7, h8, h9, h10, h11⟩ := fdnStep_fields s o
  obtain ⟨k1, k2⟩ := fdnStep_keeps s o
  exact ⟨h1, h3, h6, h7, h8, h9, h10, h11, fun _ => k1, fun _ => k2,
    .inr (.inr ⟨o.speed, by rw [h2]; rfl⟩)⟩

theorem buildable_length {c : Config} (h : c.buildable = true) (u : Fin 8) : 0 < c.length u := by
  simp only [Config.buildable, Bool.and_eq_true, List.all_eq_true, List.mem_finRange, true_implies,
    decide_eq_true_eq] at h
  exact h.2 u

theorem buildable_seed {c : Config} (h : c.buildable = true) : c.rngSeed ≠ 0 := by
  simp only [Config.buildable, Bool.and_eq_true, bne_iff_ne] at h
  exact h.1.2

theorem clearSignal_body (s : State) : Body s s.clearSignal :=
  ⟨rfl, rfl, rfl, rfl, rfl, rfl, rfl, rfl,
    fun hb _ u => by
      simp only [State.clearSignal, Fin.getElem_fin, Vector.getElem_replicate]
      exact Line.empty_wf (buildable_length hb u),
    fun hb _ => buildable_seed hb, .inr (.inl rfl)⟩

/-- What a command answers: the completion of a body. -/
theorem exec_body (i : Instr) (s : State) :
    ∃ t c, exec i s = .next (t.complete c) ∧ Body s t := by
  cases i with
  | nop => exact ⟨s, 0, rfl, .refl s⟩
  | dlw u => exact ⟨_, _, rfl, .ofLinesY (dlWrite_linesYOnly s _ _)⟩
  | dlrStep u => exact ⟨s.setRes0 _, _, rfl, (Body.refl s).setRes0 _⟩
  | dlrLinear u => exact ⟨s.setRes0 _, _, rfl, (Body.refl s).setRes0 _⟩
  | dlrCosine u => exact ⟨s.setRes0 _, _, rfl, (Body.refl s).setRes0 _⟩
  | dlrCubic u => exact ⟨s.setRes0 _, _, rfl, (Body.refl s).setRes0 _⟩
  | dlrSpline u => exact ⟨s.setRes0 _, _, rfl, (Body.refl s).setRes0 _⟩
  | opfHz u =>
    simp only [exec, execOpfHz]
    split
    · exact ⟨s, _, rfl, .refl s⟩
    · exact ⟨_, _, rfl, (Body.ofLinesY (setY_linesYOnly s _ _)).setRes0 _⟩
  | opfLin u =>
    simp only [exec, execOpfLin]
    split
    · exact ⟨s, _, rfl, .refl s⟩
    · exact ⟨_, _, rfl, (Body.ofLinesY (setY_linesYOnly s _ _)).setRes0 _⟩
  | apf t =>
    simp only [exec, execApf]
    split
    · exact ⟨s, _, rfl, .refl s⟩
    · exact ⟨_, _, rfl, (Body.ofLinesY (apProcess_linesYOnly s _ _ _)).setRes0 _⟩
  | phs => exact ⟨_, _, rfl, (phStep_body s _).setRes0 _⟩
  | tapr t =>
    simp only [exec, execTapr]
    split
    · exact ⟨s, _, rfl, .refl s⟩
    · exact ⟨_, _, rfl, (Body.ofGrains (tapRead_grainsOnly s _ _ _ _)).setRes0 _⟩
  | erc => exact ⟨_, _, rfl, (Body.refl s).setRes _ _⟩
  | sata => exact ⟨_, _, rfl, (Body.ofLinesY (setY_linesYOnly s _ _)).setRes0 _⟩
  | fdn => exact ⟨_, _, rfl, (fdnStep_body s _).setRes _ _⟩
  | cond => exact ⟨_, _, rfl, (Body.refl s).setRes _ _⟩
  | srst => exact ⟨_, _, rfl, clearSignal_body s⟩

/-- What the completion of anything in flight answers. -/
theorem settle_cases (s : State) :
    (s.seq = .idle ∧ s.settle = .next s) ∨
    (s.seq = .resetting ∧ s.settle = .next s.finishReset) ∨
    (∃ c, s.seq = .running c) ∧ ∃ t c, s.settle = .next (t.complete c) ∧ Body s t := by
  cases h : s.seq with
  | idle => exact .inl ⟨rfl, by simp [State.settle, h]⟩
  | resetting => exact .inr (.inl ⟨rfl, by simp [State.settle, h]⟩)
  | running c =>
    refine .inr (.inr ⟨⟨c, rfl⟩, ?_⟩)
    cases c with
    | none => exact ⟨s, causeBadcmd, by simp [State.settle, h, State.refuseCommand], .refl s⟩
    | some i =>
      obtain ⟨t, c, h1, h2⟩ := exec_body i s
      exact ⟨t, c, by simp [State.settle, h, h1], h2⟩

end Sys2Proof.Machine
end

