-- ==== Sys2Proof/Laws/Flags.lean ====
section
/-! SUPPORT. The flags and the interrupt enables enter no computation (10_state.md R51): each shared
operation commutes with giving a state other flags and enables. -/

namespace Sys2Proof.Machine

/-- A state with other sticky flags and interrupt enables. -/
def State.withFlags (s : State) (f e : Causes) : State := { s with status := f, irqen := e }

/-- What an internal operation leaves, with other flags and enables in its state. -/
def Ran.withFlags (r : Ran) (f e : Causes) : Ran := { r with state := r.state.withFlags f e }

@[simp] theorem Ran.withFlags_state (r : Ran) (f e : Causes) :
    (r.withFlags f e).state = r.state.withFlags f e := (rfl)
@[simp] theorem Ran.withFlags_value (r : Ran) (f e : Causes) :
    (r.withFlags f e).value = r.value := (rfl)
@[simp] theorem Ran.withFlags_causes (r : Ran) (f e : Causes) :
    (r.withFlags f e).causes = r.causes := (rfl)

section

variable (s : State) (f e : Causes)

@[simp] theorem State.withFlags_cfg : (s.withFlags f e).cfg = s.cfg := (rfl)
@[simp] theorem State.withFlags_lines : (s.withFlags f e).lines = s.lines := (rfl)
@[simp] theorem State.withFlags_y : (s.withFlags f e).y = s.y := (rfl)
@[simp] theorem State.withFlags_phase : (s.withFlags f e).phase = s.phase := (rfl)
@[simp] theorem State.withFlags_gprev : (s.withFlags f e).gprev = s.gprev := (rfl)
@[simp] theorem State.withFlags_goff : (s.withFlags f e).goff = s.goff := (rfl)
@[simp] theorem State.withFlags_rng : (s.withFlags f e).rng = s.rng := (rfl)
@[simp] theorem State.withFlags_opr : (s.withFlags f e).opr = s.opr := (rfl)
@[simp] theorem State.withFlags_operand (i : Fin 8) :
    (s.withFlags f e).operand i = s.operand i := (rfl)
@[simp] theorem State.withFlags_fdnOperands : (s.withFlags f e).fdnOperands = s.fdnOperands := (rfl)

@[simp] theorem withFlags_dlValue (u : Fin 8) (t : Word) (m : Interp) :
    (s.withFlags f e).dlValue u t m = s.dlValue u t m :=
  dlValue_congr (s := s) (t := s.withFlags f e) rfl rfl t m

@[simp] theorem withFlags_dlCauses (u : Fin 8) (t : Word) (m : Interp) :
    (s.withFlags f e).dlCauses u t m = s.dlCauses u t m :=
  dlCauses_congr (s := s) (t := s.withFlags f e) rfl u t m

@[simp] theorem withFlags_dlWrite (u : Fin 8) (v : Word) :
    (s.withFlags f e).dlWrite u v = (s.dlWrite u v).withFlags f e := (rfl)

@[simp] theorem withFlags_setY (u : Fin 5) (v : Word) :
    (s.withFlags f e).setY u v = (s.setY u v).withFlags f e := (rfl)

@[simp] theorem withFlags_setRes0 (v : Word) :
    (s.withFlags f e).setRes0 v = (s.setRes0 v).withFlags f e := (rfl)

@[simp] theorem withFlags_setRes (v w : Word) :
    (s.withFlags f e).setRes v w = (s.setRes v w).withFlags f e := (rfl)

@[simp] theorem withFlags_phStep (v : Word) :
    (s.withFlags f e).phStep v = (s.phStep v).withFlags f e := (rfl)

@[simp] theorem withFlags_opHz (u : Fin 5) (x v : Word) :
    (s.withFlags f e).opHz u x v = (s.opHz u x v).withFlags f e := (rfl)

@[simp] theorem withFlags_opLin (u : Fin 5) (x v : Word) :
    (s.withFlags f e).opLin u x v = (s.opLin u x v).withFlags f e := (rfl)

@[simp] theorem withFlags_satProcess (v : Word) :
    (s.withFlags f e).satProcess v = (s.satProcess v).withFlags f e := (rfl)

@[simp] theorem withFlags_resultY (u : Fin 5) :
    (s.withFlags f e).resultY u = (s.resultY u).withFlags f e := (rfl)

@[simp] theorem withFlags_clearSignal :
    (s.withFlags f e).clearSignal = s.clearSignal.withFlags f e := (rfl)

@[simp] theorem withFlags_apProcess (t : Fin 4) (x g : Word) :
    (s.withFlags f e).apProcess t x g = (s.apProcess t x g).withFlags f e := by
  simp only [State.apProcess, State.allpassInput, State.allpassOutput, State.allpassRead,
    State.allpassTime, State.withFlags_cfg, withFlags_dlValue, withFlags_dlCauses,
    withFlags_dlWrite, Ran.withFlags]

@[simp] theorem withFlags_tapAt (t : Fin 4) (x : Word) :
    (s.withFlags f e).tapAt t x = (s.tapAt t x).withFlags f e := by
  simp only [State.tapAt, State.withFlags_cfg, withFlags_dlValue, withFlags_dlCauses, Ran.withFlags]

@[simp] theorem withFlags_retrigger (t : Fin 4) (k : Fin 2) (g d : Word) :
    (s.withFlags f e).retrigger t k g d = (s.retrigger t k g d).withFlags f e := by
  have h : (s.withFlags f e).retriggers t k g = s.retriggers t k g := (rfl)
  simp only [State.retrigger, h]
  cases s.retriggers t k g <;> rfl

@[simp] theorem withFlags_grain (t : Fin 4) (k : Fin 2) (b g d : Word) :
    (s.withFlags f e).grain t k b g d = (s.grain t k b g d).withFlags f e := by
  have h : ∀ r : State, (r.withFlags f e).grainTime t k b = r.grainTime t k b := fun _ => rfl
  simp only [State.grain, withFlags_retrigger, h, withFlags_tapAt, State.withFlags_cfg,
    Ran.withFlags]

@[simp] theorem withFlags_tapRead (t : Fin 4) (z l d : Word) :
    (s.withFlags f e).tapRead t z l d = (s.tapRead t z l d).withFlags f e := by
  simp only [State.tapRead, State.grainRead, withFlags_grain, withFlags_tapAt, State.withFlags_cfg,
    Ran.withFlags_state, Ran.withFlags_value, Ran.withFlags_causes]
  split
  · rfl
  · split
    · rfl
    · split <;> rfl

omit f e in
theorem readTaps_of_reads {z l d : Word} {r0 r1 r2 r3 : Ran} (h0 : s.tapRead 0 z l d = r0)
    (h1 : r0.state.tapRead 1 z l d = r1) (h2 : r1.state.tapRead 2 z l d = r2)
    (h3 : r2.state.tapRead 3 z l d = r3) :
    s.readTaps z l d = ⟨r3.state, #v[r0.value, r1.value, r2.value, r3.value],
      r0.causes ||| r1.causes ||| r2.causes ||| r3.causes⟩ := by
  subst h0 h1 h2 h3; rfl

@[simp] theorem withFlags_readTaps (z l d : Word) :
    (s.withFlags f e).readTaps z l d =
      ⟨(s.readTaps z l d).state.withFlags f e, (s.readTaps z l d).r, (s.readTaps z l d).causes⟩ := by
  obtain ⟨r0, h0⟩ : ∃ r, s.tapRead 0 z l d = r := ⟨_, rfl⟩
  obtain ⟨r1, h1⟩ : ∃ r, r0.state.tapRead 1 z l d = r := ⟨_, rfl⟩
  obtain ⟨r2, h2⟩ : ∃ r, r1.state.tapRead 2 z l d = r := ⟨_, rfl⟩
  obtain ⟨r3, h3⟩ : ∃ r, r2.state.tapRead 3 z l d = r := ⟨_, rfl⟩
  have k0 : (s.withFlags f e).tapRead 0 z l d = r0.withFlags f e := by
    rw [withFlags_tapRead, h0]
  have k1 : (r0.withFlags f e).state.tapRead 1 z l d = r1.withFlags f e := by
    rw [Ran.withFlags_state, withFlags_tapRead, h1]
  have k2 : (r1.withFlags f e).state.tapRead 2 z l d = r2.withFlags f e := by
    rw [Ran.withFlags_state, withFlags_tapRead, h2]
  have k3 : (r2.withFlags f e).state.tapRead 3 z l d = r3.withFlags f e := by
    rw [Ran.withFlags_state, withFlags_tapRead, h3]
  rw [readTaps_of_reads s h0 h1 h2 h3, readTaps_of_reads (s.withFlags f e) k0 k1 k2 k3]
  simp only [Ran.withFlags_state, Ran.withFlags_value, Ran.withFlags_causes]

@[simp] theorem withFlags_erProcess (z : Word) :
    (s.withFlags f e).erProcess z = s.erProcess z := by
  have h : ∀ u, (s.withFlags f e).addReflection u z = s.addReflection u z := by
    intro u
    funext acc r
    simp only [State.addReflection, State.reflectionValue, State.withFlags_cfg, withFlags_dlValue,
      withFlags_dlCauses]
  simp only [State.erProcess, h, State.withFlags_cfg]

@[simp] theorem withFlags_writeTap (t : Fin 4) (v a d : Word) :
    (s.withFlags f e).writeTap t v a d = (s.writeTap t v a d).withFlags f e := by
  simp only [State.writeTap, withFlags_opLin, withFlags_apProcess, State.withFlags_y, Ran.withFlags,
    withFlags_dlWrite]

@[simp] theorem withFlags_writeTaps (v : Vector Word 4) (a d : Word) :
    (s.withFlags f e).writeTaps v a d =
      ((s.writeTaps v a d).1.withFlags f e, (s.writeTaps v a d).2) := by
  simp only [State.writeTaps, withFlags_writeTap, Ran.withFlags_state, Ran.withFlags_causes]

@[simp] theorem withFlags_fdnTaps (o : FdnOperands) :
    (s.withFlags f e).fdnTaps o =
      ⟨(s.fdnTaps o).state.withFlags f e, (s.fdnTaps o).r, (s.fdnTaps o).causes⟩ := by
  simp only [State.fdnTaps, withFlags_phStep, State.withFlags_phase, withFlags_readTaps]

@[simp] theorem withFlags_fdnMixed (o : FdnOperands) :
    (s.withFlags f e).fdnMixed o = s.fdnMixed o := by
  simp only [State.fdnMixed, withFlags_fdnTaps, State.withFlags_cfg]

@[simp] theorem withFlags_fdnGated (o : FdnOperands) :
    (s.withFlags f e).fdnGated o = (s.fdnGated o).withFlags f e := by
  simp only [State.fdnGated, withFlags_fdnTaps, withFlags_fdnMixed, withFlags_satProcess]

@[simp] theorem withFlags_fdnStep (o : FdnOperands) :
    (s.withFlags f e).fdnStep o = ((s.fdnStep o).1.withFlags f e, (s.fdnStep o).2) := by
  simp only [State.fdnStep, State.fdnWritten, withFlags_fdnTaps, withFlags_fdnGated,
    withFlags_fdnMixed, withFlags_erProcess, withFlags_writeTaps, State.withFlags_cfg,
    State.withFlags_y]

end

end Sys2Proof.Machine
end

