-- ==== Sys2Proof/Laws/Float.lean ====
section
/-! SUPPORT. The laws of the binary32 arithmetic: what a word built from a sign and 31 bits holds, and
that rounding is correct (R14): `roundSigned` gives the nearest binary32 value, ties to even. Every
arithmetic operation rounds once, through `roundSigned`. -/

namespace Sys2Proof.F32

/-! ### Fields of a word built from a sign and 31 bits -/

theorem expField_eq (w : Word) : expField w = w.toNat / 2 ^ 23 % 2 ^ 8 := by
  simp [expField, BitVec.extractLsb'_toNat, Nat.shiftRight_eq_div_pow]

theorem fracField_eq (w : Word) : fracField w = w.toNat % 2 ^ 23 := by
  simp [fracField, BitVec.extractLsb'_toNat]

theorem sign_eq (w : Word) : sign w = decide (2 ^ 31 ≤ w.toNat) := by
  have := w.isLt
  rw [sign, BitVec.getLsbD, Nat.testBit_eq_decide_div_mod_eq]
  congr 1
  apply propext
  constructor <;> intro h <;> omega

theorem fracField_lt (w : Word) : fracField w < 2 ^ 23 := by
  rw [fracField_eq]; omega

theorem expField_lt (w : Word) : expField w < 2 ^ 8 := by
  rw [expField_eq]; omega

/-- The word with a sign and 31 low bits. -/
def signedBits (neg : Bool) (b : Nat) : Word := BitVec.ofNat 32 (b + if neg then 2 ^ 31 else 0)

theorem signedBits_toNat (neg : Bool) {b : Nat} (h : b < 2 ^ 31) :
    (signedBits neg b).toNat = b + if neg then 2 ^ 31 else 0 := by
  rw [signedBits, BitVec.toNat_ofNat]
  cases neg <;> simp <;> omega

theorem expField_signedBits (neg : Bool) {b : Nat} (h : b < 2 ^ 31) :
    expField (signedBits neg b) = b / 2 ^ 23 := by
  rw [expField_eq, signedBits_toNat neg h]
  cases neg <;> (simp; omega)

theorem fracField_signedBits (neg : Bool) {b : Nat} (h : b < 2 ^ 31) :
    fracField (signedBits neg b) = b % 2 ^ 23 := by
  rw [fracField_eq, signedBits_toNat neg h]
  cases neg
  · simp
  · simp; omega

theorem sign_signedBits (neg : Bool) {b : Nat} (h : b < 2 ^ 31) :
    sign (signedBits neg b) = neg := by
  rw [sign_eq, signedBits_toNat neg h]
  cases neg
  · simp; omega
  · simp

theorem roundBits_le (num den : Nat) : roundBits num den ≤ 0x7F800000 := Nat.min_le_right _ _

theorem roundBits_lt (num den : Nat) : roundBits num den < 2 ^ 31 :=
  Nat.lt_of_le_of_lt (roundBits_le num den) (by decide)

theorem roundSigned_eq (neg : Bool) (num den : Nat) :
    roundSigned neg num den = signedBits neg (roundBits num den) := rfl

/-- The sign of a rounded value is the sign asked for. -/
theorem sign_roundSigned (neg : Bool) (num den : Nat) : sign (roundSigned neg num den) = neg :=
  sign_signedBits neg (roundBits_lt num den)

/-- A rounded value is never a NaN. -/
theorem isNaN_roundSigned (neg : Bool) (num den : Nat) : isNaN (roundSigned neg num den) = false := by
  have hb := roundBits_le num den
  have h := roundBits_lt num den
  rw [isNaN, roundSigned_eq, expField_signedBits neg h, fracField_signedBits neg h]
  simp only [Bool.and_eq_false_iff, beq_eq_false_iff_ne, bne_eq_false_iff_eq]
  by_cases he : roundBits num den / 2 ^ 23 = 255
  · right; omega
  · left; exact he

/-! ### The magnitudes that are binary32 values -/

/-- A power of two split off. -/
theorem two_pow_add_one (k : Nat) : 2 ^ (k + 1) = 2 * 2 ^ k := by rw [Nat.pow_succ]; omega

/-- The magnitude of the 31 bits `k·2^23 + r`: `r` multiples of 2^k (the leading bit of `r` adds one to
the exponent field). -/
theorem mag_signedBits (neg : Bool) {k r : Nat} (hr : r ≤ 2 ^ 24) (hk : k = 0 ∨ 2 ^ 23 ≤ r)
    (hb : k * 2 ^ 23 + r < 2 ^ 31) : mag (signedBits neg (k * 2 ^ 23 + r)) = r * 2 ^ k := by
  rw [mag, expField_signedBits neg hb, fracField_signedBits neg hb]
  by_cases h1 : r < 2 ^ 23
  · have h0 : k = 0 := by omega
    subst h0
    simp only [Nat.zero_mul, Nat.zero_add, Nat.pow_zero, Nat.mul_one]
    rw [if_pos (by omega)]; omega
  · by_cases h2 : r = 2 ^ 24
    · subst h2
      have e1 : (k * 2 ^ 23 + 2 ^ 24) / 2 ^ 23 = k + 1 + 1 := by omega
      have e2 : (k * 2 ^ 23 + 2 ^ 24) % 2 ^ 23 = 0 := by omega
      rw [e1, e2, if_neg (by omega), Nat.add_sub_cancel, two_pow_add_one]
      ring
    · have e1 : (k * 2 ^ 23 + r) / 2 ^ 23 = k + 1 := by omega
      have e2 : 2 ^ 23 + (k * 2 ^ 23 + r) % 2 ^ 23 = r := by omega
      rw [e1, e2, if_neg (by omega), Nat.add_sub_cancel]

/-- Every finite magnitude is below `2^23·2^k` or a multiple of 2^k. -/
theorem mag_grid (w : Word) (k : Nat) : mag w < 2 ^ 23 * 2 ^ k ∨ ∃ j, mag w = j * 2 ^ k := by
  have hf := fracField_lt w
  rw [mag]
  split
  · left
    have : 1 ≤ 2 ^ k := Nat.one_le_two_pow
    nlinarith
  · by_cases h : expField w - 1 < k
    · left
      obtain ⟨m, rfl⟩ : ∃ m, k = expField w - 1 + 1 + m := ⟨k - (expField w - 1) - 1, by omega⟩
      have h1 : 1 ≤ 2 ^ m := Nat.one_le_two_pow
      have h2 : 0 < 2 ^ (expField w - 1) := Nat.two_pow_pos _
      have h3 : 2 ^ (expField w - 1 + 1 + m) = 2 ^ (expField w - 1) * (2 * 2 ^ m) := by
        rw [Nat.pow_add, Nat.pow_succ]; ring
      rw [h3]
      have : 2 ^ 23 + fracField w < 2 ^ 23 * (2 * 2 ^ m) := by nlinarith
      calc (2 ^ 23 + fracField w) * 2 ^ (expField w - 1)
          < (2 ^ 23 * (2 * 2 ^ m)) * 2 ^ (expField w - 1) := Nat.mul_lt_mul_of_pos_right this h2
        _ = 2 ^ 23 * (2 ^ (expField w - 1) * (2 * 2 ^ m)) := by ring
    · right
      obtain ⟨m, hm⟩ : ∃ m, expField w - 1 = k + m := ⟨expField w - 1 - k, by omega⟩
      exact ⟨(2 ^ 23 + fracField w) * 2 ^ m, by rw [hm, Nat.pow_add]; ring⟩

/-! ### Rounding to an integer multiple -/

/-- The rounded quotient of `roundBits`: the nearest multiple, ties to even. -/
def roundQuot (num d : Nat) : Nat :=
  if decide (d < 2 * (num % d)) || (2 * (num % d) == d && num / d % 2 == 1) then num / d + 1
  else num / d

theorem roundBits_eq (num den : Nat) :
    roundBits num den =
      Nat.min ((Nat.log2 (num / den) - 23) * 2 ^ 23 +
        roundQuot num (den * 2 ^ (Nat.log2 (num / den) - 23))) 0x7F800000 := rfl

theorem roundQuot_cases {num d : Nat} (hd : 0 < d) :
    (roundQuot num d = num / d ∧ 2 * num ≤ (2 * (num / d) + 1) * d ∧
        (2 * num = (2 * (num / d) + 1) * d → num / d % 2 = 0)) ∨
      (roundQuot num d = num / d + 1 ∧ (2 * (num / d) + 1) * d ≤ 2 * num ∧
        (2 * num = (2 * (num / d) + 1) * d → (num / d + 1) % 2 = 0)) := by
  have hdm := Nat.div_add_mod num d
  have hlt := Nat.mod_lt num hd
  have e : (2 * (num / d) + 1) * d = 2 * (d * (num / d)) + d := by ring
  rw [e]
  unfold roundQuot
  split
  · rename_i h
    simp only [Bool.or_eq_true, decide_eq_true_eq, Bool.and_eq_true, beq_iff_eq] at h
    right
    refine ⟨rfl, by omega, fun he => ?_⟩
    omega
  · rename_i h
    simp only [Bool.or_eq_true, decide_eq_true_eq, Bool.and_eq_true, beq_iff_eq, not_or, not_and] at h
    left
    refine ⟨rfl, by omega, fun he => ?_⟩
    have := h.2 (by omega)
    omega

/-- No multiple of `d` is nearer to `num` than the rounded quotient, and of two equally near ones it is
the even one. -/
theorem roundQuot_nearest {num d : Nat} (hd : 0 < d) (j : Int) :
    ((roundQuot num d : Int) * d - num).natAbs ≤ (j * d - num).natAbs ∧
      (((roundQuot num d : Int) * d - num).natAbs = (j * d - num).natAbs → j ≠ roundQuot num d →
        roundQuot num d % 2 = 0) := by
  have hdm := Nat.div_add_mod num d
  have hlt := Nat.mod_lt num hd
  have hcases := roundQuot_cases (num := num) hd
  generalize roundQuot num d = R at hcases ⊢
  generalize num / d = q at *
  generalize num % d = t at *
  -- everything is linear in the products `q·d` and `j·d`
  have hnum : (num : Int) = (q : Int) * d + t := by
    have : (num : Int) = d * q + t := by exact_mod_cast hdm.symm
    rw [this]; ring
  have hc : ((2 * q + 1) * d : Int) = 2 * ((q : Int) * d) + d := by ring
  have place : (j ≤ (q : Int) - 1 ∧ j * d ≤ (q : Int) * d - d) ∨ (j = q ∧ j * d = (q : Int) * d) ∨
      (j = q + 1 ∧ j * d = (q : Int) * d + d) ∨ ((q : Int) + 2 ≤ j ∧ (q : Int) * d + 2 * d ≤ j * d) := by
    have hd' : (0 : Int) ≤ d := by omega
    rcases lt_trichotomy j (q : Int) with h | h | h
    · exact .inl ⟨by omega, by nlinarith⟩
    · exact .inr (.inl ⟨h, by rw [h]⟩)
    · by_cases h1 : j = q + 1
      · exact .inr (.inr (.inl ⟨h1, by rw [h1]; ring⟩))
      · exact .inr (.inr (.inr ⟨by omega, by nlinarith [show (q : Int) + 2 ≤ j by omega]⟩))
  generalize hQ : (q : Int) * d = Q at *
  generalize j * (d : Int) = J at *
  rcases hcases with ⟨hR, hle, htie⟩ | ⟨hR, hle, htie⟩
  · have hle' : 2 * (num : Int) ≤ 2 * Q + d := by rw [← hc]; exact_mod_cast hle
    have htie' : 2 * (num : Int) = 2 * Q + d → q % 2 = 0 := fun h => htie (by
      have : (2 * num : Int) = (2 * q + 1) * d := by rw [hc]; exact h
      exact_mod_cast this)
    rw [hR, hQ]
    rcases place with ⟨h1, h2⟩ | ⟨h1, h2⟩ | ⟨h1, h2⟩ | ⟨h1, h2⟩
    · exact ⟨by omega, fun h _ => by omega⟩
    · exact ⟨by omega, fun _ h => absurd h1 h⟩
    · exact ⟨by omega, fun h _ => htie' (by omega)⟩
    · exact ⟨by omega, fun h _ => by omega⟩
  · have hle' : 2 * Q + d ≤ 2 * (num : Int) := by rw [← hc]; exact_mod_cast hle
    have htie' : 2 * (num : Int) = 2 * Q + d → (q + 1) % 2 = 0 := fun h => htie (by
      have : (2 * num : Int) = (2 * q + 1) * d := by rw [hc]; exact h
      exact_mod_cast this)
    have hR' : ((q + 1 : Nat) : Int) * d = Q + d := by push_cast; rw [add_mul, hQ, one_mul]
    rw [hR, hR']
    rcases place with ⟨h1, h2⟩ | ⟨h1, h2⟩ | ⟨h1, h2⟩ | ⟨h1, h2⟩
    · exact ⟨by omega, fun h _ => by omega⟩
    · exact ⟨by omega, fun h _ => htie' (by omega)⟩
    · exact ⟨by omega, fun _ h => absurd (by push_cast; exact h1) h⟩
    · exact ⟨by omega, fun h _ => by omega⟩

/-! ### Rounding is correct -/

/-- What the rounding of `num / den` gives, before the overflow check: `r` multiples of 2^k, with `r`
within 24 bits and using all of them unless `k` is 0. -/
theorem round_shape {num den : Nat} (hden : 0 < den) :
    ∃ k r : Nat, r = roundQuot num (den * 2 ^ k) ∧ r ≤ 2 ^ 24 ∧ (k = 0 ∨ 2 ^ 23 ≤ r) ∧
      (k = 0 ∨ 2 ^ 23 * (den * 2 ^ k) ≤ num) ∧ num < 2 ^ 24 * (den * 2 ^ k) ∧
      roundBits num den = Nat.min (k * 2 ^ 23 + r) 0x7F800000 := by
  refine ⟨Nat.log2 (num / den) - 23, _, rfl, ?_⟩
  generalize hk : Nat.log2 (num / den) - 23 = k
  have hd : 0 < den * 2 ^ k := Nat.mul_pos hden (Nat.two_pow_pos _)
  have hdiv : num / (den * 2 ^ k) = num / den / 2 ^ k := (Nat.div_div_eq_div_mul _ _ _).symm
  have hq : num / den < 2 ^ (k + 24) ∧ (k = 0 ∨ 2 ^ (k + 23) ≤ num / den) := by
    by_cases h0 : num / den = 0
    · rw [h0]
      refine ⟨Nat.two_pow_pos _, .inl ?_⟩
      rw [← hk, h0]; decide
    · have h1 := Nat.log2_self_le h0
      have h2 : num / den < 2 ^ (Nat.log2 (num / den) + 1) := Nat.lt_log2_self
      constructor
      · exact Nat.lt_of_lt_of_le h2 (Nat.pow_le_pow_right (by decide) (by omega))
      · by_cases hk0 : k = 0
        · exact .inl hk0
        · right
          rw [show k + 23 = Nat.log2 (num / den) by omega]
          exact h1
  have hpow : 0 < 2 ^ k := Nat.two_pow_pos _
  have hlow : k = 0 ∨ 2 ^ 23 ≤ num / (den * 2 ^ k) := by
    rcases hq.2 with h | h
    · exact .inl h
    · right
      rw [hdiv, Nat.le_div_iff_mul_le hpow, ← Nat.pow_add, Nat.add_comm 23 k]
      exact h
  have hhigh : num / (den * 2 ^ k) < 2 ^ 24 := by
    rw [hdiv, Nat.div_lt_iff_lt_mul hpow, ← Nat.pow_add, Nat.add_comm 24 k]
    exact hq.1
  have hr := roundQuot_cases (num := num) hd
  refine ⟨by omega, by omega, ?_, ?_, ?_⟩
  · rcases hlow with h | h
    · exact .inl h
    · exact .inr (by rwa [Nat.le_div_iff_mul_le hd] at h)
  · rwa [Nat.div_lt_iff_lt_mul hd] at hhigh
  · rw [roundBits_eq, hk]

/-- In the top binade, with spacing `D`: the significand is rounded up out of it, to `N`, exactly from
the overflow bound `B` on. -/
theorem top_binade {D N q r num B : Nat} (hN : N % 2 = 0) (e : 2 * B + D = 2 * (N * D))
    (hq : q < N) (hup : num < (q + 1) * D)
    (h : (r = q ∧ 2 * num ≤ (2 * q + 1) * D ∧ (2 * num = (2 * q + 1) * D → q % 2 = 0)) ∨
      (r = q + 1 ∧ (2 * q + 1) * D ≤ 2 * num ∧ (2 * num = (2 * q + 1) * D → (q + 1) % 2 = 0))) :
    r = N ↔ B ≤ num := by
  have e1 : (2 * q + 1) * D + D = 2 * ((q + 1) * D) := by ring
  by_cases hqN : q + 1 = N
  · rw [hqN] at hup e1 h
    constructor
    · intro hr
      rcases h with ⟨h1, -, -⟩ | ⟨-, h2, -⟩ <;> omega
    · intro hB
      rcases h with ⟨-, h2, h3⟩ | ⟨h1, -, -⟩
      · have := h3 (by omega)
        omega
      · omega
  · have h5 := Nat.mul_le_mul_right D (show q + 2 ≤ N by omega)
    have e2 : (q + 2) * D = (q + 1) * D + D := by ring
    constructor
    · intro hr
      rcases h with ⟨h1, -, -⟩ | ⟨h1, -, -⟩ <;> omega
    · intro hB
      omega

/-- The overflow bound times a denominator, between the spacings of the binades. -/
theorem overflowBound_mul (den k : Nat) :
    (k < 253 → 2 ^ 24 * (den * 2 ^ k) ≤ overflowBound * den) ∧
    (k = 253 → 2 * (overflowBound * den) + den * 2 ^ k = 2 * (2 ^ 24 * (den * 2 ^ k))) ∧
    (253 < k → overflowBound * den ≤ 2 ^ 23 * (den * 2 ^ k)) := by
  have e : overflowBound * den = 33554431 * (den * 2 ^ 252) := by rw [overflowBound]; ring
  refine ⟨fun h => ?_, fun h => ?_, fun h => ?_⟩
  · have h1 : 2 ^ k ≤ 2 ^ 252 := Nat.pow_le_pow_right (by decide) (by omega)
    have h2 := Nat.mul_le_mul_left den h1
    rw [e]
    generalize den * 2 ^ k = x at *
    generalize den * 2 ^ 252 = y at *
    omega
  · have h1 : den * 2 ^ k = 2 * (den * 2 ^ 252) := by rw [h, two_pow_add_one 252]; ring
    rw [e, h1]
    generalize den * 2 ^ 252 = y
    omega
  · have key : ∀ x y : Nat, 4 * y ≤ x → 33554431 * (den * y) ≤ 2 ^ 23 * (den * x) := by
      intro x y hxy
      have h2 := Nat.mul_le_mul_left den hxy
      rw [show den * (4 * y) = 4 * (den * y) by ring] at h2
      omega
    have h1 : 2 ^ (252 + 1 + 1) ≤ 2 ^ k := Nat.pow_le_pow_right (by decide) (by omega)
    rw [two_pow_add_one, two_pow_add_one] at h1
    rw [e]
    exact key _ _ (by omega)

/-- When the rounded bits are those of an infinity (R14: nearest, with overflow to infinity). -/
theorem roundBits_overflow {num den : Nat} (hden : 0 < den) :
    roundBits num den = 0x7F800000 ↔ overflowBound * den ≤ num := by
  obtain ⟨k, r, hr, hr24, hk, hlo, hhi, hb⟩ := round_shape (num := num) hden
  have hd : 0 < den * 2 ^ k := Nat.mul_pos hden (Nat.two_pow_pos _)
  obtain ⟨hB1, hB2, hB3⟩ := overflowBound_mul den k
  have hiff : roundBits num den = 0x7F800000 ↔ 0x7F800000 ≤ k * 2 ^ 23 + r := by
    rw [hb]; simp only [Nat.min_def]; split <;> omega
  rw [hiff]
  rcases Nat.lt_trichotomy k 253 with h | h | h
  · have := hB1 h
    constructor <;> intro _ <;> omega
  · have hcases := roundQuot_cases (num := num) hd
    rw [← hr] at hcases
    have hq : num / (den * 2 ^ k) < 2 ^ 24 := by rwa [Nat.div_lt_iff_lt_mul hd]
    have hup : num < (num / (den * 2 ^ k) + 1) * (den * 2 ^ k) := by
      rw [Nat.add_mul, Nat.one_mul, Nat.mul_comm (num / _)]
      have h1 := Nat.div_add_mod num (den * 2 ^ k)
      have h2 := Nat.mod_lt num hd
      omega
    rw [← top_binade (by decide) (hB2 h) hq hup hcases]
    constructor <;> intro _ <;> omega
  · have := hB3 h
    have h1 := hlo.resolve_left (by omega)
    have h2 := hk.resolve_left (by omega)
    constructor <;> intro _ <;> omega

/-- A finite value, in terms of its magnitude. -/
theorem val_cases (w : Word) :
    (sign w = false ∧ val w = mag w) ∨ (sign w = true ∧ val w = -(mag w : Int)) := by
  unfold val
  cases h : sign w <;> simp

/-- A rounded value below the overflow bound: its magnitude and the parity of its fraction. -/
theorem roundSigned_finite (neg : Bool) {num den : Nat} (hden : 0 < den)
    (h : num < overflowBound * den) :
    ∃ k r : Nat, r = roundQuot num (den * 2 ^ k) ∧ (k = 0 ∨ 2 ^ 23 * (den * 2 ^ k) ≤ num) ∧
      isFinite (roundSigned neg num den) = true ∧ mag (roundSigned neg num den) = r * 2 ^ k ∧
      fracField (roundSigned neg num den) % 2 = r % 2 := by
  obtain ⟨k, r, hr, hr24, hk, hlo, -, hb⟩ := round_shape (num := num) hden
  have hne : roundBits num den ≠ 0x7F800000 := by
    rw [Ne, roundBits_overflow hden]; omega
  have hbits : roundBits num den = k * 2 ^ 23 + r := by
    rw [hb] at hne ⊢
    simp only [Nat.min_def] at hne ⊢
    split <;> simp_all
  have hlt : k * 2 ^ 23 + r < 0x7F800000 := by
    have := roundBits_le num den
    omega
  have hlt' : k * 2 ^ 23 + r < 2 ^ 31 := by omega
  refine ⟨k, r, hr, hlo, ?_, ?_, ?_⟩
  · rw [isFinite, roundSigned_eq, hbits, expField_signedBits neg hlt']
    simp; omega
  · rw [roundSigned_eq, hbits]; exact mag_signedBits neg hr24 hk hlt'
  · rw [roundSigned_eq, hbits, fracField_signedBits neg hlt']; omega

/-- A rounded value at or above the overflow bound is an infinity. -/
theorem roundSigned_infinite (neg : Bool) {num den : Nat} (hden : 0 < den)
    (h : overflowBound * den ≤ num) : isFinite (roundSigned neg num den) = false := by
  have hb := (roundBits_overflow hden).2 h
  rw [isFinite, roundSigned_eq, expField_signedBits neg (roundBits_lt num den), hb]
  decide

/-- Whether a rounded value is finite. -/
theorem isFinite_roundSigned (neg : Bool) {num den : Nat} (hden : 0 < den) :
    isFinite (roundSigned neg num den) = true ↔ num < overflowBound * den := by
  constructor
  · intro hf
    by_contra hc
    rw [roundSigned_infinite neg hden (by omega)] at hf
    cases hf
  · intro h
    obtain ⟨-, -, -, -, hf, -⟩ := roundSigned_finite neg hden h
    exact hf

/-- No finite magnitude, with either sign, is nearer to `num / den` than the rounded one. -/
theorem rounded_nearest {num den k : Nat} (hden : 0 < den)
    (hlo : k = 0 ∨ 2 ^ 23 * (den * 2 ^ k) ≤ num) (v : Word) (V : Int)
    (hV : V = mag v ∨ V = -(mag v : Int)) :
    ((roundQuot num (den * 2 ^ k) * 2 ^ k : Nat) * (den : Int) - num).natAbs ≤
        (V * den - num).natAbs ∧
      (((roundQuot num (den * 2 ^ k) * 2 ^ k : Nat) * (den : Int) - num).natAbs =
          (V * den - num).natAbs →
        V ≠ (roundQuot num (den * 2 ^ k) * 2 ^ k : Nat) →
          roundQuot num (den * 2 ^ k) % 2 = 0) := by
  have hd : 0 < den * 2 ^ k := Nat.mul_pos hden (Nat.two_pow_pos _)
  have hR : ((roundQuot num (den * 2 ^ k) * 2 ^ k : Nat) : Int) * (den : Int) =
      (roundQuot num (den * 2 ^ k) : Int) * ((den * 2 ^ k : Nat) : Int) := by
    push_cast; ring
  have grid : (∃ j : Int, V = j * 2 ^ k) ∨ (k ≠ 0 ∧ V * den < 2 ^ 23 * ((den * 2 ^ k : Nat) : Int)) := by
    rcases mag_grid v k with h | ⟨j, h⟩
    · by_cases hk : k = 0
      · exact .inl ⟨V, by rw [hk]; ring⟩
      · right
        refine ⟨hk, ?_⟩
        have h1 : mag v * den < 2 ^ 23 * 2 ^ k * den := Nat.mul_lt_mul_of_pos_right h hden
        have h2 : ((mag v * den : Nat) : Int) < ((2 ^ 23 * 2 ^ k * den : Nat) : Int) := by
          exact_mod_cast h1
        push_cast at h2 ⊢
        have h3 : (0 : Int) ≤ (mag v : Int) * den := by positivity
        have h4 : (2 : Int) ^ 23 * 2 ^ k * den = 2 ^ 23 * (den * 2 ^ k) := by ring
        rcases hV with rfl | rfl
        · linarith
        · linarith
    · left
      rcases hV with rfl | rfl
      · exact ⟨j, by rw [h]; push_cast; ring⟩
      · exact ⟨-j, by rw [h]; push_cast; ring⟩
  rcases grid with ⟨j, hj⟩ | ⟨hk, hlt⟩
  · have hn := roundQuot_nearest (num := num) hd j
    have hJ : V * (den : Int) = j * ((den * 2 ^ k : Nat) : Int) := by rw [hj]; push_cast; ring
    rw [hR, hJ]
    refine ⟨hn.1, fun he hne => hn.2 he fun hc => hne ?_⟩
    rw [hj, hc]; push_cast; ring
  · have hn := (roundQuot_nearest (num := num) hd (2 ^ 23)).1
    have hle : (2 : Int) ^ 23 * ((den * 2 ^ k : Nat) : Int) ≤ num := by
      exact_mod_cast hlo.resolve_left hk
    rw [hR]
    generalize (roundQuot num (den * 2 ^ k) : Int) * ((den * 2 ^ k : Nat) : Int) = A at *
    generalize (2 : Int) ^ 23 * ((den * 2 ^ k : Nat) : Int) = B at *
    generalize V * (den : Int) = C at *
    exact ⟨by omega, fun he _ => by omega⟩

/-- Rounding is correct (R14): to nearest, ties to even. -/
theorem nearest_roundSigned (neg : Bool) (num : Nat) {den : Nat} (hden : 0 < den) :
    Nearest (roundSigned neg num den) (if neg then -(num : Int) else num) den := by
  have habs : (if neg then -(num : Int) else num).natAbs = num := by cases neg <;> simp
  refine ⟨isNaN_roundSigned _ _ _, by rw [habs]; exact isFinite_roundSigned neg hden, ?_, ?_⟩
  · intro hf
    have hge : overflowBound * den ≤ num := by
      by_contra hc
      rw [(isFinite_roundSigned neg hden).2 (by omega)] at hf
      cases hf
    have hpos : 0 < overflowBound * den := Nat.mul_pos (by decide) hden
    rw [sign_roundSigned]
    cases neg
    · simp
    · simp; omega
  · intro hf v _
    obtain ⟨k, r, hr, hlo, -, hmag, hpar⟩ :=
      roundSigned_finite neg hden ((isFinite_roundSigned neg hden).1 hf)
    subst hr
    have hval : val (roundSigned neg num den) =
        if neg then -((roundQuot num (den * 2 ^ k) * 2 ^ k : Nat) : Int)
        else ((roundQuot num (den * 2 ^ k) * 2 ^ k : Nat) : Int) := by
      rw [val, sign_roundSigned, hmag]
    have hv := val_cases v
    rw [hval, hpar]
    cases neg
    · have hn := rounded_nearest hden hlo v (val v) (by rcases hv with h | h <;> simp [h.2])
      simpa using hn
    · have hn := rounded_nearest hden hlo v (-val v) (by rcases hv with h | h <;> simp [h.2])
      simp only [if_true]
      have e1 : ∀ a : Int, (-a * den - -(num : Int)).natAbs = (a * den - num).natAbs := by
        intro a
        rw [show -a * (den : Int) - -(num : Int) = -(a * den - num) by ring, Int.natAbs_neg]
      have e2 : (val v * den - -(num : Int)).natAbs = (-val v * den - num).natAbs := by
        rw [← e1, neg_neg]
      rw [e1, e2]
      exact ⟨hn.1, fun h1 h2 => hn.2 h1 fun h3 => h2 (by omega)⟩

/-- The magnitude of a finite value is below 2^277, that of an infinity is 2^277. -/
theorem mag_finite_lt {w : Word} (h : isFinite w = true) : mag w < 2 ^ 24 * 2 ^ 253 := by
  have hf := fracField_lt w
  have he := expField_lt w
  simp only [isFinite, bne_iff_ne, ne_eq] at h
  rw [mag]
  split
  · calc fracField w < 2 ^ 24 * 1 := by omega
      _ ≤ 2 ^ 24 * 2 ^ 253 := Nat.mul_le_mul_left _ Nat.one_le_two_pow
  · have h1 : 2 ^ (expField w - 1) ≤ 2 ^ 253 := Nat.pow_le_pow_right (by decide) (by omega)
    have h2 : 0 < 2 ^ (expField w - 1) := Nat.two_pow_pos _
    calc (2 ^ 23 + fracField w) * 2 ^ (expField w - 1)
        < 2 ^ 24 * 2 ^ (expField w - 1) := Nat.mul_lt_mul_of_pos_right (by omega) h2
      _ ≤ 2 ^ 24 * 2 ^ 253 := Nat.mul_le_mul_left _ h1

theorem mag_infinite {w : Word} (hn : isNaN w = false) (h : isFinite w = false) :
    mag w = 2 ^ 24 * 2 ^ 253 := by
  simp only [isFinite, bne_eq_false_iff_eq] at h
  have h0 : fracField w = 0 := by
    simpa [isNaN, h] using hn
  rw [mag, h, h0]
  decide

/-- A correctly rounded value does not pass a finite value that the exact value does not pass, from
above. -/
theorem Nearest.le {w v : Word} {num : Int} {den : Nat} (h : Nearest w num den) (hden : 0 < den)
    (hv : isFinite v = true) (hle : num ≤ val v * den) : val w ≤ val v := by
  obtain ⟨hn, hfin, hsign, hnear⟩ := h
  cases hf : isFinite w with
  | true =>
    by_contra hc
    have h1 := (hnear hf v hv).1
    have h2 : (val v + 1) * den ≤ val w * den :=
      mul_le_mul_of_nonneg_right (by omega) (by omega)
    rw [add_mul, one_mul] at h2
    generalize val w * (den : Int) = A at *
    generalize val v * (den : Int) = B at *
    omega
  | false =>
    have hm := mag_infinite hn hf
    have hv' := mag_finite_lt hv
    have hs := hsign hf
    rcases val_cases w with ⟨h1, h2⟩ | ⟨-, h2⟩
    · -- a positive infinity would need an exact value beyond every finite one
      exfalso
      rw [h1] at hs
      have hnum : 0 ≤ num := by simpa using hs.symm
      have hbig : overflowBound * den ≤ num.natAbs := by
        by_contra hc
        rw [hfin.2 (by omega)] at hf
        cases hf
      have hle' : (num.natAbs : Int) ≤ (mag v : Int) * den := by
        have : val v ≤ mag v := by rcases val_cases v with ⟨-, e⟩ | ⟨-, e⟩ <;> omega
        have h3 := mul_le_mul_of_nonneg_right this (show (0 : Int) ≤ den by omega)
        omega
      have hle'' : num.natAbs ≤ mag v * den := by exact_mod_cast hle'
      have h4 := Nat.le_trans hbig hle''
      have h5 := Nat.le_of_mul_le_mul_right h4 hden
      -- a finite magnitude at or above the bound is on the top grid, where there is none
      rcases mag_grid v 253 with h6 | ⟨j, h6⟩
      · have : 2 ^ 23 * 2 ^ 253 ≤ overflowBound := by decide
        omega
      · rw [h6] at h5 hv'
        have h7 : j < 2 ^ 24 := Nat.lt_of_mul_lt_mul_right hv'
        have h8 : j * 2 ^ 253 ≤ (2 ^ 24 - 1) * 2 ^ 253 := Nat.mul_le_mul_right _ (by omega)
        have h9 : (2 ^ 24 - 1) * 2 ^ 253 < overflowBound := by decide
        exact absurd (Nat.le_trans h5 h8) (Nat.not_le.2 h9)
    · have : -(mag v : Int) ≤ val v := by rcases val_cases v with ⟨-, e⟩ | ⟨-, e⟩ <;> omega
      rw [h2, hm]
      omega

/-! ### Sign flip -/

theorem expField_neg (w : Word) : expField (neg w) = expField w := by
  rw [expField, expField, neg, BitVec.extractLsb'_xor,
    show (0x80000000#32).extractLsb' 23 8 = 0#8 by decide, BitVec.xor_zero]

theorem fracField_neg (w : Word) : fracField (neg w) = fracField w := by
  rw [fracField, fracField, neg, BitVec.extractLsb'_xor,
    show (0x80000000#32).extractLsb' 0 23 = 0#23 by decide, BitVec.xor_zero]

@[simp] theorem sign_neg (w : Word) : sign (neg w) = !sign w := by
  rw [sign, sign, neg, BitVec.getLsbD_xor, show (0x80000000#32).getLsbD 31 = true by decide,
    Bool.xor_true]

@[simp] theorem mag_neg (w : Word) : mag (neg w) = mag w := by
  rw [mag, mag, expField_neg, fracField_neg]

@[simp] theorem isNaN_neg (w : Word) : isNaN (neg w) = isNaN w := by
  rw [isNaN, isNaN, expField_neg, fracField_neg]

@[simp] theorem isInf_neg (w : Word) : isInf (neg w) = isInf w := by
  rw [isInf, isInf, expField_neg, fracField_neg]

@[simp] theorem isFinite_neg (w : Word) : isFinite (neg w) = isFinite w := by
  rw [isFinite, isFinite, expField_neg]

@[simp] theorem val_neg (w : Word) : val (neg w) = -val w := by
  rw [val, val, sign_neg, mag_neg]
  cases sign w <;> simp

/-- The mirror image of a correctly rounded value. -/
theorem Nearest.neg {w : Word} {num : Int} {den : Nat} (h : Nearest w num den) (hden : 0 < den) :
    Nearest (F32.neg w) (-num) den := by
  obtain ⟨hn, hfin, hsign, hnear⟩ := h
  have e : ∀ a : Int, (-a * den - -num).natAbs = (a * den - num).natAbs := by
    intro a
    rw [show -a * (den : Int) - -num = -(a * den - num) by ring, Int.natAbs_neg]
  refine ⟨by simpa using hn, by simpa using hfin, fun hf => ?_, fun hf v hv => ?_⟩
  · rw [isFinite_neg] at hf
    have hpos : 0 < overflowBound * den := Nat.mul_pos (by decide) hden
    have hbig : ¬ num.natAbs < overflowBound * den := fun hc => by
      rw [hfin.2 hc] at hf; cases hf
    rw [sign_neg, hsign hf]
    by_cases h0 : num < 0
    · simp [h0]; omega
    · simp [h0]; omega
  · rw [isFinite_neg] at hf
    have h1 := hnear hf (F32.neg v) (by simpa using hv)
    rw [val_neg, e, fracField_neg]
    have e2 : (val v * den - -num).natAbs = (val (F32.neg v) * den - num).natAbs := by
      rw [← e, val_neg, neg_neg]
    rw [e2]
    exact ⟨h1.1, fun h2 h3 => h1.2 h2 fun h4 => h3 (by rw [val_neg] at h4; omega)⟩

/-- … and from below. -/
theorem Nearest.ge {w v : Word} {num : Int} {den : Nat} (h : Nearest w num den) (hden : 0 < den)
    (hv : isFinite v = true) (hle : val v * den ≤ num) : val v ≤ val w := by
  have := (h.neg hden).le hden (v := F32.neg v) (by simpa using hv) (by
    rw [val_neg, neg_mul]; omega)
  simpa using this

/-- A value that is a binary32 value is rounded to itself. -/
theorem Nearest.exact {w v : Word} {num : Int} {den : Nat} (h : Nearest w num den) (hden : 0 < den)
    (hv : isFinite v = true) (he : num = val v * den) : val w = val v :=
  le_antisymm (h.le hden hv (by omega)) (h.ge hden hv (by omega))

end Sys2Proof.F32
end

