-- ==== Sys2Proof/Laws/Network.lean ====
section
/-! SUPPORT. What step 9 of the sample step (43_network.md R240) writes, each value said in terms of the
state before the step: the absorbed value of a tap, the input of its diffuser, the value written into
its line; and the four write-backs together. -/

namespace Sys2Proof.Machine

/-! ### The values of one write-back -/

/-- The absorbed value of a tap: its one-pole in Linear mode (R162). -/
def State.tapAbsorbed (s : State) (t : Fin 4) (v a : Word) : Word :=
  onePole s.y[absorptionUnit t] v (linearCoefficient a)

/-- What goes into the allpass line of a tap, `inputPrime` (R165). -/
def State.tapDiffuserInput (s : State) (t : Fin 4) (v a d : Word) : Word :=
  F32.add (s.tapAbsorbed t v a) (allpassFeedback (s.allpassRead t) d)

/-- What goes into a tap line: the flushed allpass output (R243). -/
def State.tapWritten (s : State) (t : Fin 4) (v a d : Word) : Word :=
  F32.ftz (F32.add (s.allpassRead t) (allpassFeedforward (s.tapDiffuserInput t v a d) d))

theorem allpassRead_congr {s r : State} {t : Fin 4} (hc : r.cfg = s.cfg)
    (hl : r.lines[allpassLine t] = s.lines[allpassLine t]) : r.allpassRead t = s.allpassRead t := by
  simp only [State.allpassRead, State.allpassTime, hc]
  exact dlValue_congr hc hl _ _

/-- The three values depend on the tap's own filter state and allpass line, and the configuration. -/
theorem tapValues_congr {s r : State} {t : Fin 4} (hc : r.cfg = s.cfg)
    (hl : r.lines[allpassLine t] = s.lines[allpassLine t])
    (hy : r.y[absorptionUnit t] = s.y[absorptionUnit t]) (v a d : Word) :
    r.tapAbsorbed t v a = s.tapAbsorbed t v a ∧
      r.tapDiffuserInput t v a d = s.tapDiffuserInput t v a d ∧
      r.tapWritten t v a d = s.tapWritten t v a d := by
  have h0 : r.tapAbsorbed t v a = s.tapAbsorbed t v a := by simp only [State.tapAbsorbed, hy]
  have h1 : r.tapDiffuserInput t v a d = s.tapDiffuserInput t v a d := by
    simp only [State.tapDiffuserInput, h0, allpassRead_congr hc hl]
  exact ⟨h0, h1, by simp only [State.tapWritten, h1, allpassRead_congr hc hl]⟩

/-- One write-back, said whole: the one-pole, one push into the allpass line, one into the tap line. -/
theorem writeTap_eq (s : State) (t : Fin 4) (v a d : Word) :
    s.writeTap t v a d =
      ⟨((s.setY (absorptionUnit t) (s.tapAbsorbed t v a)).dlWrite (allpassLine t)
          (s.tapDiffuserInput t v a d)).dlWrite (tapLine t) (s.tapWritten t v a d),
        s.tapWritten t v a d,
        s.dlCauses (allpassLine t) (s.allpassTime t) s.cfg.apInterp⟩ := by
  have hr : ∀ w, (s.setY (absorptionUnit t) w).allpassRead t = s.allpassRead t :=
    fun w => allpassRead_congr rfl rfl
  have hc : ∀ w x m, (s.setY (absorptionUnit t) w).dlCauses (allpassLine t) x m =
      s.dlCauses (allpassLine t) x m := fun w x m => dlCauses_congr rfl _ _ _
  simp only [State.writeTap, State.opLin, State.opStep, State.apProcess, State.allpassInput,
    State.allpassOutput, hr, hc, State.tapWritten, State.tapDiffuserInput, State.tapAbsorbed,
    State.setY_y, State.setY_cfg, State.allpassTime, Fin.getElem_fin, Vector.getElem_set_self]

/-- The fields a write-back of tap `t` leaves for another tap `k`. -/
theorem writeTap_other (s : State) {t k : Fin 4} (h : k ≠ t) (v a d : Word) :
    (s.writeTap t v a d).state.cfg = s.cfg ∧
      (s.writeTap t v a d).state.lines[allpassLine k] = s.lines[allpassLine k] ∧
      (s.writeTap t v a d).state.lines[tapLine k] = s.lines[tapLine k] ∧
      (s.writeTap t v a d).state.y[absorptionUnit k] = s.y[absorptionUnit k] ∧
      (s.writeTap t v a d).state.y[4] = s.y[4] := by
  rw [writeTap_eq]
  revert t k
  simp only [State.dlWrite_cfg, State.dlWrite_lines, State.dlWrite_y, State.setY_cfg, State.setY_lines,
    State.setY_y, tapLine, allpassLine, absorptionUnit, Fin.getElem_fin]
  intro t k h
  have hk := k.isLt
  have ht := t.isLt
  have hv : k.val ≠ t.val := fun e => h (Fin.ext e)
  refine ⟨trivial, ?_, ?_, ?_, ?_⟩ <;> simp only [Vector.getElem_set] <;>
    repeat rw [if_neg (by omega)]

/-- The fields a write-back of tap `t` leaves of its own: the pushed lines and the absorbed value. -/
theorem writeTap_own (s : State) (t : Fin 4) (v a d : Word) :
    (s.writeTap t v a d).state.lines[allpassLine t] =
        s.lines[allpassLine t].push (s.cfg.length (allpassLine t)) (s.tapDiffuserInput t v a d) ∧
      (s.writeTap t v a d).state.lines[tapLine t] =
        s.lines[tapLine t].push (s.cfg.length (tapLine t)) (s.tapWritten t v a d) ∧
      (s.writeTap t v a d).state.y[absorptionUnit t] = s.tapAbsorbed t v a := by
  have ht := t.isLt
  rw [writeTap_eq]
  simp only [State.dlWrite_cfg, State.dlWrite_lines, State.dlWrite_y, State.setY_cfg, State.setY_lines,
    State.setY_y, tapLine, allpassLine, absorptionUnit, Fin.getElem_fin]
  refine ⟨?_, ?_, ?_⟩
  · rw [Vector.getElem_set, if_neg (by omega), Vector.getElem_set_self]
  · rw [Vector.getElem_set_self, Vector.getElem_set, if_neg (by omega)]
  · rw [Vector.getElem_set_self]

/-- What goes towards each tap (R241, R242): the scaled blend, with the input for taps 0 and 1 only. -/
theorem lineInputs_get (c : Config) (g : Word) (m : Vector Word 4) (o : FdnOperands) (i : Fin 4) :
    (lineInputs c g m o)[i] =
      if i.val < 2 then F32.add (softClip c g (F32.mul o.decay F32.half) m[i]) o.x
      else softClip c g (F32.mul o.decay F32.half) m[i] := by
  match i with
  | ⟨0, _⟩ => simp [lineInputs]
  | ⟨1, _⟩ => simp [lineInputs]
  | ⟨2, _⟩ => simp [lineInputs]
  | ⟨3, _⟩ => simp [lineInputs]

/-! ### The four write-backs -/

/-- What step 9 leaves for each tap, every value in terms of the state before it, and its causes. -/
theorem writeTaps_spec (s : State) (v : Vector Word 4) (a d : Word) :
    (∀ t : Fin 4,
      (s.writeTaps v a d).1.lines[allpassLine t] =
          s.lines[allpassLine t].push (s.cfg.length (allpassLine t))
            (s.tapDiffuserInput t v[t] a d) ∧
        (s.writeTaps v a d).1.lines[tapLine t] =
          s.lines[tapLine t].push (s.cfg.length (tapLine t)) (s.tapWritten t v[t] a d) ∧
        (s.writeTaps v a d).1.y[absorptionUnit t] = s.tapAbsorbed t v[t] a) ∧
      (s.writeTaps v a d).1.y[4] = s.y[4] ∧
      (s.writeTaps v a d).2 =
        s.dlCauses (allpassLine 0) (s.allpassTime 0) s.cfg.apInterp |||
          s.dlCauses (allpassLine 1) (s.allpassTime 1) s.cfg.apInterp |||
          s.dlCauses (allpassLine 2) (s.allpassTime 2) s.cfg.apInterp |||
          s.dlCauses (allpassLine 3) (s.allpassTime 3) s.cfg.apInterp := by
  obtain ⟨w0, e0⟩ : ∃ w, s.writeTap 0 v[0] a d = w := ⟨_, rfl⟩
  obtain ⟨w1, e1⟩ : ∃ w, w0.state.writeTap 1 v[1] a d = w := ⟨_, rfl⟩
  obtain ⟨w2, e2⟩ : ∃ w, w1.state.writeTap 2 v[2] a d = w := ⟨_, rfl⟩
  obtain ⟨w3, e3⟩ : ∃ w, w2.state.writeTap 3 v[3] a d = w := ⟨_, rfl⟩
  have h0 := fun k (h : k ≠ 0) => writeTap_other s (t := 0) (k := k) h v[0] a d
  have h1 := fun k (h : k ≠ 1) => writeTap_other w0.state (t := 1) (k := k) h v[1] a d
  have h2 := fun k (h : k ≠ 2) => writeTap_other w1.state (t := 2) (k := k) h v[2] a d
  have h3 := fun k (h : k ≠ 3) => writeTap_other w2.state (t := 3) (k := k) h v[3] a d
  have o0 := writeTap_own s 0 v[0] a d
  have o1 := writeTap_own w0.state 1 v[1] a d
  have o2 := writeTap_own w1.state 2 v[2] a d
  have o3 := writeTap_own w2.state 3 v[3] a d
  have c0 := congrArg Ran.causes (writeTap_eq s 0 v[0] a d)
  have c1 := congrArg Ran.causes (writeTap_eq w0.state 1 v[1] a d)
  have c2 := congrArg Ran.causes (writeTap_eq w1.state 2 v[2] a d)
  have c3 := congrArg Ran.causes (writeTap_eq w2.state 3 v[3] a d)
  rw [e0] at h0 o0 c0
  rw [e1] at h1 o1 c1
  rw [e2] at h2 o2 c2
  rw [e3] at h3 o3 c3
  have hw : s.writeTaps v a d = (w3.state, w0.causes ||| w1.causes ||| w2.causes ||| w3.causes) := by
    subst e0 e1 e2 e3; rfl
  have k0 := (h0 1 (by decide)).1
  have k1 := (h1 0 (by decide)).1.trans k0
  have k2 := (h2 0 (by decide)).1.trans k1
  have v1 := tapValues_congr (t := 1) k0 (h0 1 (by decide)).2.1 (h0 1 (by decide)).2.2.2.1 v[1] a d
  have v2 := tapValues_congr (t := 2) k1 ((h1 2 (by decide)).2.1.trans (h0 2 (by decide)).2.1)
    ((h1 2 (by decide)).2.2.2.1.trans (h0 2 (by decide)).2.2.2.1) v[2] a d
  have v3 := tapValues_congr (t := 3) k2
    (((h2 3 (by decide)).2.1.trans (h1 3 (by decide)).2.1).trans (h0 3 (by decide)).2.1)
    (((h2 3 (by decide)).2.2.2.1.trans (h1 3 (by decide)).2.2.2.1).trans
      (h0 3 (by decide)).2.2.2.1) v[3] a d
  rw [v1.1, v1.2.1, v1.2.2, k0, (h0 1 (by decide)).2.1, (h0 1 (by decide)).2.2.1] at o1
  rw [v2.1, v2.2.1, v2.2.2, k1, (h1 2 (by decide)).2.1, (h1 2 (by decide)).2.2.1,
    (h0 2 (by decide)).2.1, (h0 2 (by decide)).2.2.1] at o2
  rw [v3.1, v3.2.1, v3.2.2, k2, (h2 3 (by decide)).2.1, (h2 3 (by decide)).2.2.1,
    (h1 3 (by decide)).2.1, (h1 3 (by decide)).2.2.1, (h0 3 (by decide)).2.1,
    (h0 3 (by decide)).2.2.1] at o3
  have l0 : w3.state.lines[allpassLine 0] = w0.state.lines[allpassLine 0] ∧
      w3.state.lines[tapLine 0] = w0.state.lines[tapLine 0] ∧
      w3.state.y[absorptionUnit 0] = w0.state.y[absorptionUnit 0] := by
    have a3 := h3 0 (by decide); have a2 := h2 0 (by decide); have a1 := h1 0 (by decide)
    exact ⟨(a3.2.1.trans a2.2.1).trans a1.2.1, (a3.2.2.1.trans a2.2.2.1).trans a1.2.2.1,
      (a3.2.2.2.1.trans a2.2.2.2.1).trans a1.2.2.2.1⟩
  have l1 : w3.state.lines[allpassLine 1] = w1.state.lines[allpassLine 1] ∧
      w3.state.lines[tapLine 1] = w1.state.lines[tapLine 1] ∧
      w3.state.y[absorptionUnit 1] = w1.state.y[absorptionUnit 1] := by
    have a3 := h3 1 (by decide); have a2 := h2 1 (by decide)
    exact ⟨a3.2.1.trans a2.2.1, a3.2.2.1.trans a2.2.2.1, a3.2.2.2.1.trans a2.2.2.2.1⟩
  have l2 := h3 2 (by decide)
  rw [hw]
  refine ⟨fun t => ?_, ?_, ?_⟩
  · match t with
    | ⟨0, _⟩ => exact ⟨l0.1.trans o0.1, l0.2.1.trans o0.2.1, l0.2.2.trans o0.2.2⟩
    | ⟨1, _⟩ => exact ⟨l1.1.trans o1.1, l1.2.1.trans o1.2.1, l1.2.2.trans o1.2.2⟩
    | ⟨2, _⟩ => exact ⟨l2.2.1.trans o2.1, l2.2.2.1.trans o2.2.1, l2.2.2.2.1.trans o2.2.2⟩
    | ⟨3, _⟩ => exact o3
  · exact (((h3 0 (by decide)).2.2.2.2.trans (h2 0 (by decide)).2.2.2.2).trans
      (h1 0 (by decide)).2.2.2.2).trans (h0 1 (by decide)).2.2.2.2
  · have g1 := fun x m => dlCauses_congr (s := s) (t := w0.state) k0 (allpassLine 1) x m
    have g2 := fun x m => dlCauses_congr (s := s) (t := w1.state) k1 (allpassLine 2) x m
    have g3 := fun x m => dlCauses_congr (s := s) (t := w2.state) k2 (allpassLine 3) x m
    simp only [c0, c1, c2, c3, g1, g2, g3, State.allpassTime, k0, k1, k2]

end Sys2Proof.Machine
end

