-- ==== Sys2Proof/Laws/Port.lean ====
section
/-! SUPPORT. The register port: where each register of R32 is, and what a host transaction and a step can
do. -/

namespace Sys2Proof.Machine

/-! ### The register map -/

/-- The byte offset of a register in the table of R32; `none` for the reserved offsets. -/
def Reg.byteOffset : Reg → Option Nat
  | .id => some 0x000
  | .version => some 0x004
  | .cmd => some 0x008
  | .status => some 0x00C
  | .irqen => some 0x010
  | .cfgFs => some 0x014
  | .cfgSpms => some 0x018
  | .rng => some 0x01C
  | .opr i => some (0x020 + 4 * i.val)
  | .res0 => some 0x040
  | .res1 => some 0x044
  | .dbgPhase => some 0x080
  | .dbgY u => some (0x084 + 4 * u.val)
  | .dbgCursor u => some (0x0A0 + 4 * u.val)
  | .dbgLength u => some (0x0C0 + 4 * u.val)
  | .dbgGprev i => some (0x0E0 + 4 * i.val)
  | .dbgGoff i => some (0x100 + 4 * i.val)
  | .reserved => none

/-- An offset carries the register that the table puts there; the reserved offsets are the three holes of
the table. -/
theorem regAt_offset : ∀ a : BitVec 10,
    match (regAt a).byteOffset with
    | some n => a = regOffset n
    | none => (0x044 < 4 * a.toNat ∧ 4 * a.toNat < 0x080) ∨
        (0x094 < 4 * a.toNat ∧ 4 * a.toNat < 0x0A0) ∨ 0x11C < 4 * a.toNat := by
  have key : ∀ a : BitVec 10, (match (regAt a).byteOffset with
      | some n => a == regOffset n
      | none => (decide (0x044 < 4 * a.toNat) && decide (4 * a.toNat < 0x080)) ||
          (decide (0x094 < 4 * a.toNat) && decide (4 * a.toNat < 0x0A0)) ||
          decide (0x11C < 4 * a.toNat)) = true := by decide +kernel
  intro a
  have := key a
  split at this <;> simp_all [or_assoc]

/-! ### Host transactions -/

/-- What a host write can do: the one register it names changes, if any (R352, R35 to R43). -/
theorem hostWrite_cases (s : State) (a : BitVec 10) (v : Word) :
    s.hostWrite a v = s ∨
    (s.seq = .idle ∧ regAt a = .cmd ∧ s.hostWrite a v = s.accept v) ∨
    (s.seq ≠ .resetting ∧ regAt a = .status ∧ s.hostWrite a v = s.clearFlags v) ∨
    (s.seq ≠ .resetting ∧ regAt a = .irqen ∧ s.hostWrite a v = s.writeIrqen v) ∨
    (s.seq = .idle ∧ regAt a = .rng ∧ s.hostWrite a v = s.writeRng v) ∨
    (s.seq = .idle ∧ ∃ i, regAt a = .opr i ∧ s.hostWrite a v = s.writeOpr i v) ∨
    ((∃ c, s.seq = .running c) ∧ s.hostWrite a v = s.overrun) := by
  cases hs : s.seq <;> simp only [State.hostWrite, hs]
  · cases hr : regAt a <;> simp [State.writeIdle]
  · cases hr : regAt a <;> simp [State.writeBusy]
  · simp

/-- What a host read can do: it changes the read latch, and may take a free value (R68). -/
theorem hostRead_cases (s : State) (a : BitVec 10) :
    s.hostRead a = { s with rdata := s.regValue (regAt a) } ∨
    s.hostRead a = { s with rdata := Config.portDraw s.draws, draws := s.draws + 1 } := by
  simp only [State.hostRead]
  split <;> simp

/-- What a step does, by the next event. -/
theorem step_cases (s : State) :
    (s.events = [] ∧ step s = s.settle) ∨
    (∃ a rest, s.events = .read a :: rest ∧ step s = .next ((s.takeEvent rest).hostRead a)) ∨
    (∃ a v rest, s.events = .write a v :: rest ∧ step s = .next ((s.takeEvent rest).hostWrite a v)) ∨
    (∃ rest, s.events = .wait :: rest ∧ step s = (s.takeEvent rest).settle) ∨
    (∃ rest, s.events = .reset :: rest ∧ step s = .next (s.takeEvent rest).assertReset) := by
  cases h : s.events with
  | nil => exact .inl ⟨rfl, by simp [step, h]⟩
  | cons e rest =>
    cases e <;> simp [step, h, State.portEvent]

end Sys2Proof.Machine
end

