-- ==== Sys2Proof/Laws/Trig.lean ====
section
/-! SUPPORT. The reference functions have the properties P1, P2, P3, P4 and P7 of 00_scope.md R16, so the
hypotheses that claims make about a configuration's functions are met by the reference configuration.
(P5 and P6, monotone and accurate, are not proved here: log entry 4.) -/

namespace Sys2Proof

theorem sinT_reference (c : Config) (h : c.sinPatch = []) (p : Word) : c.sinT p = F32.refSin p := by
  simp [Config.sinT, patched, h]

theorem cosT_reference (c : Config) (h : c.cosPatch = []) (p : Word) : c.cosT p = F32.refCos p := by
  simp [Config.cosT, patched, h]

theorem tanh_reference (c : Config) (h : c.tanhPatch = []) (p : Word) :
    c.tanh p = F32.refTanh p := by
  simp [Config.tanh, patched, h]

namespace F32

/-! ### Quadrants -/

theorem unitsPerOne_pos : 0 < unitsPerOne := Nat.two_pow_pos _

theorem unitsPerOne_eq : unitsPerOne = 4 * quarterTurn := by decide

theorem quarterTurn_pos : 0 < quarterTurn := Nat.two_pow_pos _

theorem fixOne_pos : 0 < fixOne := Nat.two_pow_pos _

theorem quadrantSine_zero (neg : Bool) : quadrantSine neg 0 = zero := by simp [quadrantSine]

theorem quadrantSine_top (neg : Bool) :
    quadrantSine neg quarterTurn = roundSigned neg unitsPerOne 1 := by
  rw [quadrantSine, if_neg (Nat.ne_of_gt quarterTurn_pos), if_pos rfl]

theorem one_eq : roundSigned false unitsPerOne 1 = one := by decide +kernel

theorem neg_one_eq : roundSigned true unitsPerOne 1 = neg one := by decide +kernel

/-- The exact values at the four quarter points (P1). -/
theorem turnSine_quarter (n : Nat) :
    turnSine n 0 = if n % 4 = 1 then one else if n % 4 = 3 then neg one else zero := by
  have h : n % 4 = 0 ∨ n % 4 = 1 ∨ n % 4 = 2 ∨ n % 4 = 3 := by omega
  rw [turnSine]
  rcases h with h | h | h | h <;>
    simp [h, quadrantSine_zero, quadrantSine_top, one_eq, neg_one_eq]

/-- The units of a phase inside its turn. -/
def turnPart (p : Word) : Nat := (val p % (unitsPerOne : Int)).toNat

theorem refCos_finite {p : Word} (h : isFinite p = true) :
    refCos p = turnSine (turnPart p / quarterTurn + 1) (turnPart p % quarterTurn) := by
  simp [refCos, h, turnPart]

theorem refSin_finite {p : Word} (h : isFinite p = true) (h0 : mag p ≠ 0) :
    refSin p = turnSine (turnPart p / quarterTurn) (turnPart p % quarterTurn) := by
  simp [refSin, h, h0, turnPart]

theorem val_eq_zero {p : Word} : val p = 0 ↔ mag p = 0 := by
  rcases val_cases p with ⟨-, h⟩ | ⟨-, h⟩ <;> omega

/-- The quarter of a phase that is a whole number of quarter turns. -/
theorem turnPart_quarter {p : Word} {n : Int} (h : val p * 4 = n * (unitsPerOne : Int)) :
    turnPart p / quarterTurn = (n % 4).toNat ∧ turnPart p % quarterTurn = 0 := by
  have hq := quarterTurn_pos
  rw [unitsPerOne_eq] at h
  have hv : val p = n * (quarterTurn : Int) := by push_cast at h; linarith
  have hm : val p % (unitsPerOne : Int) = (n % 4) * (quarterTurn : Int) := by
    rw [hv, unitsPerOne_eq]
    push_cast
    rw [Int.mul_comm 4, Int.mul_comm n, Int.mul_emod_mul_of_pos _ _ (by exact_mod_cast hq), Int.mul_comm]
  have hn : ((n % 4).toNat : Int) = n % 4 := Int.toNat_of_nonneg (Int.emod_nonneg _ (by decide))
  have ht : turnPart p = (n % 4).toNat * quarterTurn := by
    rw [turnPart, hm, ← hn]
    exact_mod_cast rfl
  rw [ht]
  exact ⟨Nat.mul_div_cancel _ hq, Nat.mul_mod_left _ _⟩

theorem eq_self {w : Word} (h : isNaN w = false) : eq w w = true := by simp [eq, h]

theorem isNaN_of_isFinite {w : Word} (h : isFinite w = true) : isNaN w = false := by
  simp only [isFinite, bne_iff_ne] at h
  simp [isNaN, h]

theorem eq_zero_of_mag {w : Word} (hf : isFinite w = true) (h : mag w = 0) : eq w zero = true := by
  have hz : val zero = 0 := by decide
  simp [eq, isNaN_of_isFinite hf, val_eq_zero.2 h, hz, show isNaN zero = false by decide]

/-! ### Bounds -/

/-- A rounded value is at most a finite value that the exact value does not exceed. -/
theorem roundSigned_mag_le (neg : Bool) {num den : Nat} (hden : 0 < den)
    (h : num ≤ unitsPerOne * den) : le (abs (roundSigned neg num den)) one = true := by
  have hmag : mag (roundSigned neg num den) ≤ unitsPerOne := by
    have hone : val one = unitsPerOne := by decide
    have hn := nearest_roundSigned false num hden
    have := hn.le hden (v := one) (by decide) (by
      rw [hone]; simp only [Bool.false_eq_true, if_false]; exact_mod_cast h)
    rw [hone] at this
    have e : mag (roundSigned neg num den) = mag (roundSigned false num den) := by
      rw [mag, mag, roundSigned_eq, roundSigned_eq, expField_signedBits _ (roundBits_lt _ _),
        expField_signedBits _ (roundBits_lt _ _), fracField_signedBits _ (roundBits_lt _ _),
        fracField_signedBits _ (roundBits_lt _ _)]
    rw [e]
    rw [val, sign_roundSigned] at this
    simpa using this
  have hfields : expField (abs (roundSigned neg num den)) = expField (roundSigned neg num den) ∧
      fracField (abs (roundSigned neg num den)) = fracField (roundSigned neg num den) ∧
      sign (abs (roundSigned neg num den)) = false := by
    refine ⟨?_, ?_, ?_⟩
    · rw [expField, expField, abs, BitVec.extractLsb'_and,
        show (0x7FFFFFFF#32).extractLsb' 23 8 = BitVec.allOnes 8 by decide, BitVec.and_allOnes]
    · rw [fracField, fracField, abs, BitVec.extractLsb'_and,
        show (0x7FFFFFFF#32).extractLsb' 0 23 = BitVec.allOnes 23 by decide, BitVec.and_allOnes]
    · rw [sign, abs, BitVec.getLsbD_and]; simp
  obtain ⟨h1, h2, h3⟩ := hfields
  have hn : isNaN (abs (roundSigned neg num den)) = false := by
    have := isNaN_roundSigned neg num den
    rw [isNaN] at this ⊢
    rw [h1, h2]; exact this
  have hv : val (abs (roundSigned neg num den)) = mag (roundSigned neg num den) := by
    rw [val, h3, mag, mag, h1, h2]; simp
  rw [le, hn, hv]
  have : val one = unitsPerOne := by decide
  simp [this, show isNaN one = false by decide]
  exact_mod_cast hmag

theorem quadrantSine_le (neg : Bool) (z : Nat) : le (abs (quadrantSine neg z)) one = true := by
  rw [quadrantSine]
  split
  · decide +kernel
  · split
    · exact roundSigned_mag_le neg (by decide) (by omega)
    · refine roundSigned_mag_le neg fixOne_pos ?_
      rw [Nat.mul_comm]
      exact Nat.mul_le_mul_left _ (Nat.min_le_left _ _)

theorem turnSine_le (n z : Nat) : le (abs (turnSine n z)) one = true := by
  rw [turnSine]
  split <;> exact quadrantSine_le _ _

theorem isNaN_quadrantSine (neg : Bool) (z : Nat) : isNaN (quadrantSine neg z) = false := by
  rw [quadrantSine]
  split
  · decide
  · split <;> exact isNaN_roundSigned _ _ _

theorem isNaN_turnSine (n z : Nat) : isNaN (turnSine n z) = false := by
  rw [turnSine]
  split <;> exact isNaN_quadrantSine _ _

theorem positiveSeries_pos (x2 : Nat) (fuel n : Nat) : 0 < positiveSeries x2 fuel n := by
  cases fuel with
  | zero => exact fixOne_pos
  | succ f => exact Nat.add_pos_left fixOne_pos _

/-! ### Oddness -/

/-- Rounding commutes with a change of sign. -/
theorem roundSigned_not (b : Bool) (num den : Nat) :
    eq (roundSigned (!b) num den) (neg (roundSigned b num den)) = true := by
  have hv : val (roundSigned (!b) num den) = val (neg (roundSigned b num den)) := by
    rw [val_neg, val, val, sign_roundSigned, sign_roundSigned, mag, mag, roundSigned_eq,
      roundSigned_eq, expField_signedBits _ (roundBits_lt _ _),
      expField_signedBits _ (roundBits_lt _ _), fracField_signedBits _ (roundBits_lt _ _),
      fracField_signedBits _ (roundBits_lt _ _)]
    cases b <;> simp
  simp [eq, isNaN_roundSigned, hv]

theorem quadrantSine_not (b : Bool) (z : Nat) :
    eq (quadrantSine (!b) z) (neg (quadrantSine b z)) = true := by
  rw [quadrantSine, quadrantSine]
  split
  · decide
  · split <;> exact roundSigned_not _ _ _

/-- The part of a turn of the negated phase. -/
theorem turnPart_neg (p : Word) :
    turnPart (neg p) = if turnPart p = 0 then 0 else unitsPerOne - turnPart p := by
  have hU : (0 : Int) < unitsPerOne := by exact_mod_cast unitsPerOne_pos
  have h0 := Int.emod_nonneg (val p) hU.ne'
  have h1 := Int.emod_lt_of_pos (val p) hU
  rw [turnPart, turnPart, val_neg]
  rw [Int.neg_emod]
  generalize hz : val p % (unitsPerOne : Int) = z at *
  have hd : ((unitsPerOne : Int) ∣ val p) ↔ z = 0 := by rw [← hz]; exact Int.dvd_iff_emod_eq_zero
  simp only [hd, Int.natAbs_natCast]
  by_cases hz0 : z = 0
  · simp [hz0]
  · rw [if_neg hz0, if_neg (by omega)]
    generalize unitsPerOne = U at *
    omega

theorem turnSine_neg {z : Nat} (hz : z < unitsPerOne) :
    eq (turnSine ((if z = 0 then 0 else unitsPerOne - z) / quarterTurn)
        ((if z = 0 then 0 else unitsPerOne - z) % quarterTurn))
      (neg (turnSine (z / quarterTurn) (z % quarterTurn))) = true := by
  have hq := quarterTurn_pos
  have hU : unitsPerOne = 4 * quarterTurn := unitsPerOne_eq
  have hzero : quadrantSine true 0 = zero ∧ quadrantSine false 0 = zero := by
    constructor <;> simp [quadrantSine]
  have hneg : ∀ z, eq (quadrantSine true z) (neg (quadrantSine false z)) = true :=
    quadrantSine_not false
  have hpos : ∀ z, eq (quadrantSine false z) (neg (quadrantSine true z)) = true :=
    quadrantSine_not true
  have h00 : eq zero (neg zero) = true := by decide
  obtain ⟨n, r, rfl, hr, hn⟩ : ∃ n r, z = n * quarterTurn + r ∧ r < quarterTurn ∧ n < 4 :=
    ⟨z / quarterTurn, z % quarterTurn, (Nat.div_add_mod' z _).symm, Nat.mod_lt _ hq,
      Nat.div_lt_of_lt_mul (by omega)⟩
  have hdiv : ∀ m s, s < quarterTurn → (m * quarterTurn + s) / quarterTurn = m ∧
      (m * quarterTurn + s) % quarterTurn = s := by
    intro m s hs
    rw [Nat.mul_comm]
    exact ⟨by rw [Nat.mul_add_div hq, Nat.div_eq_of_lt hs, Nat.add_zero], by
      rw [Nat.mul_add_mod, Nat.mod_eq_of_lt hs]⟩
  have key : ∀ m s, s < quarterTurn → m * quarterTurn + s =
      (if n * quarterTurn + r = 0 then 0 else unitsPerOne - (n * quarterTurn + r)) →
      eq (turnSine m s) (neg (turnSine n r)) = true →
      eq (turnSine ((if n * quarterTurn + r = 0 then 0 else unitsPerOne - (n * quarterTurn + r)) /
          quarterTurn)
        ((if n * quarterTurn + r = 0 then 0 else unitsPerOne - (n * quarterTurn + r)) % quarterTurn))
      (neg (turnSine ((n * quarterTurn + r) / quarterTurn)
        ((n * quarterTurn + r) % quarterTurn))) = true := by
    intro m s hs he h
    rw [← he, (hdiv m s hs).1, (hdiv m s hs).2, (hdiv n r hr).1, (hdiv n r hr).2]
    exact h
  by_cases hr0 : r = 0
  · subst hr0
    by_cases hn0 : n = 0
    · subst hn0
      refine key 0 0 hq (by simp) ?_
      simp [turnSine, hzero, h00]
    · have hne : n * quarterTurn + 0 ≠ 0 := by
        have := Nat.mul_pos (Nat.pos_of_ne_zero hn0) hq
        omega
      refine key (4 - n) 0 hq ?_ ?_
      · rw [if_neg hne, hU, Nat.sub_mul, Nat.add_zero, Nat.add_zero]
      · have : n = 1 ∨ n = 2 ∨ n = 3 := by omega
        rcases this with rfl | rfl | rfl
        · simpa [turnSine] using hneg quarterTurn
        · simp [turnSine, hzero, h00]
        · simpa [turnSine] using hpos quarterTurn
  · refine key (3 - n) (quarterTurn - r) (by omega) ?_ ?_
    · rw [if_neg (by omega), hU, Nat.sub_mul]
      have : n * quarterTurn ≤ 3 * quarterTurn := Nat.mul_le_mul_right _ (by omega)
      omega
    · have hrr : quarterTurn - (quarterTurn - r) = r := by omega
      have : n = 0 ∨ n = 1 ∨ n = 2 ∨ n = 3 := by omega
      rcases this with rfl | rfl | rfl | rfl <;>
        simp [turnSine, hrr, hneg, hpos]

end F32

/-! ### The properties, of every configuration that keeps the reference functions -/

/-- A configuration whose functions are the reference functions. -/
def Config.usesReference (c : Config) : Prop := c.sinPatch = [] ∧ c.cosPatch = [] ∧ c.tanhPatch = []

theorem quarterPointsExact_of_reference {c : Config} (h : c.usesReference) :
    c.QuarterPointsExact := by
  obtain ⟨hs, hc, -⟩ := h
  refine ⟨fun p hp n hn => ?_, by rw [sinT_reference c hs]; decide, by
    rw [sinT_reference c hs]; decide⟩
  obtain ⟨h1, h2⟩ := F32.turnPart_quarter hn
  rw [sinT_reference c hs, cosT_reference c hc, F32.refCos_finite hp, h1, h2, F32.turnSine_quarter]
  have hz : F32.eq F32.zero F32.zero = true := by decide
  have ho : F32.eq F32.one F32.one = true := by decide
  have hm : F32.eq (F32.neg F32.one) (F32.neg F32.one) = true := by decide
  have sinCase : F32.mag p = 0 → n = 0 := by
    intro h0
    rw [F32.val_eq_zero.2 h0] at hn
    have := F32.unitsPerOne_pos
    rcases mul_eq_zero.1 (show n * (F32.unitsPerOne : Int) = 0 by omega) with h3 | h3 <;> omega
  have sinVal : F32.mag p ≠ 0 → F32.refSin p =
      if (n % 4).toNat % 4 = 1 then F32.one else if (n % 4).toNat % 4 = 3 then F32.neg F32.one
      else F32.zero := by
    intro h0
    rw [F32.refSin_finite hp h0, h1, h2, F32.turnSine_quarter]
  have hsz : F32.mag p = 0 → F32.eq (F32.refSin p) F32.zero = true := by
    intro h0
    have : F32.refSin p = p := by simp [F32.refSin, hp, h0]
    rw [this]
    exact F32.eq_zero_of_mag hp h0
  by_cases h0 : F32.mag p = 0
  · have hn0 := sinCase h0
    subst hn0
    simp [hsz h0, ho]
  · rw [sinVal h0]
    refine ⟨fun h4 => ?_, fun h4 => ?_, fun h4 => ?_, fun h4 => ?_⟩ <;>
      simp [h4, hz, ho, hm]

theorem periodic_of_reference {c : Config} (h : c.usesReference) : c.Periodic := by
  obtain ⟨hs, hc, -⟩ := h
  intro p q hp hq hpq
  have hpart : F32.turnPart q = F32.turnPart p := by
    rw [F32.turnPart, F32.turnPart, hpq, Int.add_emod_right]
  have num : ∀ n z, F32.eq (F32.turnSine n z) (F32.turnSine n z) = true := by
    intro n z
    exact F32.eq_self (F32.isNaN_turnSine n z)
  have zeroSine : ∀ x, F32.isFinite x = true → F32.mag x = 0 → F32.turnPart x = 0 := by
    intro x _ h0
    rw [F32.turnPart, F32.val_eq_zero.2 h0]; decide
  have sinEq : ∀ x y, F32.isFinite x = true → F32.isFinite y = true →
      F32.turnPart x = F32.turnPart y → F32.eq (F32.refSin x) (F32.refSin y) = true := by
    intro x y hx hy hxy
    have zeroTurn : F32.turnSine (0 / F32.quarterTurn) (0 % F32.quarterTurn) = F32.zero := by decide
    by_cases hx0 : F32.mag x = 0 <;> by_cases hy0 : F32.mag y = 0
    · simp [F32.refSin, hx, hy, hx0, hy0, F32.eq, F32.isNaN_of_isFinite hx, F32.isNaN_of_isFinite hy,
        F32.val_eq_zero.2 hx0, F32.val_eq_zero.2 hy0]
    · rw [F32.refSin_finite hy hy0, ← hxy, zeroSine x hx hx0, zeroTurn]
      have : F32.refSin x = x := by simp [F32.refSin, hx, hx0]
      rw [this]; exact F32.eq_zero_of_mag hx hx0
    · rw [F32.refSin_finite hx hx0, hxy, zeroSine y hy hy0, zeroTurn]
      have : F32.refSin y = y := by simp [F32.refSin, hy, hy0]
      rw [this]
      have := F32.eq_zero_of_mag hy hy0
      simp only [F32.eq, Bool.and_eq_true, decide_eq_true_eq] at this ⊢
      exact ⟨⟨this.1.2, this.1.1⟩, this.2.symm⟩
    · rw [F32.refSin_finite hx hx0, F32.refSin_finite hy hy0, hxy]
      exact num _ _
  constructor
  · rw [sinT_reference c hs, sinT_reference c hs]
    exact sinEq q p hq hp hpart
  · rw [cosT_reference c hc, cosT_reference c hc, F32.refCos_finite hq, F32.refCos_finite hp, hpart]
    exact num _ _

theorem bounded_of_reference {c : Config} (h : c.usesReference) : c.Bounded := by
  obtain ⟨hs, hc, ht⟩ := h
  intro p
  refine ⟨fun hp => ⟨?_, ?_⟩, fun hp => ?_⟩
  · rw [sinT_reference c hs]
    by_cases h0 : F32.mag p = 0
    · have : F32.refSin p = p := by simp [F32.refSin, hp, h0]
      have hz := F32.eq_zero_of_mag hp h0
      rw [this]
      have e : p = F32.zero ∨ p = F32.neg F32.zero := by
        have h1 := F32.fracField_eq p
        have h2 := F32.expField_eq p
        have hw := p.isLt
        rw [F32.mag] at h0
        split at h0
        · have : p.toNat = 0 ∨ p.toNat = 2 ^ 31 := by omega
          rcases this with h3 | h3
          · left; exact BitVec.eq_of_toNat_eq h3
          · right; exact BitVec.eq_of_toNat_eq h3
        · have := Nat.two_pow_pos (F32.expField p - 1)
          rcases Nat.mul_eq_zero.1 h0 with h3 | h3 <;> omega
      rcases e with rfl | rfl <;> decide
    · rw [F32.refSin_finite hp h0]; exact F32.turnSine_le _ _
  · rw [cosT_reference c hc, F32.refCos_finite hp]; exact F32.turnSine_le _ _
  · rw [tanh_reference c ht, F32.refTanh, if_neg (by simp [hp])]
    split
    · exact F32.roundSigned_mag_le _ (by decide) (by omega)
    · exact F32.roundSigned_mag_le _ (F32.positiveSeries_pos _ _ _) (Nat.min_le_right _ _)

theorem odd_of_reference {c : Config} (h : c.usesReference) : c.Odd := by
  obtain ⟨hs, hc, ht⟩ := h
  refine ⟨fun p hp => ?_, fun x hx => ?_, by rw [tanh_reference c ht]; decide +kernel, by
    rw [tanh_reference c ht]; decide +kernel⟩
  · have hp' : F32.isFinite (F32.neg p) = true := by rw [F32.isFinite_neg, hp]
    have hv := F32.val_neg p
    rw [sinT_reference c hs, sinT_reference c hs]
    by_cases h0 : F32.mag p = 0
    · have h0' : F32.mag (F32.neg p) = 0 := by
        rw [← F32.val_eq_zero, hv, F32.val_eq_zero.2 h0]; rfl
      have e1 : F32.refSin p = p := by simp [F32.refSin, hp, h0]
      have e2 : F32.refSin (F32.neg p) = F32.neg p := by simp [F32.refSin, hp', h0']
      rw [e1, e2]
      exact F32.eq_self (F32.isNaN_of_isFinite hp')
    · have h0' : F32.mag (F32.neg p) ≠ 0 := by
        rw [ne_eq, ← F32.val_eq_zero, hv, neg_eq_zero, F32.val_eq_zero]; exact h0
      rw [F32.refSin_finite hp h0, F32.refSin_finite hp' h0', F32.turnPart_neg]
      refine F32.turnSine_neg ?_
      have hU : (0 : Int) < F32.unitsPerOne := by exact_mod_cast F32.unitsPerOne_pos
      have h1 := Int.emod_lt_of_pos (F32.val p) hU
      have h2 := Int.emod_nonneg (F32.val p) hU.ne'
      rw [F32.turnPart]
      omega
  · have hx' : F32.isNaN (F32.neg x) = false := by rw [F32.isNaN_neg, hx]
    simp only [tanh_reference c ht, F32.refTanh, hx, hx', F32.mag_neg, F32.sign_neg,
      Bool.false_eq_true, if_false]
    split <;> exact F32.roundSigned_not _ _ _

theorem nonFinite_of_reference {c : Config} (h : c.usesReference) : c.NonFiniteToNaN := by
  obtain ⟨hs, hc, ht⟩ := h
  intro p hp
  refine ⟨?_, ?_, fun hn => ?_, fun hn => ?_⟩
  · rw [sinT_reference c hs]; simp [F32.refSin, hp]
  · rw [cosT_reference c hc]; simp [F32.refCos, hp]
  · rw [tanh_reference c ht]; simp [F32.refTanh, hn]
  · rw [tanh_reference c ht, F32.refTanh, if_neg (by simp [hn]), if_pos]
    · cases F32.sign p
      · simpa using F32.one_eq
      · simpa using F32.neg_one_eq
    · rw [F32.mag_infinite hn hp]; decide

end Sys2Proof
end

