-- ==== Sys2Proof/Laws/Words.lean ====
section
/-! SUPPORT. Words and values: a finite value other than 0 has one word, every 24-bit significand and every
integer up to 2^24 is a value, integral values convert exactly, and integer parts are values. -/

namespace Sys2Proof.F32

/-- A finite value is no infinity. -/
theorem not_inf {a : Word} (h : isFinite a = true) : isInf a = false := by
  simp only [isFinite, bne_iff_ne] at h; simp [isInf, h]

/-- Rounding an integral number of units is rounding its signed value. -/
theorem nearest_of_int (n : Int) (neg : Bool) (h : n ≠ 0 → neg = decide (n < 0)) :
    Nearest (roundSigned neg n.natAbs 1) n 1 := by
  have := nearest_roundSigned neg n.natAbs (den := 1) (by decide)
  have e : (if neg = true then -((n.natAbs : Nat) : Int) else ((n.natAbs : Nat): Int)) = n := by
    by_cases h0 : n = 0
    · subst h0; cases neg <;> rfl
    · rw [h h0]; simp only [decide_eq_true_eq]; split <;> omega
  rwa [e] at this

/-- Two words of the same value, which is not 0, are the same word: the finite values are written one
way only. -/
theorem eq_of_val {a b : Word} (h : val a = val b) (h0 : val a ≠ 0) : a = b := by
  have hs : sign a = sign b := by
    rcases val_cases a with ⟨h1, h2⟩ | ⟨h1, h2⟩ <;>
      rcases val_cases b with ⟨h3, h4⟩ | ⟨h3, h4⟩ <;> rw [h1, h3] <;> omega
  have hm : mag a = mag b := by
    rcases val_cases a with ⟨h1, h2⟩ | ⟨h1, h2⟩ <;>
      rcases val_cases b with ⟨h3, h4⟩ | ⟨h3, h4⟩ <;> omega
  have fa := fracField_lt a; have fb := fracField_lt b
  have he : expField a = expField b ∧ fracField a = fracField b := by
    rw [mag, mag] at hm
    have grow : ∀ (f g i j : Nat), f < 2^23 → g < 2^23 → i < j → (2^23+f)*2^i < (2^23+g)*2^j := by
      intro f g i j hf hg hij
      obtain ⟨k, rfl⟩ := Nat.exists_eq_add_of_lt hij
      have e : 2^(i+k+1) = 2 * 2^k * 2^i := by rw [pow_succ, pow_add]; ring
      rw [e]
      have h1 : 1 ≤ 2^k := Nat.one_le_two_pow
      have h2 : 0 < 2^i := Nat.two_pow_pos i
      calc (2^23+f)*2^i < 2^24 * 2^i := Nat.mul_lt_mul_of_pos_right (by omega) h2
        _ = (2^23 * 2 * 1) * 2^i := by ring
        _ ≤ ((2^23+g) * 2 * 2^k) * 2^i := Nat.mul_le_mul_right _ (Nat.mul_le_mul (by omega) h1)
        _ = _ := by ring
    split at hm <;> split at hm
    · omega
    · rename_i h1 h2; exfalso
      have : 2^23 + fracField b ≤ (2^23 + fracField b) * 2^(expField b - 1) :=
        Nat.le_mul_of_pos_right _ (Nat.two_pow_pos _)
      omega
    · rename_i h1 h2; exfalso
      have : 2^23 + fracField a ≤ (2^23 + fracField a) * 2^(expField a - 1) :=
        Nat.le_mul_of_pos_right _ (Nat.two_pow_pos _)
      omega
    · rcases Nat.lt_trichotomy (expField a - 1) (expField b - 1) with h | h | h
      · have := grow _ (fracField b) _ _ fa fb h; omega
      · rw [h] at hm; have := Nat.eq_of_mul_eq_mul_right (Nat.two_pow_pos _) hm; omega
      · have := grow _ (fracField a) _ _ fb fa h; omega
  have sa := sign_eq a; have sb := sign_eq b
  have ea := expField_eq a; have eb := expField_eq b
  have ga := fracField_eq a; have gb := fracField_eq b
  have la := a.isLt; have lb := b.isLt
  apply BitVec.eq_of_toNat_eq
  have hs' : (2^31 ≤ a.toNat) ↔ (2^31 ≤ b.toNat) := by
    rw [sa, sb] at hs; simpa using hs
  omega

/-- An integer that is a binary32 value converts exactly. -/
theorem exact_int {n : Int} (h : ∃ v : Word, isFinite v = true ∧ val v = n * unitsPerOne) :
    val (ofInt n) = n * unitsPerOne ∧ isFinite (ofInt n) = true := by
  obtain ⟨v, hv, he⟩ := h
  have hn : Nearest (ofInt n) (n * unitsPerOne) 1 := by
    have := nearest_of_int (n * unitsPerOne) (decide (n < 0)) (fun h => by
      have := unitsPerOne_pos
      have : (n * (unitsPerOne:Int) < 0) ↔ n < 0 := by
        constructor
        · intro h; by_contra hc; nlinarith
        · intro h; nlinarith
      simp [this])
    rwa [Int.natAbs_mul, Int.natAbs_natCast] at this
  refine ⟨(hn.exact (by decide) hv (by rw [he]; simp)).trans he, ?_⟩
  rw [hn.2.1]
  rw [← he]
  have := mag_finite_lt hv
  have hvm : (val v).natAbs = mag v := by rcases val_cases v with ⟨_, h⟩ | ⟨_, h⟩ <;> omega
  rw [hvm]
  have hg : mag v ≤ (2^24-1) * 2^253 := by
    rcases mag_grid v 253 with h | ⟨j, h⟩
    · omega
    · rw [h] at this ⊢
      have : j < 2^24 := by
        by_contra hc
        have : 2^24*2^253 ≤ j * 2^253 := Nat.mul_le_mul_right _ (by omega)
        omega
      exact Nat.mul_le_mul_right _ (by omega)
  have : (2^24-1)*2^253 < overflowBound * 1 := by decide
  omega

/-- Every significand of 24 bits on every scale of the format is the value of a word. -/
theorem exists_word (s : Bool) {r k : Nat} (hr : r < 2^24) (hk : k ≤ 253) :
    ∃ v : Word, isFinite v = true ∧
      val v = (if s then -((r * 2^k : Nat):Int) else ((r*2^k : Nat):Int)) := by
  induction k generalizing r with
  | zero =>
    have h := mag_signedBits s (k := 0) (r := r) (by omega) (.inl rfl) (by omega)
    refine ⟨signedBits s (0 * 2^23 + r), ?_, ?_⟩
    · rw [isFinite, expField_signedBits s (by omega)]; simp; omega
    · rw [val, h, sign_signedBits s (by omega)]
  | succ k ih =>
    by_cases h : r < 2^23
    · obtain ⟨v, h1, h2⟩ := ih (r := 2*r) (by omega) (by omega)
      refine ⟨v, h1, ?_⟩
      rw [h2]; have : 2 * r * 2^k = r * 2^(k+1) := by ring
      rw [this]
    · have hm := mag_signedBits s (k := k+1) (r := r) (by omega) (.inr (by omega)) (by omega)
      refine ⟨signedBits s ((k+1) * 2^23 + r), ?_, ?_⟩
      · rw [isFinite, expField_signedBits s (by omega)]; simp; omega
      · rw [val, hm, sign_signedBits s (by omega)]

/-- Every integer of magnitude up to 2^24 is a binary32 value. -/
theorem exists_int {n : Int} (h : n.natAbs ≤ 2^24) :
    ∃ v : Word, isFinite v = true ∧ val v = n * unitsPerOne := by
  have : n = (if n < 0 then -(n.natAbs : Int) else n.natAbs) := by split <;> omega
  by_cases h24 : n.natAbs = 2^24
  · obtain ⟨v, h1, h2⟩ := exists_word (decide (n<0)) (r := 1) (k := 173) (by decide) (by decide)
    refine ⟨v, h1, ?_⟩
    have : (1 * 2^173 : Nat) = 2^24 * unitsPerOne := by decide
    have hu := unitsPerOne_pos
    rw [h2, this]
    simp only [decide_eq_true_eq]
    have : n = 2^24 ∨ n = -2^24 := by omega
    rcases this with rfl | rfl
    · rw [if_neg (by decide)]; push_cast; rfl
    · rw [if_pos (by decide)]; push_cast; ring
  · obtain ⟨v, h1, h2⟩ := exists_word (decide (n<0)) (r := n.natAbs) (k := 149) (by omega) (by decide)
    refine ⟨v, h1, ?_⟩
    rw [h2]
    have hu : (2^149 : Nat) = unitsPerOne := rfl
    rw [hu]
    simp only [decide_eq_true_eq]; split
    · have : ((n.natAbs : Nat) : Int) = -n := by omega
      rw [Nat.cast_mul, this]; ring
    · have : ((n.natAbs : Nat) : Int) = n := by omega
      rw [Nat.cast_mul, this]

/-- The integer part of a finite value is a binary32 value. -/
theorem floor_word {x : Word} (h : isFinite x = true) :
    ∃ v : Word, isFinite v = true ∧ val v = floor x * unitsPerOne := by
  have hf : floor x = val x / unitsPerOne := rfl
  rcases mag_grid x 149 with hg | ⟨j, hj⟩
  · apply exists_int
    have hv : (val x).natAbs = mag x := by rcases val_cases x with ⟨_, h⟩ | ⟨_, h⟩ <;> omega
    have hu := unitsPerOne_pos
    have : (val x).natAbs < 2^23 * unitsPerOne := by rw [hv]; exact hg
    rw [hf]
    have e1 : -(2^23:Int) ≤ val x / unitsPerOne := by
      apply Int.le_ediv_of_mul_le (by exact_mod_cast hu); omega
    have e2 : val x / unitsPerOne < 2^23 := by
      apply Int.ediv_lt_of_lt_mul (by exact_mod_cast hu); omega
    omega
  · refine ⟨x, h, ?_⟩
    have hu : (unitsPerOne : Int) ≠ 0 := by have := unitsPerOne_pos; omega
    have : ∃ z : Int, val x = z * unitsPerOne := by
      rcases val_cases x with ⟨_, h⟩ | ⟨_, h⟩
      · exact ⟨j, by rw [h, hj]; simp [unitsPerOne]⟩
      · exact ⟨-j, by rw [h, hj]; simp [unitsPerOne]⟩
    obtain ⟨z, hz⟩ := this
    rw [hf, hz, Int.mul_ediv_cancel _ hu]

/-- A value lies between its integer part and the next integer. -/
theorem frac_bounds (x : Word) : floor x * unitsPerOne ≤ val x ∧ val x < (floor x + 1) * unitsPerOne := by
  have hu := unitsPerOne_pos
  have h1 := Int.mul_ediv_add_emod (val x) unitsPerOne
  have h2 := Int.emod_nonneg (val x) (show (unitsPerOne:Int) ≠ 0 by omega)
  have h3 := Int.emod_lt_of_pos (val x) (show (0:Int) < unitsPerOne by omega)
  have : floor x = val x / unitsPerOne := rfl
  rw [this]
  constructor <;> nlinarith

theorem val_one : val F32.one = unitsPerOne := by decide

theorem val_zero : val F32.zero = 0 := by decide

end Sys2Proof.F32
end

