-- ==== Sys2Proof/Tests/Slice0.lean ====
section
/-! SUPPORT. The model's own tests: the ill-formed commands that are refused, decoding of words written out
from 30_encoding.md, one step per command with the values of 95_test_vectors.md, and a witness for the
hypotheses of every claim that has any. -/

-- One theorem at a time: each waiting kernel evaluation would otherwise hold a thread and its stack.
set_option Elab.async false

namespace Sys2Proof.Tests

open Sys2Proof Sys2Proof.Machine Sys2Proof.Claims

/-! ### WellFormed refuses (R103) -/

theorem test_opfHz_unit5_illFormed : (Instr.opfHz 5).wellFormed = false := by decide
theorem test_opfLin_unit7_illFormed : (Instr.opfLin 7).wellFormed = false := by decide
theorem test_apf_unit4_illFormed : (Instr.apf 4).wellFormed = false := by decide
theorem test_tapr_unit4_illFormed : (Instr.tapr 4).wellFormed = false := by decide

/-! ### Decoding: words in binary from R101's pattern (17 reserved, MODE, 0, UNIT, OPC) -/

theorem test_decode_nop : decode 0b00000000000000000_000_0_000_00000000 = .ok .nop := by decide
theorem test_decode_dlw : decode 0b00000000000000000_000_0_111_00000001 = .ok (.dlw 7) := by decide
theorem test_decode_dlrStep :
    decode 0b00000000000000000_000_0_001_00000010 = .ok (.dlrStep 1) := by decide
theorem test_decode_dlrLinear :
    decode 0b00000000000000000_001_0_011_00000010 = .ok (.dlrLinear 3) := by decide
theorem test_decode_dlrCosine :
    decode 0b00000000000000000_010_0_100_00000010 = .ok (.dlrCosine 4) := by decide
theorem test_decode_dlrCubic :
    decode 0b00000000000000000_011_0_110_00000010 = .ok (.dlrCubic 6) := by decide
theorem test_decode_dlrSpline :
    decode 0b00000000000000000_100_0_111_00000010 = .ok (.dlrSpline 7) := by decide
theorem test_decode_opfHz : decode 0b00000000000000000_000_0_100_00000011 = .ok (.opfHz 4) := by
  decide
theorem test_decode_opfLin : decode 0b00000000000000000_001_0_010_00000011 = .ok (.opfLin 2) := by
  decide
theorem test_decode_apf : decode 0b00000000000000000_000_0_011_00000100 = .ok (.apf 3) := by decide
theorem test_decode_phs : decode 0b00000000000000000_000_0_000_00000101 = .ok .phs := by decide
theorem test_decode_tapr : decode 0b00000000000000000_000_0_001_00000110 = .ok (.tapr 1) := by decide
theorem test_decode_erc : decode 0b00000000000000000_000_0_000_00000111 = .ok .erc := by decide
theorem test_decode_sata : decode 0b00000000000000000_000_0_000_00001000 = .ok .sata := by decide
theorem test_decode_fdn : decode 0b00000000000000000_000_0_000_00001001 = .ok .fdn := by decide
theorem test_decode_cond : decode 0b00000000000000000_000_0_000_00001010 = .ok .cond := by decide
theorem test_decode_srst : decode 0b00000000000000000_000_0_000_00001011 = .ok .srst := by decide

/-- The BADCMD words of 95_test_vectors.md section 8. -/
theorem test_decode_illegal :
    decode 0x00000801 = .error .reservedBits ∧ decode 0x00005002 = .error .illegalMode ∧
    decode 0x00000503 = .error .illegalUnit ∧ decode 0x00002003 = .error .illegalMode ∧
    decode 0x00000404 = .error .illegalUnit ∧ decode 0x00000504 = .error .illegalUnit ∧
    decode 0x00001004 = .error .illegalMode ∧ decode 0x00000105 = .error .illegalUnit ∧
    decode 0x00000406 = .error .illegalUnit ∧ decode 0x00000107 = .error .illegalUnit ∧
    decode 0x0000000C = .error .reservedOpcode ∧ decode 0x000000FF = .error .reservedOpcode ∧
    decode 0x00008000 = .error .reservedBits ∧ decode 0x00010000 = .error .reservedBits ∧
    decode 0x80000009 = .error .reservedBits := by decide

/-- The table word of a row is laid out as the command word. -/
theorem test_decodeTableWord :
    decodeTableWord 32 0x00001302 = some (.dlrLinear 3) ∧ decodeTableWord 32 0x0000000C = none := by
  decide

/-! ### One step per command (95_test_vectors.md) -/

/-- Operand registers from a list, the rest as they are. -/
def withOpr (s : State) (l : List Word) : State :=
  { s with opr := l.zipIdx.foldl (fun v p => v.setIfInBounds p.2 p.1) s.opr }

/-- One accepted command word run to its completion. -/
def after (s : State) (w : Word) : Option State :=
  match step (s.withFetchWord 32 w.toNat) with
  | .next t => some t
  | .fault _ => none
  | .refused _ => none

/-- The words of the integers from 0.0 up. -/
def integers (n : Nat) : List Word := (List.range n).map fun k => F32.ofInt k

/-- A line after the writes of a list. -/
def filled (s : State) (u : Fin 8) (l : List Word) : State := l.foldl (fun r v => r.dlWrite u v) s

/-- Line 0 after 1.0, 2.0, 3.0 (section 2). -/
def three : State := filled .reset 0 [0x3F800000, 0x40000000, 0x40400000]

/-- Lines 0 to 3 after 0.0 to 19.0 (section 5). -/
def ramp : State :=
  filled (filled (filled (filled .reset 0 (integers 20)) 1 (integers 20)) 2 (integers 20)) 3
    (integers 20)

/-- The result registers and the flags after a command. -/
def results (s : State) (l : List Word) (w : Word) : Option (Word × Word × Causes) :=
  (after (withOpr s l) w).map fun t => (t.res0, t.res1, t.status)

/-- V7.1. -/
theorem test_nop : after three 0x00000000 = some three := by decide +kernel

/-- V2.27: a signalling NaN is stored as it is, and flagged. -/
theorem test_dlw_moves_bits :
    (after (withOpr .reset [0x7FA00000]) 0x00000001).map
      (fun t => (t.memRead 0 0, t.lines[0].cursor, t.status)) = some (0x7FA00000, 1, 4) := by
  decide +kernel

/-- V2.30: the cursor wraps after the last slot (line 7 of seven slots). -/
theorem test_dlw_wraps :
    (after (withOpr (filled .reset 7 (integers 6)) [0x3F800000]) 0x00000701).map
      (fun t => (t.memRead 7 6, t.lines[7].cursor)) = some (0x3F800000, 0) := by
  decide +kernel

/-- V2.3 and V2.19. -/
theorem test_dlrStep_tie : results three [0x3F000000] 0x00000002 = some (0x40000000, 0, 0) := by
  decide +kernel
theorem test_dlrStep_wraps : results three [0x43FC4000] 0x00000002 = some (0x40400000, 0, 1) := by
  decide +kernel

/-- V2.7 and V2.24. -/
theorem test_dlrLinear : results three [0x3E800000] 0x00001002 = some (0x40300000, 0, 0) := by
  decide +kernel
theorem test_dlrLinear_nan : results three [0x7FC00000] 0x00001002 = some (0x7FC00000, 0, 5) := by
  decide +kernel

/-- V2.10. -/
theorem test_dlrCosine : results three [0x3E800000] 0x00002002 = some (0x4036A09F, 0, 0) := by
  decide +kernel

/-- V2.12 and V2.13. -/
theorem test_dlrCubic : results three [0x3FA00000] 0x00003002 = some (0x3FD40000, 0, 0) := by
  decide +kernel
theorem test_dlrCubic_range : results three [0x3F000000] 0x00003002 = some (0x40400000, 0, 1) := by
  decide +kernel

/-- V2.15. -/
theorem test_dlrSpline : results three [0x3FA00000] 0x00004002 = some (0x3FE00000, 0, 0) := by
  decide +kernel

/-- V3.1 and V3.12. -/
theorem test_opfHz :
    results .reset [0x3F800000, 0x40000000] 0x00000003 = some (0x3C4DE1CB, 0, 0) := by
  decide +kernel
theorem test_opfHz_nan :
    results .reset [0x7FC00000, 0x41200000] 0x00000103 = some (0x7FC00000, 0, 4) := by
  decide +kernel

/-- V3.6. -/
theorem test_opfLin_param :
    results .reset [0x3F800000, 0x3FC00000] 0x00001003 = some (0xBF000000, 0, 2) := by
  decide +kernel

/-- V3.10; and V3.7's call 0. -/
theorem test_apf_param :
    results .reset [0x3E99999A, 0x3F800000] 0x00000004 = some (0xBE19999A, 0, 2) := by
  decide +kernel
theorem test_apf : results .reset [0x3F800000, 0x3F4CCCCD] 0x00000004 = some (0xBECCCCCD, 0, 0) := by
  decide +kernel

/-- V4.3: the sum that rounds to 1.0. -/
theorem test_phs_fixup : results .reset [0xB727C5AC] 0x00000005 = some (0, 0, 0) := by
  decide +kernel

/-- V4.2. -/
theorem test_phs_down : results .reset [0xC37A0000] 0x00000005 = some (0x3F400000, 0, 0) := by
  decide +kernel

/-- V5.5. -/
theorem test_tapr_vibrato :
    results ramp [0x41200000, 0, 0xBF800000] 0x00000306 = some (0x416E6667, 0, 0) := by
  decide +kernel

/-- V5.8, from the trackers that V5.7 leaves: two draws. -/
theorem test_tapr_retriggers :
    (after (withOpr ((ramp.setGprev 0 0 0x3E800000).setGprev 0 1 0x3F400000)
      [0x40A00000, 0x3DCCCCCD, 0x3F000000]) 0x00000006).map
      (fun t => (t.res0, t.goff[0], t.goff[1], t.rng)) =
    some (0x415EFDE0, 0x3E87985A, 0x3D2AD920, 0x155B24A3) := by
  decide +kernel

/-- V6.5. -/
theorem test_erc : results ramp [0x41200000] 0x00000007 = some (0x41B33908, 0x41B20262, 0) := by
  decide +kernel

/-- V6.9 and V6.12. -/
theorem test_sata_strict : results .reset [0x3F400000] 0x00000008 = some (0, 0, 0) := by
  decide +kernel
theorem test_sata_infinite : results .reset [0x7F800000] 0x00000008 = some (0x3C4DE1CB, 0, 4) := by
  decide +kernel

/-- V6.13. -/
theorem test_fdn :
    (after (withOpr (filled .reset 0 [0x3F800000, 0x3F800000, 0x3F800000])
      [0, 0x3F800000, 0x40000000, 0, 0, 0, 0x3F800000]) 0x00000009).map
      (fun t => (t.res0, t.res1, t.status, t.y[0], t.y[4], t.memRead 7 0)) =
    some (0x3F706562, 0x3E85E786, 0, 0x3EFF3BAB, 0x3C4DE1CB, 0x3EFF3BAB) := by
  decide +kernel

/-- V6.17: the flush is at the tap-line write only. -/
theorem test_fdn_flush :
    (after (withOpr .reset [0x00000010, 0x3F800000, 0x40000000, 0, 0, 0, 0x3F800000])
      0x00000009).map (fun t => (t.memRead 0 0, t.memRead 4 0, t.y[0])) =
    some (0, 0x00000010, 0x00000010) := by
  decide +kernel

/-- V7.4 and V7.9. -/
theorem test_cond : results .reset [0x3F000000] 0x0000000A = some (0x3F4CCCCD, 0x3E7FFFFF, 0) := by
  decide +kernel
theorem test_cond_nan : results .reset [0x7FC00000] 0x0000000A = some (0x7FC00000, 0x7FC00000, 4) := by
  decide +kernel

/-- P4: the flags and the operands stay, the signal state goes. -/
theorem test_srst :
    after { withOpr ramp [0x40400000] with status := 8, irqen := 8, rng := 0xDEADBEEF, res0 := 1 }
      0x0000000B =
    some { withOpr .reset [0x40400000] with status := 8, irqen := 8 } := by
  decide +kernel

/-- V6.1. -/
theorem test_matrix :
    matrixMul Config.reference #v[0x3F800000, 0x40000000, 0x40400000, 0x40800000] =
      #v[0x41200000, 0xC0000000, 0xC0800000, 0] := by
  decide +kernel

/-! ### The port (V9.3 to V9.10) -/

/-- What is left after the events, one step each. -/
def played (s : State) (es : List PortEvent) : Option State :=
  match core.run es.length { s with events := es } with
  | .next t => some t
  | .fault _ => none
  | .refused _ => none

/-- V9.3 and V9.4. -/
theorem test_badcmd_interrupt :
    (played .reset [.write (at' 0x008) 0x0000000C, .wait, .write (at' 0x010) 8]).map
      (fun t => (t.statusWord, t.irq)) = some (8, true) := by
  decide +kernel

/-- V9.6. -/
theorem test_seed :
    (played .reset [.write (at' 0x01C) 0, .read (at' 0x01C)]).map (·.rdata) = some 0x12345678 := by
  decide +kernel

/-- V9.8: the dropped write and the flags, in the BUSY window. -/
theorem test_overrun_in_flight :
    (played .reset [.write (at' 0x020) 0x3F800000, .write (at' 0x008) 0x00000009,
      .write (at' 0x020) 0x40000000, .read (at' 0x00C)]).map (fun t => (t.rdata, t.opr[0])) =
    some (0x80000010, 0x3F800000) := by
  decide +kernel

/-- V9.10: the clear comes before the merge. -/
theorem test_merge_after_clear :
    (played .reset [.write (at' 0x008) 0x00000009, .write (at' 0x00C) 0x1F, .wait]).map
      (·.statusWord) = some 2 := by
  decide +kernel

/-- V9.12. -/
theorem test_reset_abandons :
    played (withOpr ramp [0x3F800000]) [.write (at' 0x008) 0x00000009, .reset, .wait] =
      some State.reset := by
  decide +kernel

/-! ### Witnesses: the hypotheses of the claims can be met, at the ends of their ranges -/

/-- An idle core with events to come. -/
def awaiting (es : List PortEvent) : State := { State.reset with events := es }

/-- A core with a command in flight and events to come. -/
def inFlight (i : Instr) (es : List PortEvent) : State :=
  { State.reset with seq := .running (some i), events := es }

/-- A core in reset with events to come. -/
def inReset (es : List PortEvent) : State := { State.reset with seq := .resetting, events := es }

theorem reset_inv : State.reset.Inv :=
  ⟨by decide +kernel, by decide +kernel, by decide, by decide⟩

theorem inv_of_reset_config {s : State} (hc : s.cfg = Config.reference)
    (hl : s.lines = State.reset.lines) (hr : s.rng ≠ 0) (hq : s.seq.legal = true) : s.Inv := by
  refine ⟨by rw [hc]; exact reset_inv.buildable, fun u => ?_, hr, hq⟩
  rw [hc, hl]
  exact reset_inv.lines u

theorem witness_DecodeOfEncode :
    (Instr.opfHz 4).wellFormed = true ∧ (Instr.opfLin 4).wellFormed = true ∧
      (Instr.apf 3).wellFormed = true ∧ (Instr.tapr 3).wellFormed = true ∧
      (Instr.dlrSpline 7).wellFormed = true := by decide

theorem witness_StepRunsTheDecodedCommand :
    decode 0x00001302 = .ok (.dlrLinear 3) ∧
      ((awaiting [.write (at' 0x008) 0x00001302]).seq = .idle ∧
        (awaiting [.write (at' 0x008) 0x00001302]).events = [.write (at' 0x008) 0x00001302]) ∧
      ((inFlight (.dlrLinear 3) []).seq = .running (some (.dlrLinear 3)) ∧
        (inFlight (.dlrLinear 3) []).events = []) ∧
      ((inFlight (.dlrLinear 3) [.wait]).seq = .running (some (.dlrLinear 3)) ∧
        (inFlight (.dlrLinear 3) [.wait]).events = [.wait]) := by decide +kernel

theorem witness_IllegalWordSetsBadcmdOnly :
    decode 0x0000000C = .error .reservedOpcode ∧
      (awaiting [.write (at' 0x008) 0x0000000C, .wait]).seq = .idle ∧
      (awaiting [.write (at' 0x008) 0x0000000C, .wait]).events =
        [.write (at' 0x008) 0x0000000C, .wait] := by decide +kernel

theorem witness_FlagsNeverChangeValues : ∃ t, exec .sata State.reset = .next t := ⟨_, rfl⟩

theorem witness_FlagsPerCommand :
    (Instr.tapr 3).wellFormed = true ∧ (Instr.tapr 4).wellFormed = false := by decide

theorem witness_StickyFlagsStay :
    ∃ t, step { awaiting [.write (at' 0x00C) 0x0000000F] with status := 0x10 } = .next t ∧
      ({ awaiting [.write (at' 0x00C) 0x0000000F] with status := 0x10 } : State).status.getLsbD 4 =
        true ∧
      ({ awaiting [.write (at' 0x00C) 0x0000000F] with status := 0x10 } : State).seq ≠ .resetting ∧
      ∀ v, nextEvent { awaiting [.write (at' 0x00C) 0x0000000F] with status := 0x10 } =
        some (.write (at' 0x00C) v) → v.getLsbD 4 = false := by
  refine ⟨_, rfl, by decide, by decide, fun v h => ?_⟩
  have hv : (0x0000000F : Word) = v := by
    simp only [nextEvent, awaiting, List.head?_cons, Option.some.injEq, PortEvent.write.injEq] at h
    exact h.2
  rw [← hv]; decide

theorem witness_OneCommandInFlight :
    (inFlight .phs [.reset]).seq = .running (some .phs) ∧
      (∃ t, step (inFlight .phs [.reset]) = .next t) ∧ (∃ t, step (inFlight .phs [.wait]) = .next t) ∧
      ∃ t, step (inFlight .phs [.read (at' 0x000)]) = .next t :=
  ⟨rfl, ⟨_, rfl⟩, ⟨_, rfl⟩, ⟨_, rfl⟩⟩

theorem witness_HostTransactionsLeaveTheSignalState :
    nextEvent (awaiting [.read (at' 0x044)]) = some (.read (at' 0x044)) ∧
      (∃ t, step (awaiting [.read (at' 0x044)]) = .next t) ∧
      nextEvent (awaiting [.write (at' 0x01C) 5]) = some (.write (at' 0x01C) 5) ∧
      ∃ t, step (awaiting [.write (at' 0x01C) 5]) = .next t ∧ t.rng ≠ State.reset.rng :=
  ⟨rfl, ⟨_, rfl⟩, rfl, ⟨_, rfl, by decide +kernel⟩⟩

theorem witness_WritesWhileIdle :
    (awaiting [.write (at' 0x03C) 7]).seq = .idle ∧
      (awaiting [.write (at' 0x03C) 7]).events = [.write (at' 0x03C) 7] ∧
      indexIn (at' 0x03C) 0x020 8 = some 7 ∧ indexIn (at' 0x020) 0x020 8 = some 0 ∧
      indexIn (at' 0x040) 0x020 8 = none ∧ indexIn (at' 0x01C) 0x020 8 = none := by decide +kernel

/-- The arrays of R32's map end where the next register begins; no offset is in two of them. -/
theorem witness_ReadsWhileIdle :
    (awaiting [.read (at' 0x11C)]).seq = .idle ∧
      (awaiting [.read (at' 0x11C)]).events = [.read (at' 0x11C)] ∧
      indexIn (at' 0x11C) 0x100 8 = some 7 ∧ indexIn (at' 0x0FC) 0x0E0 8 = some 7 ∧
      indexIn (at' 0x0BC) 0x0A0 8 = some 7 ∧ indexIn (at' 0x094) 0x084 5 = some 4 ∧
      constantAt Config.reference (at' 0x0DC) = some 7 ∧
      idleRead State.reset (at' 0x098) = 0 ∧ idleRead State.reset (at' 0x120) = 0 := by decide +kernel

theorem witness_WritesWhileBusy :
    (inFlight .fdn [.write (at' 0x00C) 0x1F, .wait]).seq = .running (some .fdn) ∧
      (inFlight .fdn [.write (at' 0x00C) 0x1F, .wait]).events = .write (at' 0x00C) 0x1F :: [.wait] := by
  decide +kernel

theorem witness_ReadsWhileBusy :
    (inFlight .fdn [.read (at' 0x040)]).seq = .running (some .fdn) ∧
      (inFlight .fdn [.read (at' 0x040)]).events = [.read (at' 0x040)] ∧
      busyDraw (at' 0x040) = true ∧ busyDraw (at' 0x0C0) = false ∧ busyDraw (at' 0x03C) = false ∧
      busyDraw (at' 0x098) = false := by decide +kernel

theorem witness_HardwareResetValues :
    (inReset []).seq = .resetting ∧ (inReset []).events = [] ∧
      constantAt Config.reference (at' 0x014) = some 0x447A0000 := by decide +kernel

theorem witness_ResetAbandonsTheCommand :
    (inFlight .fdn [.reset, .wait]).seq = .running (some .fdn) ∧
      (inFlight .fdn [.reset, .wait]).events = .reset :: .wait :: [] := by decide +kernel

theorem witness_ResetInProgress :
    (inReset [.wait]).seq = .resetting ∧ (inReset [.wait]).events = [.wait] ∧
      (inReset [.read (at' 0x00C)]).events = [.read (at' 0x00C)] ∧
      (inReset [.write (at' 0x008) 9]).events = [.write (at' 0x008) 9] ∧
      constantAt Config.reference (at' 0x00C) = none ∧
      constantAt Config.reference (at' 0x0C0) = some 505 := by decide +kernel

theorem witness_InvariantHoldsAtReset :
    Config.reference.buildable = true ∧ { Config.reference with fs32 := 0 }.buildable = false ∧
      { Config.reference with satCutoffHz := ⟨0, 0⟩ }.buildable = false ∧
      { Config.reference with modScaleMs := ⟨1, 0⟩ }.buildable = false := by
  decide +kernel

theorem witness_InvariantKeptByStep :
    (inFlight .fdn [.wait]).Inv ∧ ∃ t, step (inFlight .fdn [.wait]) = .next t :=
  ⟨inv_of_reset_config rfl rfl (by decide) rfl, ⟨_, rfl⟩⟩

theorem witness_PhaseStaysLegal :
    (phaseLegal 0x7FC00000 = true ∧ phaseLegal 0x3F7FFFFF = true ∧
        phaseLegal State.reset.phase = true ∧ ∃ t, step (inFlight .phs [.wait]) = .next t) ∧
      F32.le 0 0x3F7FFFFF = true ∧ F32.lt 0x3F7FFFFF one = true ∧
      F32.isFinite (F32.div (opr State.reset 0) State.reset.cfg.fs32) = true :=
  ⟨⟨by decide, by decide, by decide, ⟨_, rfl⟩⟩, by decide, by decide, by decide +kernel⟩

theorem reference_usesReference : Config.reference.usesReference := ⟨rfl, rfl, rfl⟩

theorem witness_GateStaysInUnit :
    State.reset.cfg.Bounded ∧
      F32.isFinite (F32.div (F32.ofDec State.reset.cfg.satCutoffHz) State.reset.cfg.fs32) = true ∧
      inUnit State.reset.y[4] = true ∧ inUnit (State.reset.setY 4 one).y[4] = true :=
  ⟨bounded_of_reference reference_usesReference, by decide +kernel, by decide +kernel,
    by decide +kernel⟩

theorem witness_DlwStoresAndAdvances : State.reset.Inv := reset_inv

theorem witness_SamplesAreTheLastWrites : State.reset.Inv ∧ 504 < State.reset.cfg.length 0 :=
  ⟨reset_inv, by decide +kernel⟩

/-- An integral delay on the last slot, and half a sample between the last two. -/
theorem witness_ReadsAtExactOffsets :
    (F32.isFinite (delay (withOpr .reset [0x43FC0000]) (opr (withOpr .reset [0x43FC0000]) 0)) = true ∧
      504 < State.reset.cfg.length (unitLine 0) ∧
      F32.val (delay (withOpr .reset [0x43FC0000]) (opr (withOpr .reset [0x43FC0000]) 0)) =
        504 * 2 ^ 149) ∧
    (F32.isFinite (delay (withOpr .reset [0x43FBC000]) (opr (withOpr .reset [0x43FBC000]) 0)) = true ∧
      503 + 1 < State.reset.cfg.length (unitLine 0) ∧
      2 * F32.val (delay (withOpr .reset [0x43FBC000]) (opr (withOpr .reset [0x43FBC000]) 0)) =
        (2 * 503 + 1) * 2 ^ 149) ∧
    halves 0x3F800000 := by
  refine ⟨⟨?_, ?_, ?_⟩, ⟨?_, ?_, ?_⟩, ⟨?_, ?_⟩⟩ <;> decide +kernel

theorem witness_OpfResults : (4 : BitVec 3).toNat < 5 ∧ (0 : BitVec 3).toNat < 5 := by decide

theorem witness_OnePoleEndpoints :
    F32.isFinite (opr (withOpr .reset [one, one]) 0) = true ∧ F32.isFinite State.reset.y[4] = true ∧
      opr (withOpr .reset [one, one]) 1 = one ∧ opr (withOpr .reset [one, 0]) 1 = 0 := by
  decide +kernel

theorem witness_ApfResult : State.reset.Inv := reset_inv

theorem witness_QuarterPointConsequences :
    State.reset.cfg.QuarterPointsExact ∧
    (F32.isFinite (delay (withOpr .reset [half]) (opr (withOpr .reset [half]) 0)) = true ∧
      2 * F32.val (delay (withOpr .reset [half]) (opr (withOpr .reset [half]) 0)) =
        (2 * 0 + 1) * 2 ^ 149) ∧
    (F32.val (delay (withOpr .reset [one]) (opr (withOpr .reset [one]) 0)) = (0 + 1) * 2 ^ 149) ∧
    delay (withOpr .reset [0]) (opr (withOpr .reset [0]) 0) = 0 ∧
    (F32.isFinite (F32.div 0x437A0000 State.reset.cfg.fs32) = true ∧
      4 * F32.val (F32.div 0x437A0000 State.reset.cfg.fs32) = 1 * 2 ^ 149) ∧
    4 * F32.val (F32.div 0xC37A0000 State.reset.cfg.fs32) = -1 * 2 ^ 149 ∧
    4 * F32.val (F32.div 0 State.reset.cfg.fs32) = 0 * 2 ^ 149 := by
  refine ⟨quarterPointsExact_of_reference reference_usesReference, ⟨?_, ?_⟩, ?_, ?_, ⟨?_, ?_⟩, ?_, ?_⟩
    <;> decide +kernel

theorem witness_TaprWithoutGrains :
    F32.eq (opr (withOpr .reset [one, 0, 0x80000000]) 2) 0 = true ∧
      F32.lt (opr (withOpr .reset [one, 0, 0x80000001]) 2) 0 = true ∧
      F32.isNaN (opr (withOpr .reset [one, 0, 0x7FC00000]) 2) = true := by decide +kernel

theorem witness_TaprGranular :
    F32.lt 0 (opr (withOpr .reset [one, 0, 0x00000001]) 2) = true := by decide +kernel

theorem witness_GrainStateOnlyInGranularMode :
    F32.lt 0 (opr State.reset 2) = false ∧ F32.lt 0 (opr State.reset 3) = false := by decide +kernel

theorem witness_ReflectionReadsAdmissible :
    State.reset.cfg = Config.referenceAt 0x447A0000 ∧
      (F32.le one (opr (withOpr .reset [one]) 0) = true ∧
        F32.le (opr (withOpr .reset [one]) 0) fiveHundred = true) ∧
      F32.le one (opr (withOpr .reset [fiveHundred]) 0) = true ∧
      F32.le (opr (withOpr .reset [fiveHundred]) 0) fiveHundred = true := by decide +kernel

theorem witness_MatrixOrthogonalAndExact :
    Config.reference.buildable = true ∧ ∀ _ : Fin 4, (-(2 ^ 22) : Int).natAbs ≤ 2 ^ 22 := by
  decide +kernel

theorem witness_FdnClaims : (withOpr .reset [one, one, one, 0, half, half, one]).Inv :=
  inv_of_reset_config rfl rfl (by decide) rfl

theorem witness_FdnFrame : F32.lt 0 (opr State.reset 3) = false ∧ State.reset.Inv :=
  ⟨by decide, reset_inv⟩

/-- The ends of the control's range, and the point where the two clauses meet. -/
theorem witness_CondMeetsTheFdnRanges :
    F32.le 0 0 = true ∧ F32.le 0 one = true ∧ F32.le one one = true ∧
      F32.le 0x3EAAAAAB one = true ∧ F32.le 0x3EAAAAAB 0x3EAAAAAB = true ∧
      results .reset [0x3EAAAAAB] 0x0000000A = some (fourFifths, 0, 0) ∧
      results .reset [one] 0x0000000A = some (fourFifths, 0x3F7FFFFF, 0) := by decide +kernel

theorem witness_NopResult :
    (0x00000100 : Word).toNat % 2 ^ 8 = 0 ∧ (0x00000100 : Word) ≠ 0 := by decide

/-- Finite operands at the ends of the range and sums that vanish, then infinities of both signs. -/
theorem witness_ArithmeticRoundsToNearest :
    (F32.isFinite 0x7F7FFFFF = true ∧ F32.isFinite 0x00000001 = true ∧ F32.val 0x00000001 ≠ 0) ∧
      (F32.val one + F32.val minusOne = 0 ∧ F32.val minusZero + F32.val minusZero = 0 ∧
        F32.val minusZero = F32.val 0 ∧ F32.val minusZero = 0) ∧
      infinite 0x7F800000 ∧ infinite 0xFF800000 :=
  ⟨by decide +kernel, by decide +kernel, .inl rfl, .inr rfl⟩

theorem witness_NaNResultsAreCanonical :
    F32.isNaN 0xFFFFFFFF = true ∧ F32.isNaN (F32.sub 0x7F800000 0x7F800000) = true ∧
      F32.isNaN (F32.add 0x7F800000 0xFF800000) = true ∧ F32.isNaN (F32.mul 0 0x7F800000) = true ∧
      F32.isNaN (F32.div 0 0) = true := by decide +kernel

/-- Both sides of the 1.0 fix-up of `frac1`, the ends of `clamp01`, and a tie of `round`. -/
theorem witness_HelperPrimitives :
    (F32.isFinite 0xB3000000 = true ∧
        F32.sub 0xB2800000 (F32.ofInt (F32.floor 0xB2800000)) = one ∧ F32.frac1 0xB2800000 = 0 ∧
        F32.frac1 0xBE800000 = 0x3F400000) ∧
      F32.isFinite 0x7F800000 = false ∧
      (F32.isNaN 0xFF800000 = false ∧ F32.val minusZero ≤ 0 ∧ F32.clamp01 minusZero = 0 ∧
        F32.clamp01 0x3F7FFFFF = 0x3F7FFFFF ∧ F32.clamp01 0x7F800000 = one) ∧
      F32.isNaN 0xFFFFFFFF = true ∧
      2 * (F32.round 0x3F000000 * 2 ^ 149 - F32.val 0x3F000000).natAbs = 2 ^ 149 := by
  decide +kernel

theorem witness_RangeCheckBounds :
    F32.isFinite 0 = true ∧ F32.isFinite one = true ∧ checkRange one 0 one = 0 ∧
      checkRange 0x3F800001 0 one = param ∧ checkRangeOpen one minusOne one = param := by
  decide +kernel

end Sys2Proof.Tests
end

section
/-! PROOFS. Binary32 words by class, sign and magnitude: the classes as bounds of the low 31 bits, the
two zeros and the two infinities as words, and what each arithmetic operation does with finite and
infinite operands (00_scope.md R14, R15). -/

namespace Sys2Proof.F32

/-! ### Classes -/

theorem isFinite_iff (w : Word) : isFinite w = true ↔ w.toNat % 2 ^ 31 < 0x7F800000 := by
  rw [isFinite, bne_iff_ne, expField_eq]; omega

theorem isNaN_iff (w : Word) : isNaN w = true ↔ 0x7F800000 < w.toNat % 2 ^ 31 := by
  rw [isNaN, Bool.and_eq_true, beq_iff_eq, bne_iff_ne, expField_eq, fracField_eq]; omega

theorem isInf_iff (w : Word) : isInf w = true ↔ w.toNat % 2 ^ 31 = 0x7F800000 := by
  rw [isInf, Bool.and_eq_true, beq_iff_eq, beq_iff_eq, expField_eq, fracField_eq]; omega

theorem isNaN_of_isInf {w : Word} (h : isInf w = true) : isNaN w = false := by
  rw [isInf_iff] at h
  rw [← Bool.not_eq_true, isNaN_iff]; omega

/-! ### Sign and magnitude -/

theorem mag_eq_zero_iff (w : Word) : mag w = 0 ↔ w.toNat % 2 ^ 31 = 0 := by
  have he := expField_eq w
  have hf := fracField_eq w
  rw [mag]
  split
  · omega
  · have : 0 < (2 ^ 23 + fracField w) * 2 ^ (expField w - 1) := by positivity
    omega

theorem natAbs_val (w : Word) : (val w).natAbs = mag w := by
  rcases val_cases w with ⟨-, h⟩ | ⟨-, h⟩ <;> omega

/-- A word is its sign and its low 31 bits. -/
theorem eq_of_sign_bits {a b : Word} (hs : sign a = sign b)
    (hb : a.toNat % 2 ^ 31 = b.toNat % 2 ^ 31) : a = b := by
  rw [sign_eq, sign_eq, decide_eq_decide] at hs
  have := a.isLt
  have := b.isLt
  apply BitVec.eq_of_toNat_eq
  omega

/-- The zeros are one word for each sign. -/
theorem eq_of_sign_mag_zero {a b : Word} (hs : sign a = sign b) (ha : mag a = 0) (hb : mag b = 0) :
    a = b :=
  eq_of_sign_bits hs (((mag_eq_zero_iff a).1 ha).trans ((mag_eq_zero_iff b).1 hb).symm)

/-- The infinities are one word for each sign. -/
theorem isInf_eq_iff {a b : Word} (ha : isInf a = true) (hb : isInf b = true) :
    a = b ↔ sign a = sign b :=
  ⟨congrArg sign,
    fun hs => eq_of_sign_bits hs (((isInf_iff a).1 ha).trans ((isInf_iff b).1 hb).symm)⟩

theorem eq_plusZero_iff (w : Word) : w = 0 ↔ sign w = false ∧ mag w = 0 :=
  ⟨by rintro rfl; decide, fun ⟨hs, hm⟩ => eq_of_sign_mag_zero (b := 0) hs hm (by decide)⟩

theorem eq_minusZero_iff (w : Word) : w = Claims.minusZero ↔ sign w = true ∧ mag w = 0 :=
  ⟨by rintro rfl; decide,
    fun ⟨hs, hm⟩ => eq_of_sign_mag_zero (b := Claims.minusZero) hs hm (by decide)⟩

theorem neg_eq_minusZero_iff (w : Word) : neg w = Claims.minusZero ↔ w = 0 := by
  rw [eq_minusZero_iff, eq_plusZero_iff, sign_neg, mag_neg, Bool.not_eq_true']

theorem mag_isInf_ne_zero {w : Word} (h : isInf w = true) : mag w ≠ 0 := by
  rw [isInf_iff] at h
  rw [Ne, mag_eq_zero_iff]; omega

/-- The words that the claims call infinite are the infinities. -/
theorem isInf_of_infinite {w : Word} (h : Claims.infinite w) : isInf w = true := by
  rcases h with rfl | rfl <;> decide

theorem negative_eq_sign (w : Word) : Claims.negative w = sign w := rfl

theorem infOf_eq_signed (s : Bool) : infOf s = Claims.signed s Claims.infinity := by
  cases s <;> decide

theorem roundSigned_zero (s : Bool) : roundSigned s 0 1 = Claims.signed s 0 := by
  cases s <;> decide

/-! ### Finite operands: one rounding of the exact result -/

theorem add_finite {a b : Word} (ha : isFinite a = true) (hb : isFinite b = true) :
    add a b = roundSigned
      (if val a + val b = 0 then sign a && sign b else decide (val a + val b < 0))
      (val a + val b).natAbs 1 := by
  by_cases h : val a + val b = 0 <;>
    simp [add, addNumbers, isNaN_of_isFinite ha, isNaN_of_isFinite hb, not_inf ha, not_inf hb, h]

/-- A difference is the sum with the sign of the subtrahend flipped. -/
theorem sub_eq_add_flip (a b : Word) : sub a b = add a (neg b) := by
  rw [sub, add, isNaN_neg]

theorem add_nearest {a b : Word} (ha : isFinite a = true) (hb : isFinite b = true) :
    Nearest (add a b) (val a + val b) 1 := by
  rw [add_finite ha hb]
  exact nearest_of_int _ _ fun h => if_neg h

theorem sub_nearest {a b : Word} (ha : isFinite a = true) (hb : isFinite b = true) :
    Nearest (sub a b) (val a - val b) 1 := by
  have h := add_nearest ha (b := neg b) (by rwa [isFinite_neg])
  rwa [val_neg, ← Int.sub_eq_add_neg, ← sub_eq_add_flip] at h

/-- Two values that cancel and are both negative are two negative zeros. -/
theorem signs_of_cancel {a b : Word} (h : val a + val b = 0) :
    (sign a && sign b) = true ↔ a = Claims.minusZero ∧ b = Claims.minusZero := by
  rw [eq_minusZero_iff, eq_minusZero_iff, Bool.and_eq_true]
  refine ⟨fun ⟨sa, sb⟩ => ?_, And.imp And.left And.left⟩
  rw [val, val, sa, sb, if_pos rfl, if_pos rfl] at h
  exact ⟨⟨sa, by omega⟩, ⟨sb, by omega⟩⟩

/-- An exact sum of zero is +0.0, but -0.0 of two negative zeros. -/
theorem add_exact_zero {a b : Word} (ha : isFinite a = true) (hb : isFinite b = true)
    (h : val a + val b = 0) :
    add a b = if a = Claims.minusZero ∧ b = Claims.minusZero then Claims.minusZero else 0 := by
  rw [add_finite ha hb, if_pos h, h, Int.natAbs_zero, roundSigned_zero, Claims.signed]
  simp only [signs_of_cancel h]
  rfl

theorem sub_exact_zero {a b : Word} (ha : isFinite a = true) (hb : isFinite b = true)
    (h : val a = val b) :
    sub a b = if a = Claims.minusZero ∧ b = 0 then Claims.minusZero else 0 := by
  rw [sub_eq_add_flip, add_exact_zero ha (by rwa [isFinite_neg]) (by rw [val_neg]; omega)]
  simp only [neg_eq_minusZero_iff]

/-- The product of the values is that of the magnitudes, negated where the signs differ. -/
theorem val_mul_val (a b : Word) :
    val a * val b =
      if sign a != sign b then -((mag a * mag b : Nat) : Int) else ((mag a * mag b : Nat) : Int) := by
  rw [val, val]
  cases sign a <;> cases sign b <;> simp

theorem mul_finite {a b : Word} (ha : isFinite a = true) (hb : isFinite b = true) :
    mul a b = roundSigned (sign a != sign b) (mag a * mag b) unitsPerOne := by
  simp [mul, isNaN_of_isFinite ha, isNaN_of_isFinite hb, not_inf ha, not_inf hb]

theorem mul_nearest {a b : Word} (ha : isFinite a = true) (hb : isFinite b = true) :
    Nearest (mul a b) (val a * val b) unitsPerOne := by
  rw [mul_finite ha hb, val_mul_val]
  exact nearest_roundSigned _ _ unitsPerOne_pos

theorem div_finite {a b : Word} (ha : isFinite a = true) (hb : isFinite b = true)
    (h0 : val b ≠ 0) : div a b = roundSigned (sign a != sign b) (mag a * unitsPerOne) (mag b) := by
  rw [Ne, val_eq_zero] at h0
  simp [div, isNaN_of_isFinite ha, isNaN_of_isFinite hb, not_inf ha, not_inf hb, h0]

/-- The dividend in units, with the sign of the quotient. -/
theorem val_mul_sign (a b : Word) (h0 : val b ≠ 0) :
    val a * 2 ^ 149 * (val b).sign =
      if sign a != sign b then -((mag a * unitsPerOne : Nat) : Int)
      else ((mag a * unitsPerOne : Nat) : Int) := by
  have hs : (val b).sign = if sign b then -1 else 1 := by
    rcases val_cases b with ⟨sb, vb⟩ | ⟨sb, vb⟩
    · simp only [sb, Bool.false_eq_true, if_false]; exact Int.sign_eq_one_of_pos (by omega)
    · simp only [sb, if_true]; exact Int.sign_eq_neg_one_of_neg (by omega)
  rw [hs, val, unitsPerOne]
  cases sign a <;> cases sign b <;> simp

theorem div_nearest {a b : Word} (ha : isFinite a = true) (hb : isFinite b = true)
    (h0 : val b ≠ 0) :
    Nearest (div a b) (val a * 2 ^ 149 * (val b).sign) (val b).natAbs := by
  rw [div_finite ha hb h0, val_mul_sign a b h0, natAbs_val]
  exact nearest_roundSigned _ _ (by rw [← natAbs_val]; omega)

/-- Division by a zero: the signed infinity, but a NaN of 0/0. -/
theorem div_by_zero {a b : Word} (ha : isFinite a = true) (hb : isFinite b = true)
    (h0 : val b = 0) :
    div a b = if val a = 0 then nan else infOf (sign a != sign b) := by
  rw [val_eq_zero] at h0
  simp [div, isNaN_of_isFinite ha, isNaN_of_isFinite hb, not_inf ha, not_inf hb, h0, val_eq_zero]

/-! ### Infinite operands -/

theorem add_inf_finite {a b : Word} (ha : isInf a = true) (hb : isFinite b = true) :
    add a b = a := by
  simp [add, addNumbers, isNaN_of_isInf ha, isNaN_of_isFinite hb, ha, not_inf hb]

theorem add_finite_inf {a b : Word} (ha : isFinite a = true) (hb : isInf b = true) :
    add a b = b := by
  simp [add, addNumbers, isNaN_of_isFinite ha, isNaN_of_isInf hb, hb, not_inf ha]

theorem add_inf_inf {a b : Word} (ha : isInf a = true) (hb : isInf b = true) :
    add a b = if a = b then a else nan := by
  by_cases hs : sign a = sign b <;>
    simp [add, addNumbers, isNaN_of_isInf ha, isNaN_of_isInf hb, ha, hb, isInf_eq_iff ha hb, hs]

theorem sub_inf_inf {a b : Word} (ha : isInf a = true) (hb : isInf b = true) :
    sub a b = if a = b then nan else a := by
  have hn : isInf (neg b) = true := by rwa [isInf_neg]
  rw [sub_eq_add_flip, add_inf_inf ha hn]
  by_cases hs : sign a = sign b <;> simp [isInf_eq_iff ha hn, isInf_eq_iff ha hb, hs]

theorem mul_swap (a b : Word) : mul a b = mul b a := by
  simp only [mul, bne_comm (a := sign a), Bool.or_comm (isNaN a), Bool.or_comm (isInf a),
    or_comm (a := mag a = 0), Nat.mul_comm (mag a)]

theorem mul_inf {a b : Word} (ha : isInf a = true) (hb : isNaN b = false) :
    mul a b = if val b = 0 then nan else infOf (sign a != sign b) := by
  simp [mul, isNaN_of_isInf ha, hb, ha, mag_isInf_ne_zero ha, val_eq_zero]

theorem div_inf_finite {a b : Word} (ha : isInf a = true) (hb : isFinite b = true) :
    div a b = infOf (sign a != sign b) := by
  simp [div, isNaN_of_isInf ha, isNaN_of_isFinite hb, ha, not_inf hb]

theorem div_finite_inf {a b : Word} (ha : isFinite a = true) (hb : isInf b = true) :
    div a b = roundSigned (sign a != sign b) 0 1 := by
  simp [div, isNaN_of_isFinite ha, isNaN_of_isInf hb, hb, not_inf ha]

theorem div_inf_inf {a b : Word} (ha : isInf a = true) (hb : isInf b = true) : div a b = nan := by
  simp [div, isNaN_of_isInf ha, isNaN_of_isInf hb, ha, hb]

/-! ### NaN operands and NaN results (R15) -/

section

variable {a b : Word} (h : isNaN a = true ∨ isNaN b = true)
include h

theorem either_isNaN : (isNaN a || isNaN b) = true := by rwa [Bool.or_eq_true]

theorem add_isNaN : add a b = nan := if_pos (either_isNaN h)

theorem sub_isNaN : sub a b = nan := if_pos (either_isNaN h)

theorem mul_isNaN : mul a b = nan := if_pos (either_isNaN h)

theorem div_isNaN : div a b = nan := if_pos (either_isNaN h)

theorem min_isNaN : min a b = nan := if_pos (either_isNaN h)

theorem max_isNaN : max a b = nan := if_pos (either_isNaN h)

theorem lt_isNaN : lt a b = false := by rcases h with h | h <;> simp [lt, h]

theorem le_isNaN : le a b = false := by rcases h with h | h <;> simp [le, h]

theorem eq_isNaN : eq a b = false := by rcases h with h | h <;> simp [eq, h]

end

theorem isNaN_infOf (s : Bool) : isNaN (infOf s) = false := by cases s <;> decide

/-- A sum of numbers is the canonical NaN or a number. -/
theorem addNumbers_nan_or_number (a b : Word) :
    addNumbers a b = nan ∨ isNaN (addNumbers a b) = false := by
  unfold addNumbers
  split
  next ha =>
    split
    · exact .inl rfl
    · exact .inr (isNaN_of_isInf ha)
  next =>
    split
    next hb => exact .inr (isNaN_of_isInf hb)
    next =>
      dsimp only
      split <;> exact .inr (isNaN_roundSigned _ _ _)

theorem add_nan_or_number (a b : Word) : add a b = nan ∨ isNaN (add a b) = false := by
  unfold add
  split
  · exact .inl rfl
  · exact addNumbers_nan_or_number a b

theorem sub_nan_or_number (a b : Word) : sub a b = nan ∨ isNaN (sub a b) = false := by
  rw [sub_eq_add_flip]
  exact add_nan_or_number a (neg b)

theorem mul_nan_or_number (a b : Word) : mul a b = nan ∨ isNaN (mul a b) = false := by
  unfold mul
  dsimp only
  split
  · exact .inl rfl
  · split
    · split
      · exact .inl rfl
      · exact .inr (isNaN_infOf _)
    · exact .inr (isNaN_roundSigned _ _ _)

theorem div_nan_or_number (a b : Word) : div a b = nan ∨ isNaN (div a b) = false := by
  unfold div
  dsimp only
  split
  · exact .inl rfl
  split
  · split
    · exact .inl rfl
    · exact .inr (isNaN_infOf _)
  split
  · exact .inr (isNaN_roundSigned _ _ _)
  split
  · split
    · exact .inl rfl
    · exact .inr (isNaN_infOf _)
  · exact .inr (isNaN_roundSigned _ _ _)

/-- What is the canonical NaN or a number is, if a NaN, the canonical one. -/
theorem eq_nan_of_isNaN {w : Word} (h : w = nan ∨ isNaN w = false) (hn : isNaN w = true) : w = nan :=
  h.resolve_right (by rw [hn]; decide)

end Sys2Proof.F32

namespace Sys2Proof.Claims

open F32

/-- The clause of `Obligations.ArithmeticRoundsToNearest` on finite operands. -/
theorem arithmetic_finite {a b : Word} (ha : isFinite a = true) (hb : isFinite b = true) :
    (Nearest (add a b) (val a + val b) 1 ∧
      (val a + val b = 0 → add a b = if a = minusZero ∧ b = minusZero then minusZero else 0)) ∧
    (Nearest (sub a b) (val a - val b) 1 ∧
      (val a = val b → sub a b = if a = minusZero ∧ b = 0 then minusZero else 0)) ∧
    (Nearest (mul a b) (val a * val b) (2 ^ 149) ∧
      negative (mul a b) = (negative a != negative b)) ∧
    (val b ≠ 0 →
      Nearest (div a b) (val a * 2 ^ 149 * (val b).sign) (val b).natAbs ∧
      negative (div a b) = (negative a != negative b)) ∧
    (val b = 0 → div a b =
      if val a = 0 then canonicalNaN else signed (negative a != negative b) infinity) := by
  simp only [negative_eq_sign, ← infOf_eq_signed]
  refine ⟨⟨add_nearest ha hb, add_exact_zero ha hb⟩, ⟨sub_nearest ha hb, sub_exact_zero ha hb⟩,
    ⟨mul_nearest ha hb, ?_⟩, fun h0 => ⟨div_nearest ha hb h0, ?_⟩, div_by_zero ha hb⟩
  · rw [mul_finite ha hb, sign_roundSigned]
  · rw [div_finite ha hb h0, sign_roundSigned]

/-- Settles O57: every operation on finite operands is one `roundSigned` of the exact result, which is the
nearest value; an infinite operand leaves a choice between an infinity, a signed zero and the NaN. -/
theorem arithmeticRoundsToNearest : Obligations.ArithmeticRoundsToNearest := by
  intro a b minus
  refine ⟨arithmetic_finite, fun ha hb => ?_, fun ha hb => ?_⟩
  · replace ha := isInf_of_infinite ha
    have hna : isInf (neg a) = true := by rwa [isInf_neg]
    have hnb : isFinite (neg b) = true := by rwa [isFinite_neg]
    refine ⟨add_inf_finite ha hb, add_finite_inf hb ha, ?_, ?_, ?_, mul_swap b a,
      (div_inf_finite ha hb).trans (infOf_eq_signed _), ?_⟩
    · exact (sub_eq_add_flip a b).trans (add_inf_finite ha hnb)
    · exact (sub_eq_add_flip b a).trans (add_finite_inf hb hna)
    · rw [mul_inf ha (isNaN_of_isFinite hb), infOf_eq_signed]
      rfl
    · rw [div_finite_inf hb ha, bne_comm]
      exact roundSigned_zero _
  · replace ha := isInf_of_infinite ha
    replace hb := isInf_of_infinite hb
    refine ⟨add_inf_inf ha hb, sub_inf_inf ha hb, ?_, div_inf_inf ha hb⟩
    rw [mul_inf ha (isNaN_of_isInf hb), if_neg (val_eq_zero.not.2 (mag_isInf_ne_zero hb))]
    exact infOf_eq_signed _

/-- Settles O58: each operation answers the canonical NaN on a NaN, and otherwise the canonical NaN or a
number. -/
theorem naNResultsAreCanonical : Obligations.NaNResultsAreCanonical := by
  intro a b
  refine ⟨fun h => ?_, eq_nan_of_isNaN (add_nan_or_number a b),
    eq_nan_of_isNaN (sub_nan_or_number a b), eq_nan_of_isNaN (mul_nan_or_number a b),
    eq_nan_of_isNaN (div_nan_or_number a b)⟩
  exact ⟨add_isNaN h, sub_isNaN h, mul_isNaN h, div_isNaN h, min_isNaN h, max_isNaN h, lt_isNaN h,
    le_isNaN h, eq_isNaN h⟩

end Sys2Proof.Claims
end

section
/-! PROOFS. The helper primitives of R17 on numbers: comparisons, `min` and `max`, integer part, nearest
integer and fraction, `clamp01` and `ftz`. -/

namespace Sys2Proof.F32

/-! ### Comparisons, `min` and `max` of numbers -/

theorem unitsPerOne_cast : (unitsPerOne : Int) = 2 ^ 149 := by rw [unitsPerOne]; norm_cast

theorem isNaN_zero : isNaN zero = false := by decide

theorem isNaN_one : isNaN one = false := by decide

section

variable {a b : Word} (ha : isNaN a = false) (hb : isNaN b = false)
include ha hb

theorem lt_numbers : lt a b = decide (val a < val b) := by simp [lt, ha, hb]

theorem le_numbers : le a b = decide (val a ≤ val b) := by simp [le, ha, hb]

theorem eq_numbers : eq a b = decide (val a = val b) := by simp [eq, ha, hb]

theorem min_numbers : min a b = if val a < val b then a else b := by
  simp [min, ha, hb, lt_numbers ha hb]

theorem max_numbers : max a b = if val b < val a then a else b := by
  simp [max, ha, hb, lt_numbers hb ha]

end

/-- The value 1.0 is written one way only. -/
theorem eq_one_iff {a : Word} (ha : isNaN a = false) : eq a one = true ↔ a = one := by
  rw [eq_numbers ha isNaN_one, decide_eq_true_eq]
  exact ⟨fun h => (eq_of_val h.symm (by decide)).symm, congrArg val⟩

/-! ### Integer part, nearest integer, fraction -/

/-- The nearest integer of a magnitude, with ties away from zero. -/
theorem round_magnitude {m n U : Nat} (hU : 0 < U) (hn : n = (2 * m + U) / (2 * U)) :
    2 * m < 2 * (n * U) + U ∧ 2 * (n * U) ≤ 2 * m + U := by
  have h1 := Nat.div_add_mod (2 * m + U) (2 * U)
  have h2 := Nat.mod_lt (2 * m + U) (show 0 < 2 * U by omega)
  have h3 : 2 * U * n = 2 * (n * U) := by ring
  rw [← hn, h3] at h1
  omega

theorem round_nearest (x : Word) :
    2 * (round x * unitsPerOne - val x).natAbs ≤ unitsPerOne ∧
      (2 * (round x * unitsPerOne - val x).natAbs = unitsPerOne →
        mag x < (round x * unitsPerOne).natAbs) := by
  obtain ⟨h1, h2⟩ := round_magnitude (m := mag x) unitsPerOne_pos rfl
  have hU := unitsPerOne_pos
  rw [round, val]
  generalize (2 * mag x + unitsPerOne) / (2 * unitsPerOne) = n at *
  have hc : (n : Int) * unitsPerOne = ((n * unitsPerOne : Nat) : Int) := by push_cast; rfl
  cases sign x
  · simp only [Bool.false_eq_true, if_false, hc]
    omega
  · simp only [if_true, Int.neg_mul, hc]
    omega

theorem ofInt_floor {x : Word} (h : isFinite x = true) :
    val (ofInt (floor x)) = floor x * unitsPerOne ∧ isFinite (ofInt (floor x)) = true :=
  exact_int (floor_word h)

theorem subFloor_nearest {x : Word} (h : isFinite x = true) :
    Nearest (subFloor x) (val x - floor x * unitsPerOne) 1 := by
  obtain ⟨hv, hf⟩ := ofInt_floor h
  rw [← hv]
  exact sub_nearest h hf

/-- The rounded difference `x - floor(x)` is a number in [0, 1]: rounding does not pass 0 or 1. -/
theorem subFloor_bounds {x : Word} (h : isFinite x = true) :
    isNaN (subFloor x) = false ∧ 0 ≤ val (subFloor x) ∧ val (subFloor x) ≤ unitsPerOne := by
  have hn := subFloor_nearest h
  obtain ⟨h1, h2⟩ := frac_bounds x
  refine ⟨hn.1, ?_, ?_⟩
  · exact hn.ge (v := zero) (by decide) (by decide) (by rw [val_zero]; omega)
  · rw [← val_one]
    exact hn.le (by decide) (by decide) (by rw [val_one]; push_cast; linarith)

theorem frac1_finite {x : Word} (h : isFinite x = true) :
    frac1 x = if subFloor x = one then zero else subFloor x := by
  obtain ⟨hn, -, -⟩ := subFloor_bounds h
  simp only [frac1, h, if_true, eq_one_iff hn]

/-- The fraction of a finite value is in [0, 1). -/
theorem frac1_bounds {x : Word} (h : isFinite x = true) :
    le zero (frac1 x) = true ∧ lt (frac1 x) one = true := by
  obtain ⟨hn, h0, h1⟩ := subFloor_bounds h
  rw [frac1_finite h]
  split
  · decide
  next hne =>
    have hv : val (subFloor x) ≠ unitsPerOne := fun hv =>
      hne ((eq_one_iff hn).1 (by rw [eq_numbers hn isNaN_one, hv, val_one, decide_eq_true rfl]))
    rw [le_numbers isNaN_zero hn, lt_numbers hn isNaN_one, val_zero, val_one]
    exact ⟨decide_eq_true h0, decide_eq_true (by omega)⟩

theorem frac1_not_finite {x : Word} (h : isFinite x = false) : frac1 x = nan := by
  simp [frac1, h]

/-! ### `clamp01` and `ftz` -/

theorem clamp01_number {x : Word} (h : isNaN x = false) :
    clamp01 x = if val x ≤ 0 then zero else if val x < unitsPerOne then x else one := by
  rw [clamp01, h, max_numbers h isNaN_zero, val_zero]
  by_cases h0 : val x ≤ 0
  · rw [if_pos h0, if_neg (by omega : ¬ 0 < val x)]
    decide
  · rw [if_neg h0, if_pos (by omega : 0 < val x), min_numbers h isNaN_one, val_one]
    rfl

theorem clamp01_inUnit {x : Word} (h : isNaN x = false) : Machine.inUnit (clamp01 x) = true := by
  rw [clamp01_number h]
  split
  · decide
  · split
    · simp only [Machine.inUnit, le_numbers isNaN_zero h, le_numbers h isNaN_one, val_zero, val_one,
        Bool.and_eq_true, decide_eq_true_eq]
      omega
    · decide

theorem clamp01_isNaN {x : Word} (h : isNaN x = true) : clamp01 x = nan := by simp [clamp01, h]

/-- The subnormals are the magnitudes below the least normal one, 2^23 units. -/
theorem isSubnormal_iff (x : Word) : isSubnormal x = true ↔ 0 < mag x ∧ mag x < 2 ^ 23 := by
  have hf := fracField_lt x
  rw [isSubnormal, Bool.and_eq_true, beq_iff_eq, bne_iff_ne, mag]
  split
  next he => simp only [he, true_and]; omega
  next he =>
    have : 2 ^ 23 * 1 ≤ (2 ^ 23 + fracField x) * 2 ^ (expField x - 1) :=
      Nat.mul_le_mul (by omega) Nat.one_le_two_pow
    omega

theorem ftz_eq (x : Word) : ftz x = if 0 < mag x ∧ mag x < 2 ^ 23 then zero else x := by
  simp only [ftz, isSubnormal_iff]

end Sys2Proof.F32

namespace Sys2Proof.Claims

open F32

/-- Settles O59, each primitive by the lemma that says its value. -/
theorem helperPrimitives : Obligations.HelperPrimitives := by
  intro x y
  simp only [← unitsPerOne_cast, natAbs_val]
  refine ⟨⟨isFinite_iff x, isNaN_iff x⟩, frac_bounds x, round_nearest x,
    fun h => ⟨(ofInt_floor h).1, frac1_finite h, frac1_bounds h⟩, frac1_not_finite, rfl,
    fun h => ⟨clamp01_number h, clamp01_inUnit h⟩, clamp01_isNaN,
    fun hx hy => ⟨lt_numbers hx hy, le_numbers hx hy, eq_numbers hx hy, min_numbers hx hy,
      max_numbers hx hy⟩,
    fun h => ⟨min_isNaN h, max_isNaN h⟩, ftz_eq x⟩

end Sys2Proof.Claims
end

section
/-! PROOFS. A delay-line read in the words of the claims: one lemma takes a command whose meaning is
`State.lineRead` to `reads`, and the two contracts of R135 are the model's `admissible`. -/

namespace Sys2Proof.Claims

open Machine F32

theorem checkFinite_eq (v : Word) : checkFinite v = finiteCheck v := by
  unfold checkFinite finiteCheck raise
  cases isFinite v <;> rfl

/-- `dl_read` raises RANGE exactly for a delay that is not finite or outside the contract. -/
theorem dlCauses_eq (s : State) (u : Fin 8) (time : Word) (mode : Interp) :
    s.dlCauses u time mode = raise (!(isFinite (delay s time) &&
      admissible mode (delay s time) (floor (delay s time)) (s.cfg.length u))) range := by
  unfold State.dlCauses raise State.delayOf delay
  dsimp only
  cases isFinite _ && admissible mode _ _ _ <;> rfl

/-- A command that is the shared read in a mode is a read of the claims, for a contract that is that of
the mode at finite delays and a value that is the interpolation of the mode. -/
theorem reads_of_lineRead {i : Instr} {s : State} {u : Fin 8} {mode : Interp} {inside : Word → Bool}
    {value : Word → Word} (hexec : exec i s = .next (s.lineRead u mode))
    (hinside : ∀ d, isFinite d = true → inside d = admissible mode d (floor d) (s.cfg.length u))
    (hvalue : ∀ d, value d = interpolate s.cfg (s.sample u) mode d (floor d) (subFloor d)) :
    reads i s inside value := by
  have hc : (isFinite (delay s (opr s 0)) && inside (delay s (opr s 0))) =
      (isFinite (delay s (opr s 0)) && admissible mode (delay s (opr s 0))
        (floor (delay s (opr s 0))) (s.cfg.length u)) := by
    cases h : isFinite (delay s (opr s 0))
    · rfl
    · rw [hinside _ h]
  unfold reads
  dsimp only
  rw [hexec, hc, hvalue, State.lineRead, dlCauses_eq, checkFinite_eq]
  rfl

/-- The contract of the 2-point modes in the words of the claims is `admissible` of those modes. -/
theorem twoPointAdmissible_eq {s : State} {u : Fin 8} {d : Word} (h : isFinite d = true) :
    twoPointAdmissible s u d =
      (F32.le F32.zero d && decide (floor d + 1 ≤ (s.cfg.length u : Int) - 1)) := by
  rw [twoPointAdmissible, Bool.decide_and, le_numbers isNaN_zero (isNaN_of_isFinite h)]
  rfl

/-- The contract of the 4-point modes in the words of the claims is `admissible` of those modes. -/
theorem fourPointAdmissible_eq {s : State} {u : Fin 8} {d : Word} (h : isFinite d = true) :
    fourPointAdmissible s u d =
      (F32.le F32.one d && decide (floor d + 2 ≤ (s.cfg.length u : Int) - 1)) := by
  rw [fourPointAdmissible, Bool.decide_and, le_numbers isNaN_one (isNaN_of_isFinite h), val_one,
    unitsPerOne_cast]

/-- Settles O30: `DLR.LINEAR` is the shared read in the linear mode. -/
theorem dlrLinearResult : Obligations.DlrLinearResult := fun _ _ =>
  reads_of_lineRead (mode := .linear) rfl (fun _ => twoPointAdmissible_eq) fun _ => rfl

/-- Settles O31: `DLR.COSINE` is the shared read in the cosine mode. -/
theorem dlrCosineResult : Obligations.DlrCosineResult := fun _ _ =>
  reads_of_lineRead (mode := .cosine) rfl (fun _ => twoPointAdmissible_eq) fun _ => rfl

/-- Settles O32: `DLR.CUBIC` is the shared read in the cubic mode. -/
theorem dlrCubicResult : Obligations.DlrCubicResult := fun _ _ =>
  reads_of_lineRead (mode := .cubic) rfl (fun _ => fourPointAdmissible_eq) fun _ => rfl

/-- 2.0, 3.0, 4.0 and 5.0 as words. -/
theorem integer_words : ofInt 2 = 0x40000000 ∧ ofInt 3 = 0x40400000 ∧ ofInt 4 = 0x40800000 ∧
    ofInt 5 = 0x40A00000 := by decide +kernel

/-- Settles O33: `DLR.SPLINE` is the shared read in the spline mode, its integer factors as words. -/
theorem dlrSplineResult : Obligations.DlrSplineResult := by
  intro s u
  obtain ⟨h2, h3, h4, h5⟩ := integer_words
  refine reads_of_lineRead (mode := .spline) rfl (fun _ => fourPointAdmissible_eq) fun d => ?_
  rw [← h2, ← h3, ← h4, ← h5]
  rfl

end Sys2Proof.Claims
end

section
/-! PROOFS. The reset states of the configurations a core can be built for, and the numbers of the
reference configuration. -/

namespace Sys2Proof.Claims

open Machine

/-- The reset state of a configuration that a core can be built for meets the invariant. -/
theorem resetWith_inv {c : Config} (h : c.buildable = true) : (State.resetWith c).Inv where
  buildable := h
  lines u := by
    simp only [State.resetWith, Fin.getElem_fin, Vector.getElem_replicate]
    exact Line.empty_wf (buildable_length h u)
  rng := buildable_seed h
  inFlight := rfl

theorem reference_buildable : Config.reference.buildable = true := by decide +kernel

/-- Settles O22: a buildable configuration has a slot in every line and a seed that is not 0. -/
theorem invariantHoldsAtReset : Obligations.InvariantHoldsAtReset :=
  ⟨fun _ h => ⟨if_pos h, resetWith_inv h⟩, fun _ h => if_neg (Bool.eq_false_iff.1 h),
    if_pos reference_buildable, resetWith_inv reference_buildable⟩

/-- Settles O39, by evaluating the exact formulas of R12 and R166 at the three rates. -/
theorem referenceLengthsAndAllpassDelays : Obligations.ReferenceLengthsAndAllpassDelays := by
  unfold Obligations.ReferenceLengthsAndAllpassDelays
  refine ⟨?_, ?_, ?_, ?_, ?_, ?_, ?_, ?_, ?_⟩ <;> decide +kernel

end Sys2Proof.Claims
end

section
/-! PROOFS. What every command answers, and what every step keeps: the host side and the flags of a
command (10_state.md R36, R40, R51), and the invariant, the sticky flags and the phase along the steps
(R44, R46, R48). -/

namespace Sys2Proof.Machine

/-! ### The flags enter no command -/

/-- The shared form of the delay-line reads, with other flags and enables. -/
theorem withFlags_lineRead (s : State) (f e : Causes) (u : Fin 8) (m : Interp) :
    (s.withFlags f e).lineRead u m =
      ((s.setRes0 (s.dlValue u (s.operand 0) m)).withFlags f e).complete
        (checkFinite (s.operand 0) ||| s.dlCauses u (s.operand 0) m) := by
  simp only [State.lineRead, State.withFlags_operand, withFlags_dlValue, withFlags_dlCauses,
    withFlags_setRes0]

/-- Each command commutes with giving its state other flags and enables (R51): it completes one body with
the same causes whatever they are. -/
theorem exec_withFlags (i : Instr) (s : State) :
    ∃ (t : State) (c : Causes), ∀ f e,
      exec i (s.withFlags f e) = .next ((t.withFlags f e).complete c) := by
  cases i with
  | nop => exact ⟨s, 0, fun _ _ => rfl⟩
  | dlw u =>
    simp only [exec, execDlw, State.withFlags_operand, withFlags_dlWrite]
    exact ⟨_, _, fun _ _ => rfl⟩
  | dlrStep u | dlrLinear u | dlrCosine u | dlrCubic u | dlrSpline u =>
    simp only [exec, execDlrStep, execDlrLinear, execDlrCosine, execDlrCubic, execDlrSpline,
      withFlags_lineRead]
    exact ⟨_, _, fun _ _ => rfl⟩
  | opfHz u =>
    simp only [exec, execOpfHz, State.withFlags_operand, withFlags_opHz, withFlags_resultY]
    cases unitOnePole u with
    | none => exact ⟨s, _, fun _ _ => rfl⟩
    | some => exact ⟨_, _, fun _ _ => rfl⟩
  | opfLin u =>
    simp only [exec, execOpfLin, State.withFlags_operand, withFlags_opLin, withFlags_resultY]
    cases unitOnePole u with
    | none => exact ⟨s, _, fun _ _ => rfl⟩
    | some => exact ⟨_, _, fun _ _ => rfl⟩
  | apf t =>
    simp only [exec, execApf, State.withFlags_operand, withFlags_apProcess, Ran.withFlags_state,
      Ran.withFlags_value, Ran.withFlags_causes, withFlags_setRes0]
    cases unitTap t with
    | none => exact ⟨s, _, fun _ _ => rfl⟩
    | some => exact ⟨_, _, fun _ _ => rfl⟩
  | phs =>
    simp only [exec, execPhs, State.withFlags_operand, withFlags_phStep, State.withFlags_phase,
      withFlags_setRes0]
    exact ⟨_, _, fun _ _ => rfl⟩
  | tapr t =>
    simp only [exec, execTapr, State.withFlags_operand, withFlags_tapRead, Ran.withFlags_state,
      Ran.withFlags_value, Ran.withFlags_causes, withFlags_setRes0]
    cases unitTap t with
    | none => exact ⟨s, _, fun _ _ => rfl⟩
    | some => exact ⟨_, _, fun _ _ => rfl⟩
  | erc =>
    simp only [exec, execErc, State.withFlags_operand, withFlags_erProcess, withFlags_setRes]
    exact ⟨_, _, fun _ _ => rfl⟩
  | sata =>
    simp only [exec, execSata, State.withFlags_operand, withFlags_satProcess, withFlags_resultY]
    exact ⟨_, _, fun _ _ => rfl⟩
  | fdn =>
    simp only [exec, execFdn, State.withFlags_fdnOperands, withFlags_fdnStep, withFlags_setRes]
    exact ⟨_, _, fun _ _ => rfl⟩
  | cond =>
    simp only [exec, execCond, State.withFlags_operand, withFlags_setRes]
    exact ⟨_, _, fun _ _ => rfl⟩
  | srst => exact ⟨s.clearSignal, 0, fun _ _ => rfl⟩

/-! ### An induction over the steps -/

/-- A property of the state that each port event keeps, and the completion of what is in flight, is kept
by every step. -/
theorem step_keeps {P : State → Prop}
    (take : ∀ s rest, P s → P (s.takeEvent rest))
    (read : ∀ s a, P s → P (s.hostRead a))
    (write : ∀ s a v, P s → P (s.hostWrite a v))
    (reset : ∀ s, P s → P s.assertReset)
    (settle : ∀ s t, P s → s.settle = .next t → P t)
    {s t : State} (hs : P s) (h : step s = .next t) : P t := by
  rcases step_cases s with ⟨-, e⟩ | ⟨a, rest, -, e⟩ | ⟨a, v, rest, -, e⟩ | ⟨rest, -, e⟩ |
    ⟨rest, -, e⟩ <;> rw [e] at h
  · exact settle s t hs h
  · cases h; exact read _ a (take s rest hs)
  · cases h; exact write _ a v (take s rest hs)
  · exact settle _ t (take s rest hs) h
  · cases h; exact reset _ (take s rest hs)

/-! ### The invariant (R44, R48, R108) -/

theorem takeEvent_inv {s : State} (h : s.Inv) (rest : List PortEvent) : (s.takeEvent rest).Inv :=
  ⟨h.buildable, h.lines, h.rng, h.inFlight⟩

theorem hostRead_inv {s : State} (h : s.Inv) (a : BitVec 10) : (s.hostRead a).Inv := by
  rcases hostRead_cases s a with e | e <;> rw [e] <;>
    exact ⟨h.buildable, h.lines, h.rng, h.inFlight⟩

/-- What an accepted word puts in flight is legal (R108). -/
theorem accept_legal (s : State) (w : Word) : (s.accept w).seq.legal = true := by
  rw [State.accept_seq]
  cases h : decode w with
  | error => rfl
  | ok i => exact decode_wellFormed h

/-- A host write to `RNG` leaves no 0 there: it loads the seed instead (R39). -/
theorem writeRng_ne_zero {s : State} (h : s.cfg.buildable = true) (v : Word) :
    (s.writeRng v).rng ≠ 0 := by
  rw [State.writeRng_rng]
  split
  · exact buildable_seed h
  · assumption

theorem hostWrite_inv {s : State} (h : s.Inv) (a : BitVec 10) (v : Word) :
    (s.hostWrite a v).Inv := by
  obtain ⟨hb, hl, hr, hf⟩ := h
  rcases hostWrite_cases s a v with e | ⟨-, -, e⟩ | ⟨-, -, e⟩ | ⟨-, -, e⟩ | ⟨-, -, e⟩ |
    ⟨-, i, -, e⟩ | ⟨-, e⟩ <;> rw [e]
  · exact ⟨hb, hl, hr, hf⟩
  · exact ⟨hb, hl, hr, accept_legal s v⟩
  · exact ⟨hb, hl, hr, hf⟩
  · exact ⟨hb, hl, hr, hf⟩
  · exact ⟨hb, hl, writeRng_ne_zero hb v, hf⟩
  · exact ⟨hb, hl, hr, hf⟩
  · exact ⟨hb, hl, hr, hf⟩

theorem assertReset_inv {s : State} (h : s.Inv) : s.assertReset.Inv :=
  ⟨h.buildable, h.lines, h.rng, rfl⟩

/-- The completion of a command's body keeps the invariant: nothing is in flight after it. -/
theorem Body.complete_inv {s t : State} (h : Body s t) (hs : s.Inv) (c : Causes) :
    (t.complete c).Inv where
  buildable := h.cfg.symm ▸ hs.buildable
  lines := h.lines hs.buildable hs.lines
  rng := h.rng hs.buildable hs.rng
  inFlight := rfl

theorem finishReset_inv {s : State} (h : s.cfg.buildable = true) : s.finishReset.Inv :=
  have hr := Claims.resetWith_inv h
  ⟨hr.buildable, hr.lines, hr.rng, hr.inFlight⟩

theorem settle_inv {s t : State} (hs : s.Inv) (h : s.settle = .next t) : t.Inv := by
  rcases settle_cases s with ⟨-, e⟩ | ⟨-, e⟩ | ⟨-, r, c, e, hb⟩ <;> rw [e] at h <;> cases h
  · exact hs
  · exact finishReset_inv hs.buildable
  · exact hb.complete_inv hs c

/-! ### The sticky flags (R36) -/

theorem hostRead_status (s : State) (a : BitVec 10) : (s.hostRead a).status = s.status := by
  rcases hostRead_cases s a with e | e <;> rw [e]

/-- A host write clears a flag only by a 1 in its bit of a word written to `STATUS`. -/
theorem hostWrite_keeps_flag {s : State} {a : BitVec 10} {v : Word} {b : Fin 5}
    (hb : s.status.getLsbD b = true) (hv : regAt a = .status → v.getLsbD b = false) :
    (s.hostWrite a v).status.getLsbD b = true := by
  rcases hostWrite_cases s a v with e | ⟨-, -, e⟩ | ⟨-, hr, e⟩ | ⟨-, -, e⟩ | ⟨-, -, e⟩ |
    ⟨-, i, -, e⟩ | ⟨-, e⟩ <;> rw [e]
  · exact hb
  · exact hb
  · simp [hb, hv hr]
  · exact hb
  · exact hb
  · exact hb
  · rw [State.overrun_status, BitVec.getLsbD_or, hb, Bool.true_or]

/-- A completion other than a reset's keeps every flag (R300). -/
theorem settle_keeps_flag {s t : State} {b : Nat} (hb : s.status.getLsbD b = true)
    (hq : s.seq ≠ .resetting) (h : s.settle = .next t) : t.status.getLsbD b = true := by
  rcases settle_cases s with ⟨-, e⟩ | ⟨hr, -⟩ | ⟨-, r, c, e, body⟩
  · rw [e] at h
    cases h
    exact hb
  · exact absurd hr hq
  · rw [e] at h
    cases h
    rw [State.complete_status, body.status, BitVec.getLsbD_or, hb, Bool.true_or]

/-! ### The phase (R46, R191) -/

theorem hostRead_phase (s : State) (a : BitVec 10) : (s.hostRead a).phase = s.phase := by
  rcases hostRead_cases s a with e | e <;> rw [e]

theorem hostWrite_phase (s : State) (a : BitVec 10) (v : Word) :
    (s.hostWrite a v).phase = s.phase := by
  rcases hostWrite_cases s a v with e | ⟨-, -, e⟩ | ⟨-, -, e⟩ | ⟨-, -, e⟩ | ⟨-, -, e⟩ |
    ⟨-, i, -, e⟩ | ⟨-, e⟩ <;> rw [e] <;> rfl

/-- Every fraction is a legal phase. -/
theorem frac1_phaseLegal (x : Word) : phaseLegal (F32.frac1 x) = true := by
  cases h : F32.isFinite x with
  | false => rw [F32.frac1_not_finite h]; decide
  | true =>
    obtain ⟨h0, h1⟩ := F32.frac1_bounds h
    rw [phaseLegal, h0, h1, Bool.and_self, Bool.or_true]

theorem zero_phaseLegal : phaseLegal F32.zero = true := by decide

theorem Body.phaseLegal {s t : State} (h : Body s t) (hs : phaseLegal s.phase = true) :
    Machine.phaseLegal t.phase = true := by
  rcases h.phase with e | e | ⟨f, e⟩ <;> rw [e]
  · exact hs
  · exact zero_phaseLegal
  · exact frac1_phaseLegal _

theorem settle_phaseLegal {s t : State} (hs : phaseLegal s.phase = true) (h : s.settle = .next t) :
    phaseLegal t.phase = true := by
  rcases settle_cases s with ⟨-, e⟩ | ⟨-, e⟩ | ⟨-, r, c, e, hb⟩ <;> rw [e] at h <;> cases h
  · exact hs
  · exact zero_phaseLegal
  · exact hb.phaseLegal hs

end Sys2Proof.Machine

namespace Sys2Proof.F32

/-- The largest finite magnitude. -/
theorem mag_finite_le {w : Word} (h : isFinite w = true) : mag w ≤ (2 ^ 24 - 1) * 2 ^ 253 := by
  have hlt := mag_finite_lt h
  rcases mag_grid w 253 with hg | ⟨j, hj⟩
  · omega
  · rw [hj] at hlt ⊢
    have := Nat.lt_of_mul_lt_mul_right hlt
    exact Nat.mul_le_mul_right _ (by omega)

/-- A word in [0, 1) is a finite value below the units of 1.0. -/
theorem finite_of_unit {a : Word} (h0 : le zero a = true) (h1 : lt a one = true) :
    isFinite a = true ∧ 0 ≤ val a ∧ val a < unitsPerOne := by
  have hn : isNaN a = false := by
    cases hn : isNaN a with
    | false => rfl
    | true =>
      rw [le_isNaN (.inr hn)] at h0
      cases h0
  rw [le_numbers isNaN_zero hn, val_zero, decide_eq_true_eq] at h0
  rw [lt_numbers hn isNaN_one, val_one, decide_eq_true_eq] at h1
  refine ⟨?_, h0, h1⟩
  cases hf : isFinite a with
  | true => rfl
  | false =>
    have hm := mag_infinite hn hf
    have hu : unitsPerOne < 2 ^ 24 * 2 ^ 253 := by decide
    have := natAbs_val a
    omega

/-- A sum of a value in [0, 1) and a finite one does not overflow: 1.0 is below half the last spacing. -/
theorem isFinite_add_of_unit {a b : Word} (h0 : le zero a = true) (h1 : lt a one = true)
    (hb : isFinite b = true) : isFinite (add a b) = true := by
  obtain ⟨ha, hv0, hv1⟩ := finite_of_unit h0 h1
  obtain ⟨-, hfin, -⟩ := add_nearest ha hb
  have hroom : unitsPerOne + (2 ^ 24 - 1) * 2 ^ 253 < overflowBound * 1 := by decide
  have hm := mag_finite_le hb
  have := natAbs_val b
  exact hfin.2 (by omega)

end Sys2Proof.F32

namespace Sys2Proof.Claims

open Machine F32

/-- Settles O23: every event and every completion keeps the invariant. -/
theorem invariantKeptByStep : Obligations.InvariantKeptByStep := fun _ _ =>
  step_keeps (P := State.Inv) (fun _ rest h => takeEvent_inv h rest) (fun _ a h => hostRead_inv h a)
    (fun _ a v h => hostWrite_inv h a v) (fun _ => assertReset_inv) (fun _ _ => settle_inv)

/-- Settles O8: a command is the completion of a body that leaves the host's side alone. -/
theorem commandsKeepTheHostSide : Obligations.CommandsKeepTheHostSide := by
  intro i s
  obtain ⟨t, c, h, body⟩ := exec_body i s
  refine ⟨t.complete c, h, rfl, ?_, body.cfg.symm, body.opr.symm, body.irqen.symm, body.events.symm,
    body.rdata.symm, body.draws.symm⟩
  rw [State.complete_status, body.status, ← BitVec.or_assoc, BitVec.or_self]

/-- Settles O9: the causes and the body of a command are the same for all flags and enables. -/
theorem flagsNeverChangeValues : Obligations.FlagsNeverChangeValues := by
  intro i s t h
  obtain ⟨r, c, hexec⟩ := exec_withFlags i s
  have ht : t = (r.withFlags s.status s.irqen).complete c :=
    Host.Outcome.next.inj (h.symm.trans (hexec s.status s.irqen))
  subst ht
  exact ⟨c, rfl, hexec⟩

/-- Settles O11: only a write to `STATUS` and the end of a reset lower a flag. -/
theorem stickyFlagsStay : Obligations.StickyFlagsStay := by
  intro s t b h hb hq hv
  rcases step_cases s with ⟨-, e⟩ | ⟨a, rest, -, e⟩ | ⟨a, v, rest, he, e⟩ | ⟨rest, -, e⟩ |
    ⟨rest, -, e⟩ <;> rw [e] at h
  · exact settle_keeps_flag hb hq h
  · cases h
    rwa [hostRead_status]
  · cases h
    refine hostWrite_keeps_flag hb fun hr => hv v ?_
    have ha := regAt_offset a
    rw [hr] at ha
    rw [nextEvent, he, show a = at' 0x00C from ha]
    rfl
  · exact settle_keeps_flag (s := s.takeEvent rest) hb hq h
  · cases h
    exact hb

/-- Settles O24: the phase is kept, cleared or a fraction; a finite quotient gives the fraction of a finite
sum. -/
theorem phaseStaysLegal : Obligations.PhaseStaysLegal := by
  refine ⟨fun _ _ => step_keeps (P := fun s => phaseLegal s.phase = true) (fun _ _ h => h)
      (fun s a h => by rwa [hostRead_phase]) (fun s a v h => by rwa [hostWrite_phase])
      (fun _ h => h) (fun _ _ => settle_phaseLegal), fun s h0 h1 hf => ?_⟩
  obtain ⟨k0, k1⟩ := frac1_bounds (isFinite_add_of_unit h0 h1 hf)
  exact ⟨_, rfl, k0, k1⟩

end Sys2Proof.Claims
end

section
/-! PROOFS. The register port of an idle core, offset by offset: the tables of the claims are the model's
register map (10_state.md R32 to R43), its rows and the reserved offsets outside them. -/

namespace Sys2Proof.Machine

/-- The word indices outside the rows of R32's table: its two holes and everything after it. -/
def outsideMap (a : BitVec 10) : Bool :=
  decide (0x044 < 4 * a.toNat ∧ 4 * a.toNat < 0x080) ||
    decide (0x094 < 4 * a.toNat ∧ 4 * a.toNat < 0x0A0) || decide (0x11C < 4 * a.toNat)

/-- A word index is that of a row of the table, or it is reserved. -/
theorem regAt_row_or_outside (a : BitVec 10) :
    (∃ n, (regAt a).byteOffset = some n ∧ a = regOffset n) ∨
      regAt a = .reserved ∧ outsideMap a = true := by
  have h := regAt_offset a
  cases hr : regAt a <;> rw [hr] at h
  case reserved => exact .inr ⟨rfl, by simpa [outsideMap, or_assoc, Reg.byteOffset] using h⟩
  all_goals exact .inl ⟨_, rfl, h⟩

theorem ne_of_outsideMap {a b : BitVec 10} (ha : outsideMap a = true) (hb : outsideMap b = false) :
    a ≠ b := by
  rintro rfl
  rw [ha] at hb
  cases hb

/-! ### A step of an idle core that takes a host transaction -/

theorem step_read_idle {s : State} {a : BitVec 10} {rest : List PortEvent} (hs : s.seq = .idle)
    (he : s.events = .read a :: rest) :
    step s = .next { s.takeEvent rest with rdata := s.regValue (regAt a) } := by
  have hdef : (s.takeEvent rest).readDefined (regAt a) = true := by
    rw [State.readDefined, State.takeEvent_seq, hs]
  rw [step, he]
  exact congrArg Host.Outcome.next (if_pos hdef)

theorem step_write_idle {s : State} {a : BitVec 10} {v : Word} {rest : List PortEvent}
    (hs : s.seq = .idle) (he : s.events = .write a v :: rest) :
    step s = .next ((s.takeEvent rest).writeIdle (regAt a) v) := by
  rw [step, he]
  simp only [State.portEvent, State.hostWrite, State.takeEvent_seq, hs]

end Sys2Proof.Machine

namespace Sys2Proof.Claims

open Machine

/-! ### Reserved offsets -/

/-- No array of registers reaches outside the table. -/
theorem indexIn_outsideMap {a : BitVec 10} (ha : outsideMap a = true) {offset count : Nat}
    (h : ∀ i < count, outsideMap (BitVec.ofNat 10 (offset / 4 + i)) = false) :
    indexIn a offset count = none := by
  refine dif_neg fun ⟨h0, h1⟩ => ?_
  have hi := h (a.toNat - offset / 4) (by omega)
  rw [Nat.add_sub_cancel' h0, BitVec.ofNat_toNat, BitVec.setWidth_eq, ha] at hi
  cases hi

theorem constantAt_outsideMap (c : Config) {a : BitVec 10} (ha : outsideMap a = true) :
    constantAt c a = none := by
  have hl : ¬(0x0C0 / 4 ≤ a.toNat ∧ a.toNat < 0x0E0 / 4) := by
    simp only [outsideMap, Bool.or_eq_true, decide_eq_true_eq] at ha
    omega
  simp (disch := decide) only [constantAt, ne_of_outsideMap ha, if_false, dif_neg hl]

theorem idleRead_outsideMap (s : State) {a : BitVec 10} (ha : outsideMap a = true) :
    idleRead s a = 0 := by
  simp (disch := decide) only [idleRead, constantAt_outsideMap _ ha, ne_of_outsideMap ha,
    indexIn_outsideMap ha, if_false]

/-! ### The two tables -/

/-- What the claims read at each offset is the value of the register there. -/
theorem idleRead_eq_regValue {s : State} (hs : s.seq = .idle) (a : BitVec 10) :
    idleRead s a = s.regValue (regAt a) := by
  obtain ⟨n, hn, ha⟩ | ⟨hr, ha⟩ := regAt_row_or_outside a
  · rw [ha]
    generalize regAt a = r at hn
    cases r with
    | reserved => cases hn
    | status =>
      cases hn
      simp only [State.regValue, State.statusWord, hs]
      rfl
    | opr i | dbgY i | dbgCursor i | dbgLength i | dbgGprev i | dbgGoff i =>
      cases hn
      fin_cases i <;> rfl
    | _ => cases hn; rfl
  · rw [hr, idleRead_outsideMap s ha]
    rfl

/-- Settles O15: a read of an idle core is defined at every offset, and its value is that of the register
there. -/
theorem readsWhileIdle : Obligations.ReadsWhileIdle := by
  intro s a rest hs he
  rw [step_read_idle hs he, idleRead_eq_regValue hs]
  rfl

/-- Settles O14, row by row of the register map; an offset outside it is none of those written. -/
theorem writesWhileIdle : Obligations.WritesWhileIdle := by
  intro s a v rest hs he
  rw [step_write_idle hs he]
  clear he
  obtain ⟨n, hn, ha⟩ | ⟨hr, ha⟩ := regAt_row_or_outside a
  · generalize regAt a = r at hn
    subst ha
    cases r with
    | reserved => cases hn
    | opr i | dbgY i | dbgCursor i | dbgLength i | dbgGprev i | dbgGoff i =>
      cases hn
      fin_cases i <;> rfl
    | _ => cases hn; rfl
  · simp (disch := decide) only [hr, ne_of_outsideMap ha, indexIn_outsideMap ha, if_false]
    rfl

end Sys2Proof.Claims
end

section
/-! PROOFS. What the host's transactions leave alone (20_memory.md R68): a read moves the read latch only, and
no write reaches a line, a filter, the phase, a tracker or a result. -/

namespace Sys2Proof.Machine

/-- The signal state and the results, the generator left out: it is a register that the host may write
(R39). -/
structure SignalKept (s t : State) : Prop where
  lines : t.lines = s.lines
  y : t.y = s.y
  phase : t.phase = s.phase
  gprev : t.gprev = s.gprev
  goff : t.goff = s.goff
  res0 : t.res0 = s.res0
  res1 : t.res1 = s.res1

theorem hostRead_signalKept (s : State) (a : BitVec 10) : SignalKept s (s.hostRead a) := by
  rcases hostRead_cases s a with e | e <;> rw [e] <;> exact ⟨rfl, rfl, rfl, rfl, rfl, rfl, rfl⟩

theorem hostWrite_signalKept (s : State) (a : BitVec 10) (v : Word) :
    SignalKept s (s.hostWrite a v) := by
  rcases hostWrite_cases s a v with e | ⟨-, -, e⟩ | ⟨-, -, e⟩ | ⟨-, -, e⟩ | ⟨-, -, e⟩ |
    ⟨-, i, -, e⟩ | ⟨-, e⟩ <;> rw [e] <;> exact ⟨rfl, rfl, rfl, rfl, rfl, rfl, rfl⟩

theorem hostRead_rng (s : State) (a : BitVec 10) : (s.hostRead a).rng = s.rng := by
  rcases hostRead_cases s a with e | e <;> rw [e]

/-- A host write moves the generator only at `RNG` and only while the core is idle (R39, R352). -/
theorem hostWrite_rng_changed {s : State} {a : BitVec 10} {v : Word}
    (h : (s.hostWrite a v).rng ≠ s.rng) : s.seq = .idle ∧ regAt a = .rng := by
  rcases hostWrite_cases s a v with e | ⟨-, -, e⟩ | ⟨-, -, e⟩ | ⟨-, -, e⟩ | ⟨hs, hr, -⟩ |
    ⟨-, i, -, e⟩ | ⟨-, e⟩
  case inr.inr.inr.inr.inl => exact ⟨hs, hr⟩
  all_goals exact absurd (congrArg State.rng e) h

theorem step_of_read {s : State} {a : BitVec 10} {rest : List PortEvent}
    (he : s.events = .read a :: rest) : step s = .next ((s.takeEvent rest).hostRead a) := by
  rw [step, he]
  rfl

theorem step_of_write {s : State} {a : BitVec 10} {v : Word} {rest : List PortEvent}
    (he : s.events = .write a v :: rest) : step s = .next ((s.takeEvent rest).hostWrite a v) := by
  rw [step, he]
  rfl

end Sys2Proof.Machine

namespace Sys2Proof.Claims

open Machine

/-- Settles O13: a read keeps all of it, and a write that moves the generator is one to `RNG` of an idle
core. -/
theorem hostTransactionsLeaveTheSignalState :
    Obligations.HostTransactionsLeaveTheSignalState := by
  rintro s t a v (he | he) h <;> obtain ⟨rest, hev⟩ := List.head?_eq_some_iff.1 he
  · rw [step_of_read hev] at h
    cases h
    obtain ⟨hl, hy, hp, hg, ho, h0, h1⟩ := hostRead_signalKept (s.takeEvent rest) a
    exact ⟨hl, hy, hp, hg, ho, h0, h1, fun hc => absurd (hostRead_rng _ a) hc⟩
  · rw [step_of_write hev] at h
    cases h
    obtain ⟨hl, hy, hp, hg, ho, h0, h1⟩ := hostWrite_signalKept (s.takeEvent rest) a v
    refine ⟨hl, hy, hp, hg, ho, h0, h1, fun hc => ?_⟩
    obtain ⟨hidle, hr⟩ := hostWrite_rng_changed (s := s.takeEvent rest) hc
    have ha := regAt_offset a
    rw [hr] at ha
    rw [he, show a = at' 0x01C from ha]
    exact ⟨hidle, rfl⟩

end Sys2Proof.Claims
end

section
/-! PROOFS. A delay-line write byte by byte (20_memory.md R62, 40_delay_line.md R130), in the words of the
claims, and the command DLW that is one. -/

namespace Sys2Proof.Machine

/-- Reading one byte after a slot write, by the slot of the address and its place in the slot. -/
theorem readByte_writeSlot_place {m : Memory} (h : m.wf = true) (j : Nat) (v : Word) (a : Nat) :
    (m.writeSlot j v).readByte a =
      if a / 4 = j then v.extractLsb' (8 * (a % 4)) 8 else m.readByte a := by
  by_cases hj : a / 4 = j
  · obtain ⟨k, hk, rfl⟩ : ∃ k < 4, a = 4 * j + k := ⟨a % 4, by omega, by omega⟩
    rw [if_pos hj, readByte_writeSlot h, Nat.mul_add_mod]
    interval_cases k <;> simp
  · rw [if_neg hj, readByte_writeSlot_other h (by omega)]

end Sys2Proof.Machine

namespace Sys2Proof.Claims

open Machine

/-- A delay-line write is what the claims call one (R130). -/
theorem dlWrite_wroteAtCursor {s : State} (h : s.linesWf) (u : Fin 8) (v : Word) :
    wroteAtCursor s (s.dlWrite u v) u v := by
  obtain ⟨-, -, hcursor, -⟩ := dlWrite_spec h u v
  refine ⟨fun a => ?_, hcursor⟩
  rw [State.memByte, State.dlWrite_line, if_pos rfl]
  exact readByte_writeSlot_place (Line.wf_iff.1 (h u)).1 _ v a

/-- DLW is a delay-line write of its operand, completed with the finiteness check (R140). -/
theorem exec_dlw (s : State) (u : BitVec 3) : exec (.dlw u) s =
    .next (done (s.dlWrite (unitLine u) (opr s 0)) (finiteCheck (opr s 0))) := by
  rw [← checkFinite_eq]
  rfl

/-- Settles O26: the frame of DLW is that of its delay-line write. -/
theorem dlwStoresAndAdvances : Obligations.DlwStoresAndAdvances := by
  intro s u hs
  obtain ⟨-, -, -, hother⟩ := dlWrite_spec hs.lines (unitLine u) (opr s 0)
  exact ⟨_, exec_dlw s u, rfl, dlWrite_wroteAtCursor hs.lines (unitLine u) (opr s 0), hother⟩

end Sys2Proof.Claims
end

section
/-! PROOFS. The encoding of the commands (30_encoding.md R101 to R113): the decoder undoes the encoder, the
legal fields are the rows of R103's table, and an illegal word ends in BADCMD. -/

namespace Sys2Proof

/-! ### Decoder and encoder -/

/-- The command word of a legal opcode, unit and mode decodes to the command they select (R108). -/
theorem decode_commandWord {opc : BitVec 8} {unit mode : BitVec 3} {i : Instr}
    (hs : selectCommand opc unit mode = .ok i) (hu : unitLegal opc unit = true) :
    decode (commandWord opc unit mode) = .ok i := by
  obtain ⟨hopc, hunit, hmode, hbit11, hhigh⟩ := commandWord_fields opc unit mode
  simp [decode, hopc, hunit, hmode, hbit11, hhigh, hs, hu]

/-- The decoder undoes the encoder: a command's fields select it, and its unit is legal when it is well
formed. -/
theorem decode_encode {i : Instr} (h : i.wellFormed = true) : decode (encode i) = .ok i := by
  cases i <;> exact decode_commandWord rfl h

/-- The encoder undoes the decoder: no bit of a legal word is lost. -/
theorem encode_of_decode {w : Word} {i : Instr} (h : decode w = .ok i) : encode i = w := by
  obtain ⟨hhigh, hbit11, hs, hu⟩ := decode_ok h
  rw [(selectCommand_ok hs).2 hu, ← word_of_legal_fields hhigh hbit11]

/-- The formula of R113, for any fields. -/
theorem commandWord_toNat (opc : BitVec 8) (unit mode : BitVec 3) :
    (commandWord opc unit mode).toNat =
      (mode.toNat <<< 12) ||| (unit.toNat <<< 8) ||| opc.toNat := by
  simp only [commandWord, BitVec.toNat_append]
  simp [Nat.shiftLeft_or_distrib, ← Nat.shiftLeft_add]

/-! ### The fields as numbers (R101) -/

theorem fieldOpc_toNat (w : Word) : (fieldOpc w).toNat = w.toNat % 2 ^ 8 := by
  simp [fieldOpc]

theorem fieldUnit_toNat (w : Word) : (fieldUnit w).toNat = w.toNat / 2 ^ 8 % 2 ^ 3 := by
  simp [fieldUnit, Nat.shiftRight_eq_div_pow]

theorem fieldMode_toNat (w : Word) : (fieldMode w).toNat = w.toNat / 2 ^ 12 % 2 ^ 3 := by
  simp [fieldMode, Nat.shiftRight_eq_div_pow]

theorem fieldBit11_eq_zero_iff (w : Word) : fieldBit11 w = 0 ↔ w.toNat / 2 ^ 11 % 2 = 0 := by
  simp [fieldBit11, ← BitVec.toNat_inj, Nat.shiftRight_eq_div_pow]

theorem fieldHigh_eq_zero_iff (w : Word) : fieldHigh w = 0 ↔ w.toNat / 2 ^ 15 = 0 := by
  have hmod : w.toNat / 2 ^ 15 % 2 ^ 17 = w.toNat / 2 ^ 15 := Nat.mod_eq_of_lt (by omega)
  rw [← hmod]
  simp [fieldHigh, ← BitVec.toNat_inj, Nat.shiftRight_eq_div_pow]

end Sys2Proof

namespace Sys2Proof.Claims

open Machine

/-! ### The table of legal fields (R103) -/

/-- The fields of a legal command are in its row of the table. -/
theorem inTable_encode {i : Instr} (h : i.wellFormed = true) :
    inTable (fieldOpc (encode i)).toNat (fieldUnit (encode i)).toNat (fieldMode (encode i)).toNat := by
  have hf := commandWord_fields
  cases i with
  | opfHz u | opfLin u =>
    have hu : u.toNat ≤ 4 := Nat.le_of_lt_succ (of_decide_eq_true h)
    simp [inTable, encode, hf, hu]
  | apf t | tapr t =>
    have ht : t.toNat ≤ 3 := Nat.le_of_lt_succ (of_decide_eq_true h)
    simp [inTable, encode, hf, ht]
  | _ => simp [inTable, encode, hf]

/-- The opcode and mode of every row of the table select a command; the rows of DLR and OPF hold several
modes. -/
theorem selectCommand_of_inTable {opc : BitVec 8} {unit mode : BitVec 3}
    (h : inTable opc.toNat unit.toNat mode.toNat) : ∃ i, selectCommand opc unit mode = .ok i := by
  rcases h with ⟨ho, -, hm⟩ | ⟨ho, hm⟩ | ⟨ho, hm⟩ | ⟨ho, -, hm⟩ | ⟨ho, -, hm⟩ | ⟨ho, -, hm⟩ |
    ⟨ho, -, hm⟩ | ⟨ho, -, hm⟩ | ⟨ho, -, hm⟩ | ⟨ho, -, hm⟩ | ⟨ho, -, hm⟩ | ⟨ho, -, hm⟩
  case inr.inr.inl | inr.inr.inr.inl =>
    interval_cases hmode : mode.toNat <;> simp [selectCommand, ho, hmode]
  all_goals simp [selectCommand, ho, hm]

/-- The unit of every row of the table is legal for its opcode. -/
theorem unitLegal_of_inTable {opc : BitVec 8} {unit : BitVec 3} {mode : Nat}
    (h : inTable opc.toNat unit.toNat mode) : unitLegal opc unit = true := by
  rcases h with h | h | h | h | h | h | h | h | h | h | h | h <;>
    simp [unitLegal, isOnePole, isTap, h.1, ← BitVec.toNat_inj] <;>
    omega

/-- Settles O1: every command is the one its fields select, with its unit legal. -/
theorem decodeOfEncode : Obligations.DecodeOfEncode := fun _ => decode_encode

/-- Settles O2: the only candidate for a word is what it decodes to, since the decoder undoes the encoder. -/
theorem everyWordHasOneReading : Obligations.EveryWordHasOneReading := by
  intro w
  have hread : ∀ j : Instr, j.wellFormed = true → encode j = w → decode w = .ok j := by
    rintro j hj rfl
    exact decode_encode hj
  cases hw : decode w with
  | ok i =>
    refine .inl ⟨i, rfl, decode_wellFormed hw, encode_of_decode hw, fun j hj he => ?_⟩
    exact Except.ok.inj ((hread j hj he).symm.trans hw)
  | error e =>
    refine .inr ⟨e, rfl, fun j hj he => ?_⟩
    cases (hread j hj he).symm.trans hw

/-- Settles O3: the decoder's conditions on the five fields are the table's, row by row. -/
theorem legalWordsAreTheTable : Obligations.LegalWordsAreTheTable := by
  intro w
  rw [← fieldHigh_eq_zero_iff, ← fieldBit11_eq_zero_iff, ← fieldOpc_toNat, ← fieldUnit_toNat,
    ← fieldMode_toNat]
  constructor
  · rintro ⟨i, hi⟩
    obtain ⟨hhigh, hbit11, -, -⟩ := decode_ok hi
    have hrow := inTable_encode (decode_wellFormed hi)
    rw [encode_of_decode hi] at hrow
    exact ⟨hhigh, hbit11, hrow⟩
  · rintro ⟨hhigh, hbit11, hrow⟩
    obtain ⟨i, hs⟩ := selectCommand_of_inTable hrow
    rw [word_of_legal_fields hhigh hbit11]
    exact ⟨i, decode_commandWord hs (unitLegal_of_inTable hrow)⟩

/-- Settles O4: the formula of R113 for the words with a unit, and evaluation for the words written out. -/
theorem wordsFollowTheEncoding : Obligations.WordsFollowTheEncoding := by
  refine ⟨fun u => ?_, by decide⟩
  simp [encode, commandWord_toNat]

/-! ### An illegal word in flight (R110) -/

/-- A word that does not decode is accepted as a command in flight with no meaning. -/
theorem accept_of_error {w : Word} {e : DecodeError} (h : decode w = .error e) (s : State) :
    s.accept w = { s with seq := .running none } := by
  rw [State.accept, h]
  rfl

/-- Settles O6: the write of the word puts nothing in flight but `BUSY`, and the wait completes that with
BADCMD. -/
theorem illegalWordSetsBadcmdOnly : Obligations.IllegalWordSetsBadcmdOnly := by
  intro s w e rest hw hs he
  refine ⟨_, step_write_idle hs he, ?_⟩
  have hcmd : (s.takeEvent (.wait :: rest)).writeIdle (regAt (at' 0x008)) w =
      { s with seq := .running none, events := .wait :: rest } := accept_of_error hw _
  rw [hcmd]
  rfl

end Sys2Proof.Claims
end

section
/-! PROOFS. Integral and half-integral words: what the roundings of R17 make of them, halving that loses
nothing, and when a product of operands is finite (00_scope.md R14, R17). -/

namespace Sys2Proof.F32

/-! ### Integral and half-integral values -/

theorem round_of_integral {x : Word} {n : Int} (h : val x = n * unitsPerOne) : round x = n := by
  obtain ⟨hr, -⟩ := round_nearest x
  rw [h, ← Int.sub_mul, Int.natAbs_mul, Int.natAbs_natCast] at hr
  have hu := unitsPerOne_pos
  by_contra hne
  have : unitsPerOne ≤ (round x - n).natAbs * unitsPerOne := Nat.le_mul_of_pos_left _ (by omega)
  omega

theorem floor_of_integral {x : Word} {n : Int} (h : val x = n * unitsPerOne) : floor x = n := by
  have := unitsPerOne_pos
  rw [floor, h, Int.mul_ediv_cancel _ (by omega)]

theorem floor_of_half {x : Word} {n : Int} (h : 2 * val x = (2 * n + 1) * unitsPerOne) :
    floor x = n := by
  rw [unitsPerOne_cast] at h
  rw [floor, unitsPerOne_cast]
  omega

/-- The fraction of an integral value other than 0 is +0.0. -/
theorem subFloor_of_integral {x : Word} {n : Int} (hx : isFinite x = true)
    (h : val x = n * unitsPerOne) (h0 : n ≠ 0) : subFloor x = zero := by
  obtain ⟨hv, hf⟩ := ofInt_floor hx
  have hne : x ≠ Claims.minusZero := by
    rintro rfl
    rw [show val Claims.minusZero = 0 by decide, eq_comm, Int.mul_eq_zero] at h
    have := unitsPerOne_pos
    omega
  rw [subFloor, sub_exact_zero hx hf (by rw [hv, floor_of_integral h, h]), if_neg fun hc => hne hc.1]
  rfl

/-- The fraction of a value half way between two integers is 0.5, exactly. -/
theorem subFloor_of_half {x : Word} {n : Int} (hx : isFinite x = true)
    (h : 2 * val x = (2 * n + 1) * unitsPerOne) : subFloor x = half := by
  have hhalf : 2 * val half = unitsPerOne := by decide
  have hv : val (subFloor x) = val half :=
    (subFloor_nearest hx).exact (by decide) (by decide) (by
      rw [floor_of_half h]; push_cast; linarith)
  exact eq_of_val hv (by rw [hv]; decide)

/-! ### Products -/

/-- A factor that is not finite makes the product so. -/
theorem mul_not_finite {a : Word} (ha : isFinite a = false) (b : Word) :
    isFinite (mul a b) = false := by
  by_cases hn : isNaN a = true ∨ isNaN b = true
  · rw [mul_isNaN hn]
    decide
  · obtain ⟨hna, hnb⟩ := not_or.1 hn
    have hi : isInf a = true := by
      rw [← Bool.not_eq_true, isFinite_iff] at ha
      rw [isNaN_iff] at hna
      rw [isInf_iff]
      omega
    rw [mul_inf hi (Bool.eq_false_iff.2 hnb)]
    split
    · decide
    · cases sign a != sign b <;> decide

/-- A correctly rounded value is finite where the exact value is a binary32 value. -/
theorem Nearest.isFinite_of_exact {w v : Word} {num : Int} {den : Nat} (h : Nearest w num den)
    (hden : 0 < den) (hv : isFinite v = true) (he : num = val v * den) : isFinite w = true := by
  obtain ⟨-, hfin, -, -⟩ := h
  rw [hfin, he, Int.natAbs_mul, Int.natAbs_natCast, natAbs_val]
  have hb : (2 ^ 24 - 1) * 2 ^ 253 < overflowBound := by decide
  exact Nat.mul_lt_mul_of_pos_right (Nat.lt_of_le_of_lt (mag_finite_le hv) hb) hden

/-- Being nearest to a ratio does not depend on how the ratio is written. -/
theorem Nearest.scale {w : Word} {num : Int} {den : Nat} (h : Nearest w num den) {k : Nat}
    (hk : 0 < k) : Nearest w (num * k) (den * k) := by
  obtain ⟨hn, hfin, hsign, hnear⟩ := h
  have e : ∀ a : Int, (a * (den * k : Nat) - num * k).natAbs = (a * den - num).natAbs * k := by
    intro a
    rw [Nat.cast_mul, ← Int.mul_assoc, ← Int.sub_mul, Int.natAbs_mul, Int.natAbs_natCast]
  refine ⟨hn, ?_, fun hf => ?_, fun hf v hv => ?_⟩
  · rw [hfin, Int.natAbs_mul, Int.natAbs_natCast, ← Nat.mul_assoc, Nat.mul_lt_mul_right hk]
  · rw [hsign hf, decide_eq_decide]
    rw [Int.mul_neg_iff]
    omega
  · obtain ⟨hle, heven⟩ := hnear hf v hv
    rw [e, e]
    exact ⟨Nat.mul_le_mul_right k hle, fun he => heven (Nat.eq_of_mul_eq_mul_right hk he)⟩

/-- The half of a word that is even in units of 2^-149 is a binary32 value: below 2^24 units it is an
integer of the finest spacing, above it the same significand one binade lower. -/
theorem exists_half_word {w : Word} (h : Claims.halves w) :
    ∃ v : Word, isFinite v = true ∧ 2 * val v = val w := by
  obtain ⟨hf, heven⟩ := h
  obtain ⟨r, k, hr, hk, hm⟩ : ∃ r k, r < 2 ^ 24 ∧ k ≤ 253 ∧ 2 * (r * 2 ^ k) = mag w := by
    have hfrac := fracField_lt w
    have hexp := expField_lt w
    have hnat := natAbs_val w
    rw [isFinite, bne_iff_ne] at hf
    by_cases he : expField w < 2
    · have hlt : mag w < 2 ^ 24 := by
        rw [mag]
        interval_cases expField w <;> simp <;> omega
      exact ⟨mag w / 2, 0, by omega, by decide, by omega⟩
    · refine ⟨2 ^ 23 + fracField w, expField w - 2, by omega, by omega, ?_⟩
      rw [mag, if_neg (by omega), show expField w - 1 = expField w - 2 + 1 by omega, Nat.pow_succ]
      ring
  obtain ⟨v, hv, he⟩ := exists_word (sign w) hr hk
  refine ⟨v, hv, ?_⟩
  rw [he, val, ← hm]
  split <;> push_cast <;> ring

/-- Halving such a word is exact. -/
theorem mul_half_exact {w : Word} (h : Claims.halves w) :
    isFinite (mul w half) = true ∧ 2 * val (mul w half) = val w := by
  obtain ⟨v, hv, he⟩ := exists_half_word h
  obtain ⟨hf, -⟩ := h
  have hn := mul_nearest hf (b := half) (by decide)
  have hexact : val w * val half = val v * unitsPerOne := by
    rw [← he, ← show 2 * val half = (unitsPerOne : Int) by decide]
    ring
  exact ⟨hn.isFinite_of_exact unitsPerOne_pos hv hexact,
    by rw [hn.exact unitsPerOne_pos hv hexact, he]⟩

/-- The sum of two exact halves is the correctly rounded mean. -/
theorem add_halves_nearest {a b : Word} (ha : Claims.halves a) (hb : Claims.halves b) :
    Nearest (add (mul a half) (mul b half)) (val a + val b) 2 := by
  obtain ⟨fa, ea⟩ := mul_half_exact ha
  obtain ⟨fb, eb⟩ := mul_half_exact hb
  have h := (add_nearest fa fb).scale (k := 2) (by decide)
  rwa [show (val (mul a half) + val (mul b half)) * (2 : Nat) = val a + val b by
    push_cast; linarith] at h

/-! ### The values 0 and 1 -/

/-- The value 0 is written by the two zeros. -/
theorem eq_zero_iff {a : Word} : eq a zero = true ↔ a = 0 ∨ a = Claims.minusZero := by
  constructor
  · intro h
    simp only [eq, Bool.and_eq_true, decide_eq_true_eq, val_zero, val_eq_zero] at h
    rw [eq_plusZero_iff, eq_minusZero_iff, h.2]
    cases sign a <;> simp
  · rintro (rfl | rfl) <;> decide

theorem val_of_eq {a b : Word} (h : eq a b = true) : val a = val b := by
  rw [eq, Bool.and_eq_true, decide_eq_true_eq] at h
  exact h.2

theorem isNaN_of_eq {a b : Word} (h : eq a b = true) : isNaN a = false := by
  by_contra hn
  rw [eq_isNaN (.inl (Bool.eq_true_of_not_eq_false hn))] at h
  cases h

theorem eq_one_word {a : Word} (h : eq a one = true) : a = one := (eq_one_iff (isNaN_of_eq h)).1 h

end Sys2Proof.F32
end

section
/-! PROOFS. The delay-line reads of 40_delay_line.md: the nearest sample, the samples as the last writes, and
the reads at integral and half-integral delays. -/

namespace Sys2Proof.Machine

/-- Sample addressing after a list of writes to a line (R133): the newest samples are the words written,
newest first, the older ones have moved back by their number. -/
theorem sample_foldl_dlWrite (u : Fin 8) (vs : List Word) {s : State} (hs : s.linesWf) {n : Nat}
    (hn : n < s.cfg.length u) :
    (vs.foldl (fun r v => r.dlWrite u v) s).sample u n =
      if h : n < vs.length then vs[vs.length - 1 - n] else s.sample u (n - vs.length) := by
  induction vs generalizing s with
  | nil => simp
  | cons v vs ih =>
    rw [List.foldl_cons, ih (dlWrite_linesWf hs u v) hn]
    have hlen : (v :: vs).length = vs.length + 1 := rfl
    by_cases h : n < vs.length
    · rw [dif_pos h, dif_pos (by omega)]
      simp only [hlen, show vs.length + 1 - 1 - n = vs.length - 1 - n + 1 by omega,
        List.getElem_cons_succ]
    · obtain ⟨k, rfl⟩ := Nat.exists_eq_add_of_le (Nat.le_of_not_lt h)
      have hcast : ((vs.length + k : Nat) : Int) - vs.length = k := by omega
      rw [dif_neg h, hcast, sample_dlWrite hs u v (by omega)]
      split
      next h0 =>
        rw [dif_pos (by omega)]
        simp [h0]
      next h0 =>
        have hmoved : ((vs.length + k : Nat) : Int) - (vs.length + 1 : Nat) = k - 1 := by omega
        rw [dif_neg (by omega), hlen, hmoved]

/-- A quarter turn, 0.25. -/
def quarterTurnWord : Word := 0x3E800000

/-- What property P1 says at turn 0 and at a quarter turn. -/
theorem quarterPoints_first {c : Config} (h : c.QuarterPointsExact) :
    (F32.eq (c.cosT F32.zero) F32.one = true ∧ F32.eq (c.sinT F32.zero) F32.zero = true) ∧
      F32.eq (c.cosT quarterTurnWord) F32.zero = true ∧
      F32.eq (c.sinT quarterTurnWord) F32.one = true := by
  obtain ⟨hq, -, -⟩ := h
  obtain ⟨h0, -⟩ := hq F32.zero (by decide) 0 (by decide)
  obtain ⟨-, h1, -⟩ := hq quarterTurnWord (by decide) 1 (by decide)
  exact ⟨(h0 rfl).symm, (h1 rfl).symm⟩

/-- The raised-cosine weight is the fraction itself at the fractions 0 and 1/2: the cosine is 1 at turn 0 and
0 at a quarter turn (R137, R143). -/
theorem cosineWeight_quarterPoints {c : Config} (h : c.QuarterPointsExact) :
    cosineWeight c F32.zero = F32.zero ∧ cosineWeight c F32.half = F32.half := by
  obtain ⟨⟨hc0, -⟩, hc1, -⟩ := quarterPoints_first h
  have h0 : F32.mul F32.zero F32.half = F32.zero := by decide +kernel
  have h1 : F32.mul F32.half F32.half = quarterTurnWord := by decide +kernel
  constructor
  · rw [cosineWeight, h0, F32.eq_one_word hc0]
    decide +kernel
  · rw [cosineWeight, h1]
    rcases F32.eq_zero_iff.1 hc1 with hc | hc <;> rw [hc] <;> decide +kernel

/-- Half way between two samples the 2-point form is the sum of their halves (R136). -/
theorem mix2_half (a b : Word) :
    mix2 a b F32.half = F32.add (F32.mul a F32.half) (F32.mul b F32.half) := by
  rw [mix2, show F32.sub F32.one F32.half = F32.half by decide +kernel]

/-- The cosine read is the linear read where the fraction of the delay is 0 or 1/2 (R143). -/
theorem lineRead_cosine_eq_linear {s : State} (h : s.cfg.QuarterPointsExact)
    (hfrac : F32.subFloor (s.delayOf (s.operand 0)) = F32.half ∨
      F32.subFloor (s.delayOf (s.operand 0)) = F32.zero) (u : Fin 8) :
    s.lineRead u .cosine = s.lineRead u .linear := by
  obtain ⟨hw0, hw1⟩ := cosineWeight_quarterPoints h
  have hweight : cosineWeight s.cfg (F32.subFloor (s.delayOf (s.operand 0))) =
      F32.subFloor (s.delayOf (s.operand 0)) := by
    rcases hfrac with hf | hf
    · rw [hf, hw1]
    · rw [hf, hw0]
  simp only [State.lineRead, State.dlValue, interpolate, hweight]
  rfl

/-- The coefficient of Hertz mode at a whole number of quarters of the sample rate (R163). -/
theorem hertzCoefficient_quarter {c : Config} (h : c.QuarterPointsExact) {freq : Word} {n : Int}
    (hf : F32.isFinite (F32.div freq c.fs32) = true)
    (hn : F32.val (F32.div freq c.fs32) * 4 = n * (F32.unitsPerOne : Int)) :
    hertzCoefficient c freq = if n % 4 = 1 then F32.one else F32.zero := by
  obtain ⟨hq, -, -⟩ := h
  obtain ⟨h0, h1, h2, h3⟩ := hq _ hf n hn
  rw [hertzCoefficient]
  split
  next hr =>
    rw [F32.eq_one_word (h1 hr).1]
    decide
  next hr =>
    obtain ⟨w, he, hw⟩ : ∃ w, F32.eq (c.sinT (F32.div freq c.fs32)) w = true ∧ F32.val w ≤ 0 := by
      obtain h | h | h : n % 4 = 0 ∨ n % 4 = 2 ∨ n % 4 = 3 := by omega
      · exact ⟨_, (h0 h).1, by decide⟩
      · exact ⟨_, (h2 h).1, by decide⟩
      · exact ⟨_, (h3 h).1, by decide⟩
    rw [F32.clamp01_number (F32.isNaN_of_eq he), if_pos (F32.val_of_eq he ▸ hw)]

/-- The angles of hard left and hard right are turn 0 and a quarter turn (R232). -/
theorem panAngle_ends (r : Reflection) :
    (r.pan = ⟨-1, 1⟩ → panAngle r = F32.zero) ∧ (r.pan = ⟨1, 1⟩ → panAngle r = quarterTurnWord) := by
  constructor <;> intro h <;> rw [panAngle, h] <;> decide +kernel

end Sys2Proof.Machine

namespace Sys2Proof.Claims

open Machine F32

/-- Settles O29: `DLR.STEP` is the shared read in the step mode. -/
theorem dlrStepResult : Obligations.DlrStepResult := fun _ _ =>
  reads_of_lineRead (mode := .step) rfl
    (fun d h => by rw [Bool.decide_and, admissible, le_numbers isNaN_zero (isNaN_of_isFinite h)]; rfl)
    fun _ => rfl

/-- Settles O27: the slot formula is the model's, the last writes are an induction over them. -/
theorem samplesAreTheLastWrites : Obligations.SamplesAreTheLastWrites := fun _ u vs hs =>
  ⟨fun _ => rfl, fun _ hn => sample_foldl_dlWrite u vs hs.lines hn⟩

/-- A read at a finite delay inside its contract answers its value and raises nothing. -/
theorem reads_inside {i : Instr} {s : State} {inside : Word → Bool} {value : Word → Word}
    (h : reads i s inside value) (hf : isFinite (delay s (opr s 0)) = true)
    (hi : inside (delay s (opr s 0)) = true) :
    exec i s = .next (done { s with res0 := value (delay s (opr s 0)) } 0) := by
  have ho : isFinite (opr s 0) = true := by
    by_contra hc
    rw [delay, mul_not_finite (Bool.eq_false_iff.2 hc)] at hf
    cases hf
  unfold reads at h
  rw [h]
  simp only [finiteCheck, ho, hf, hi]
  rfl

/-- Settles O28: at these delays the rounded delay, the integer part and the fraction are exact. -/
theorem readsAtExactOffsets : Obligations.ReadsAtExactOffsets := by
  intro s u n hf hn
  rw [← unitsPerOne_cast]
  constructor
  · intro hd
    have hr : F32.round (delay s (opr s 0)) = n := round_of_integral hd
    have hin : 0 ≤ F32.val (delay s (opr s 0)) := by rw [hd]; positivity
    rw [reads_inside (dlrStepResult s u) hf (decide_eq_true ⟨hin, by omega⟩), hr]
  · intro hn1 hd
    have hk : floor (delay s (opr s 0)) = n := floor_of_half hd
    have hin : 0 ≤ F32.val (delay s (opr s 0)) := by
      have := unitsPerOne_pos
      have : 0 ≤ (2 * (n : Int) + 1) * unitsPerOne := by positivity
      omega
    have hvalue : exec (.dlrLinear u) s = .next (done { s with
        res0 := mix2 (s.sample (unitLine u) (floor (delay s (opr s 0))))
          (s.sample (unitLine u) (floor (delay s (opr s 0)) + 1)) (subFloor (delay s (opr s 0))) } 0) :=
      reads_inside (dlrLinearResult s u) hf (decide_eq_true ⟨hin, by omega⟩)
    rw [hk, subFloor_of_half hf hd, mix2_half] at hvalue
    exact ⟨_, hvalue, rfl, add_halves_nearest⟩

/-- Settles O38: property P1 at turn 0, at a quarter turn and at the quarters of the sample rate. -/
theorem quarterPointConsequences : Obligations.QuarterPointConsequences := by
  intro s hP
  obtain ⟨turn0, turn1⟩ := quarterPoints_first hP
  rw [← unitsPerOne_cast]
  refine ⟨fun u k hf hd => ?_, fun freq n hf hn => ?_, fun r hr => ?_, fun r hr => ?_⟩
  · refine congrArg Host.Outcome.next (lineRead_cosine_eq_linear hP ?_ (unitLine u))
    rcases hd with hd | hd | hd
    · exact .inl (subFloor_of_half hf hd)
    · exact .inr (subFloor_of_integral hf hd (by omega))
    · exact .inr ((congrArg subFloor hd).trans (by decide))
  · exact hertzCoefficient_quarter hP hf (by omega)
  · rw [(panAngle_ends r).1 hr]
    exact turn0
  · rw [(panAngle_ends r).2 hr]
    exact turn1

end Sys2Proof.Claims
end

section
/-! PROOFS. The filter commands (41_filters.md): the one-pole step in both modes, what it leaves at the ends
of Linear mode, and the allpass step, its read before its one write. -/

namespace Sys2Proof.F32

/-! ### Exact products and sums -/

/-- A product that is the value of a word is finite and has that value. -/
theorem mul_exact {a b v : Word} (ha : isFinite a = true) (hb : isFinite b = true)
    (hv : isFinite v = true) (h : val a * val b = val v * unitsPerOne) :
    isFinite (mul a b) = true ∧ val (mul a b) = val v :=
  have hn := mul_nearest ha hb
  ⟨hn.isFinite_of_exact unitsPerOne_pos hv h, hn.exact unitsPerOne_pos hv h⟩

theorem mul_one_exact {a : Word} (ha : isFinite a = true) :
    isFinite (mul a one) = true ∧ val (mul a one) = val a :=
  mul_exact ha (by decide) ha (by rw [val_one])

theorem mul_zero_exact {a : Word} (ha : isFinite a = true) :
    isFinite (mul a zero) = true ∧ val (mul a zero) = 0 := by
  rw [← val_zero]
  exact mul_exact ha (by decide) (by decide) (by rw [val_zero, Int.mul_zero, Int.zero_mul])

/-- A sum that is the value of a word equals that word. -/
theorem eq_add_exact {a b v : Word} (ha : isFinite a = true) (hb : isFinite b = true)
    (hv : isFinite v = true) (h : val a + val b = val v) : eq (add a b) v = true := by
  have hn := add_nearest ha hb
  rw [eq_numbers hn.1 (isNaN_of_isFinite hv), decide_eq_true_eq]
  exact hn.exact (by decide) hv (by rw [h, Nat.cast_one, Int.mul_one])

/-- `1 - 1` and `1 - 0` as words. -/
theorem one_sub_ends : sub one one = zero ∧ sub one zero = one := by decide +kernel

end Sys2Proof.F32

namespace Sys2Proof.Machine

/-! ### The one-pole step -/

theorem unitOnePole_of_lt {u : BitVec 3} (h : u.toNat < 5) : unitOnePole u = some ⟨u.toNat, h⟩ :=
  dif_pos h

theorem unitTap_ofNat (t : Fin 4) : unitTap (BitVec.ofNat 3 t.val) = some t := by
  revert t
  decide

/-- Both one-pole commands leave the output law's value in `y[u]` and in `RES0` (R160). -/
theorem State.opStep_resultY (s : State) (u : Fin 5) (x c : Word) :
    (s.opStep u x c).resultY u = (s.setY u (onePole s.y[u] x c)).setRes0 (onePole s.y[u] x c) := by
  rw [State.resultY, State.opStep, State.setY_y_get, if_pos rfl]

/-- With the coefficient 1 the output law passes a finite input (R160). -/
theorem onePole_one {y x : Word} (hy : F32.isFinite y = true) (hx : F32.isFinite x = true) :
    F32.eq (onePole y x F32.one) x = true := by
  obtain ⟨fy, vy⟩ := F32.mul_zero_exact hy
  obtain ⟨fx, vx⟩ := F32.mul_one_exact hx
  rw [onePole, F32.one_sub_ends.1]
  exact F32.eq_add_exact fy fx hx (by rw [vy, vx, Int.zero_add])

/-- With the coefficient 0 the output law holds a finite state (R160). -/
theorem onePole_zero {y x : Word} (hy : F32.isFinite y = true) (hx : F32.isFinite x = true) :
    F32.eq (onePole y x F32.zero) y = true := by
  obtain ⟨fy, vy⟩ := F32.mul_one_exact hy
  obtain ⟨fx, vx⟩ := F32.mul_zero_exact hx
  rw [onePole, F32.one_sub_ends.2]
  exact F32.eq_add_exact fy fx hy (by rw [vy, vx, Int.add_zero])

end Sys2Proof.Machine

namespace Sys2Proof.Claims

open Machine F32

theorem checkRange_eq (v lo hi : Word) : checkRange v lo hi = rangeCheck v lo hi := rfl

theorem checkRangeOpen_eq (v lo hi : Word) :
    checkRangeOpen v lo hi = raise (isFinite v && !(lt lo v && lt v hi)) param := rfl

/-- Settles O34: OPF.HZ is the one-pole step with the coefficient of Hertz mode. -/
theorem opfHzResult : Obligations.OpfHzResult := by
  intro s u h v
  rw [exec, execOpfHz, unitOnePole_of_lt h]
  dsimp only
  rw [State.opHz, State.opStep_resultY, checkFinite_eq, checkFinite_eq]
  rfl

/-- Settles O35: OPF.LIN is the one-pole step with the coefficient of Linear mode. -/
theorem opfLinResult : Obligations.OpfLinResult := by
  intro s u h v
  rw [exec, execOpfLin, unitOnePole_of_lt h]
  dsimp only
  rw [State.opLin, State.opStep_resultY, checkFinite_eq, checkFinite_eq, checkRange_eq]
  rfl

/-- OPF.LIN with a finite input and a value that is 0 or 1 raises no flag (R171). -/
theorem opfLin_unflagged {s : State} {u : BitVec 3} (h : u.toNat < 5)
    (hx : isFinite (opr s 0) = true) (hv : opr s 1 = zero ∨ opr s 1 = one) :
    let v := onePole s.y[u.toNat] (opr s 0) (linearCoefficient (opr s 1))
    exec (.opfLin u) s = .next (done { s with y := s.y.set u.toNat v, res0 := v } 0) := by
  have hcauses : finiteCheck (opr s 0) ||| finiteCheck (opr s 1) ||| rangeCheck (opr s 1) 0 one = 0 := by
    rw [finiteCheck, hx]
    rcases hv with hv | hv <;> rw [hv] <;> decide
  intro v
  rw [← hcauses]
  exact opfLinResult s u h

/-- Settles O36: the coefficient is 1 at value 0 and 0 at value 1, and the output law is exact at both. -/
theorem onePoleEndpoints : Obligations.OnePoleEndpoints := by
  intro s u h hx hy
  constructor
  · intro hv
    refine ⟨_, ?_, opfLin_unflagged h hx (.inl hv)⟩
    rw [hv, linearCoefficient, show sub F32.one 0 = F32.one from one_sub_ends.2]
    exact onePole_one hy hx
  · intro hv
    refine ⟨_, ?_, opfLin_unflagged h hx (.inr hv)⟩
    rw [hv, linearCoefficient, show sub F32.one Claims.one = F32.zero from one_sub_ends.1]
    exact onePole_zero hy hx

/-- APF is the allpass step of its tap, completed with the checks of R172. -/
theorem exec_apf (s : State) (t : Fin 4) : exec (.apf (BitVec.ofNat 3 t.val)) s =
    .next (done ((s.dlWrite (allpassLine t) (s.allpassInput t (opr s 0) (opr s 1))).setRes0
        (s.allpassOutput t (opr s 0) (opr s 1)))
      (finiteCheck (opr s 0) ||| finiteCheck (opr s 1) |||
        raise (isFinite (opr s 1) && !(lt minusOne (opr s 1) && lt (opr s 1) one)) param |||
        s.dlCauses (allpassLine t) (s.allpassTime t) s.cfg.apInterp)) := by
  rw [exec, execApf, unitTap_ofNat]
  dsimp only
  rw [checkFinite_eq, checkFinite_eq, checkRangeOpen_eq]
  rfl

/-- A result and a completion leave what a delay-line write did to the lines (R130, R350). -/
theorem dlWrite_setRes0_done {s : State} (h : s.linesWf) (u : Fin 8) (v w : Word) (c : Causes) :
    wroteAtCursor s (done ((s.dlWrite u v).setRes0 w) c) u v ∧
      ∀ k : Fin 8, k ≠ u → (done ((s.dlWrite u v).setRes0 w) c).lines[k] = s.lines[k] := by
  obtain ⟨-, -, -, hother⟩ := dlWrite_spec h u v
  exact ⟨dlWrite_wroteAtCursor h u v, hother⟩

/-- Settles O37: the frame of APF is that of its one delay-line write. -/
theorem apfResult : Obligations.ApfResult := by
  intro s t hs
  exact ⟨_, exec_apf s t, rfl, dlWrite_setRes0_done hs.lines _ _ _ _⟩

end Sys2Proof.Claims
end

section
/-! PROOFS. The modulation commands (42_modulation.md): the phasor step, the generator and its exact output,
the tap read in its four modes, and the grain trackers and draws that only granular mode touches. -/

namespace Sys2Proof.F32

/-- A strict comparison that holds excludes equality, both ways round, and its reverse. -/
theorem compare_of_lt {a b : Word} (h : lt a b = true) :
    eq a b = false ∧ eq b a = false ∧ lt b a = false := by
  simp only [lt, eq, Bool.and_eq_true, Bool.and_eq_false_iff, decide_eq_true_eq,
    decide_eq_false_iff_not] at h ⊢
  omega

end Sys2Proof.F32

namespace Sys2Proof.Machine

/-! ### The generator (R200) -/

/-- The generator step in arithmetic modulo 2^32. -/
theorem xorshift_toNat (x : Word) :
    let a := x.toNat ^^^ (x.toNat * 2 ^ 13 % 2 ^ 32)
    let b := a ^^^ (a / 2 ^ 17)
    (xorshift x).toNat = b ^^^ (b * 2 ^ 5 % 2 ^ 32) := by
  simp only [xorshift, BitVec.toNat_xor, BitVec.toNat_shiftLeft, BitVec.toNat_ushiftRight,
    Nat.shiftLeft_eq, Nat.shiftRight_eq_div_pow]

theorem xorshift_eq_zero_iff (x : Word) : xorshift x = 0 ↔ x = 0 := by
  constructor
  · contrapose
    exact xorshift_ne_zero
  · rintro rfl
    decide

/-- The top 24 bits fit a significand: the output of the generator is the value of a word, so its rounding
is exact. -/
theorem unitInterval_exact (x : Word) :
    F32.isFinite (unitInterval x) = true ∧
      F32.val (unitInterval x) = ((x.toNat / 2 ^ 8 * 2 ^ 125 : Nat) : Int) := by
  obtain ⟨v, hf, hv⟩ := F32.exists_word false (r := x.toNat / 2 ^ 8) (k := 125) (by omega) (by decide)
  have hn : F32.Nearest (unitInterval x) ((x.toNat / 2 ^ 8 * 2 ^ 125 : Nat) : Int) 1 := by
    rw [unitInterval, BitVec.toNat_ushiftRight, Nat.shiftRight_eq_div_pow]
    exact F32.nearest_roundSigned false _ (by decide)
  have he : ((x.toNat / 2 ^ 8 * 2 ^ 125 : Nat) : Int) = F32.val v * (1 : Nat) := by
    rw [hv, Nat.cast_one, Int.mul_one]
    rfl
  exact ⟨hn.isFinite_of_exact (by decide) hf he,
    (hn.exact (by decide) hf he).trans (by rw [he, Nat.cast_one, Int.mul_one])⟩

theorem unitInterval_bounds (x : Word) :
    F32.le F32.zero (unitInterval x) = true ∧ F32.lt (unitInterval x) F32.one = true := by
  obtain ⟨hf, hv⟩ := unitInterval_exact x
  have hn : F32.isNaN (unitInterval x) = false := F32.isNaN_of_isFinite hf
  have hlt : x.toNat / 2 ^ 8 < 2 ^ 24 := by omega
  rw [F32.le_numbers F32.isNaN_zero hn, F32.lt_numbers hn F32.isNaN_one, decide_eq_true_eq,
    decide_eq_true_eq, hv, F32.val_zero, F32.val_one, F32.unitsPerOne_cast]
  omega

/-! ### The modes of a tap read (R193) -/

section

variable {s : State} {t : Fin 4} {size lfo depth : Word}

theorem tapRead_of_zero (h : F32.eq depth F32.zero = true) :
    s.tapRead t size lfo depth = s.tapAt t (tapBase s.cfg t size) := if_pos h

theorem tapRead_of_negative (h : F32.lt depth F32.zero = true) :
    s.tapRead t size lfo depth =
      s.tapAt t (F32.add (tapBase s.cfg t size) (vibratoExcursion s.cfg t lfo depth)) := by
  obtain ⟨h0, -⟩ := F32.compare_of_lt h
  simp only [State.tapRead, h0, h]
  rfl

theorem tapRead_of_positive (h : F32.lt F32.zero depth = true) :
    s.tapRead t size lfo depth = s.grainRead t (tapBase s.cfg t size) lfo depth := by
  obtain ⟨-, h0, h1⟩ := F32.compare_of_lt h
  simp only [State.tapRead, h0, h1, h]
  rfl

theorem tapRead_of_isNaN (h : F32.isNaN depth = true) :
    s.tapRead t size lfo depth = ⟨s, F32.nan, 0⟩ := by
  simp only [State.tapRead, F32.eq_isNaN (.inl h), F32.lt_isNaN (.inl h), F32.lt_isNaN (.inr h)]
  rfl

end

/-! ### One grain (R197 to R199) -/

/-- The generator after the tracker of a grain at phase `g`: one draw where it retriggers. -/
def State.grainRng (s : State) (t : Fin 4) (k : Fin 2) (g : Word) : Word :=
  if s.retriggers t k g then xorshift s.rng else s.rng

/-- The offset of a grain at phase `g`: the draw times `depth` where it retriggers. -/
def State.grainOffset (s : State) (t : Fin 4) (k : Fin 2) (g depth : Word) : Word :=
  if s.retriggers t k g then F32.mul (unitInterval (s.grainRng t k g)) depth
  else s.goff[grainIndex t k]

theorem retrigger_eq_withGrains (s : State) (t : Fin 4) (k : Fin 2) (g depth : Word) :
    s.retrigger t k g depth = s.withGrains (s.gprev.set (grainIndex t k).val g)
      (s.goff.set (grainIndex t k).val (s.grainOffset t k g depth)) (s.grainRng t k g) := by
  rw [State.retrigger, State.grainOffset, State.grainRng]
  cases s.retriggers t k g with
  | false =>
    have hoff : s.goff.set (grainIndex t k).val s.goff[grainIndex t k] = s.goff :=
      Vector.set_getElem_self _
    simp only [Bool.false_eq_true, if_false, hoff]
    rfl
  | true =>
    simp only [if_true]
    rfl

/-- The read of a grain sees the lines of the state before it and the grain's own offset. -/
theorem grain_eq (s : State) (t : Fin 4) (k : Fin 2) (base g depth : Word) :
    let time := F32.add base
      (F32.mul (s.grainOffset t k g depth) (F32.ofDec s.cfg.modScaleMs))
    s.grain t k base g depth = ⟨s.retrigger t k g depth,
      F32.mul (s.dlValue (tapLine t) time s.cfg.tapInterp) (grainWindow s.cfg g),
      s.dlCauses (tapLine t) time s.cfg.tapInterp⟩ := by
  have hcfg : (s.retrigger t k g depth).cfg = s.cfg := (retrigger_grainsOnly s t k g depth).fields.1
  have hlines : (s.retrigger t k g depth).lines = s.lines :=
    (retrigger_grainsOnly s t k g depth).fields.2.1
  have hoff : (s.retrigger t k g depth).goff[grainIndex t k] = s.grainOffset t k g depth := by
    rw [retrigger_eq_withGrains]
    exact Vector.getElem_set_self _
  simp only [State.grain, State.tapAt, State.grainTime, hoff, hcfg, dlCauses_congr hcfg,
    dlValue_congr hcfg (congrArg (·[tapLine t]) hlines)]

/-- The tracker of grain 0 does not touch that of grain 1. -/
theorem retrigger_first_second (s : State) (t : Fin 4) (g depth : Word) :
    (s.retrigger t 0 g depth).gprev[grainIndex t 1] = s.gprev[grainIndex t 1] ∧
      (s.retrigger t 0 g depth).goff[grainIndex t 1] = s.goff[grainIndex t 1] := by
  have hne : (grainIndex t 0).val ≠ (grainIndex t 1).val := by simp [grainIndex]
  rw [retrigger_eq_withGrains]
  exact ⟨Vector.getElem_set_ne (grainIndex t 0).isLt (grainIndex t 1).isLt hne,
    Vector.getElem_set_ne (grainIndex t 0).isLt (grainIndex t 1).isLt hne⟩

theorem retriggers_second (s : State) (t : Fin 4) (g depth g' : Word) :
    (s.retrigger t 0 g depth).retriggers t 1 g' = s.retriggers t 1 g' := by
  rw [State.retriggers, State.retriggers, (retrigger_first_second s t g depth).1]

/-- In granular mode both grains move their trackers, grain 0 first, and read the lines of the state before
them (R199). -/
theorem grainRead_eq (s : State) (t : Fin 4) (base lfo depth : Word) :
    let g0 := grainPhase s.cfg t lfo 0
    let g1 := grainPhase s.cfg t lfo 1
    let s1 := s.retrigger t 0 g0 depth
    let time := fun off => F32.add base (F32.mul off (F32.ofDec s.cfg.modScaleMs))
    let read := fun off => s.dlValue (tapLine t) (time off) s.cfg.tapInterp
    s.grainRead t base lfo depth = ⟨s1.retrigger t 1 g1 depth,
      F32.add (F32.mul (read (s.grainOffset t 0 g0 depth)) (grainWindow s.cfg g0))
        (F32.mul (read (s1.grainOffset t 1 g1 depth)) (grainWindow s.cfg g1)),
      s.dlCauses (tapLine t) (time (s.grainOffset t 0 g0 depth)) s.cfg.tapInterp |||
        s.dlCauses (tapLine t) (time (s1.grainOffset t 1 g1 depth)) s.cfg.tapInterp⟩ := by
  intro g0 g1 s1 time read
  obtain ⟨hcfg, hlines, -⟩ : s1.cfg = s.cfg ∧ s1.lines = s.lines ∧ _ :=
    (retrigger_grainsOnly s t 0 g0 depth).fields
  simp only [State.grainRead, grain_eq, hcfg, dlCauses_congr hcfg,
    dlValue_congr hcfg (congrArg (·[tapLine t]) hlines), s1, g0, g1, time, read]

/-! ### Draws of the generator (R201, R202) -/

/-- `y` is reached from `x` by at most `n` steps of the generator. -/
def DrawsAtMost (n : Nat) (x y : Word) : Prop := ∃ k, k ≤ n ∧ y = Claims.drawn k x

theorem drawn_add (m n : Nat) (x : Word) :
    Claims.drawn (m + n) x = Claims.drawn n (Claims.drawn m x) := by
  induction m generalizing x with
  | zero => rw [Nat.zero_add, Claims.drawn]
  | succ m ih => rw [Nat.succ_add, Claims.drawn, ih, Claims.drawn]

theorem DrawsAtMost.zero (n : Nat) (x : Word) : DrawsAtMost n x x := ⟨0, n.zero_le, rfl⟩

theorem DrawsAtMost.trans {m n : Nat} {x y z : Word} (h : DrawsAtMost m x y)
    (h' : DrawsAtMost n y z) : DrawsAtMost (m + n) x z := by
  obtain ⟨i, hi, rfl⟩ := h
  obtain ⟨j, hj, rfl⟩ := h'
  exact ⟨i + j, Nat.add_le_add hi hj, (drawn_add i j x).symm⟩

theorem retrigger_draws (s : State) (t : Fin 4) (k : Fin 2) (g depth : Word) :
    DrawsAtMost 1 s.rng (s.retrigger t k g depth).rng := by
  rw [retrigger_eq_withGrains]
  change DrawsAtMost 1 s.rng (s.grainRng t k g)
  rw [State.grainRng]
  split
  · exact ⟨1, le_rfl, rfl⟩
  · exact .zero 1 _

/-- A tap read takes at most one draw for each of its two grains. -/
theorem tapRead_draws (s : State) (t : Fin 4) (size lfo depth : Word) :
    DrawsAtMost 2 s.rng (s.tapRead t size lfo depth).state.rng := by
  cases h : F32.lt F32.zero depth with
  | false =>
    rw [tapRead_state_of_not_positive s t size lfo depth h]
    exact .zero 2 _
  | true =>
    rw [tapRead_of_positive h, grainRead_eq]
    exact (retrigger_draws _ _ _ _ _).trans (retrigger_draws _ _ _ _ _)

theorem readTaps_draws (s : State) (size lfo depth : Word) :
    DrawsAtMost 8 s.rng (s.readTaps size lfo depth).state.rng :=
  (((tapRead_draws s 0 size lfo depth).trans (tapRead_draws _ 1 size lfo depth)).trans
    (tapRead_draws _ 2 size lfo depth)).trans (tapRead_draws _ 3 size lfo depth)

theorem readTaps_state_of_not_positive (s : State) (size lfo depth : Word)
    (h : F32.lt F32.zero depth = false) : (s.readTaps size lfo depth).state = s := by
  simp only [State.readTaps, tapRead_state_of_not_positive _ _ _ _ _ h]

theorem fdnTaps_draws (s : State) (o : FdnOperands) :
    DrawsAtMost 8 s.rng (s.fdnTaps o).state.rng := readTaps_draws (s.phStep o.speed) _ _ _

theorem fdnTaps_of_not_positive (s : State) (o : FdnOperands) (h : F32.lt F32.zero o.depth = false) :
    (s.fdnTaps o).state.gprev = s.gprev ∧ (s.fdnTaps o).state.goff = s.goff ∧
      (s.fdnTaps o).state.rng = s.rng := by
  rw [State.fdnTaps, readTaps_state_of_not_positive _ _ _ _ h]
  exact ⟨rfl, rfl, rfl⟩

/-- Of the trackers and the generator a sample step leaves what its tap reads leave. -/
theorem fdnStep_grains (s : State) (o : FdnOperands) :
    (s.fdnStep o).1.gprev = (s.fdnTaps o).state.gprev ∧
      (s.fdnStep o).1.goff = (s.fdnTaps o).state.goff ∧
      (s.fdnStep o).1.rng = (s.fdnTaps o).state.rng := by
  obtain ⟨-, -, hprev, hoff, hrng, -⟩ := (fdnWritten_linesYOnly s o).fields
  exact ⟨hprev, hoff, hrng⟩

end Sys2Proof.Machine

namespace Sys2Proof.Claims

open Machine

/-- Settles O40: PHS is the phasor step, its new phase the result. -/
theorem phsResult : Obligations.PhsResult := by
  intro s p
  rw [← checkFinite_eq]
  rfl

/-- Settles O41: the arithmetic, the zero and the exact output of the generator. -/
theorem generatorStep : Obligations.GeneratorStep := by
  intro x
  obtain ⟨hf, hv⟩ := unitInterval_exact x
  refine ⟨xorshift_toNat x, xorshift_eq_zero_iff x, hf, ?_, unitInterval_bounds x⟩
  rw [hv]
  push_cast
  ring

/-! ### TAPR (R208) -/

/-- The checks of TAPR in the words of the claims. -/
def taprChecks (s : State) : Causes :=
  finiteCheck (opr s 0) ||| finiteCheck (opr s 1) ||| finiteCheck (opr s 2) |||
    rangeCheck (opr s 0) one fiveHundred ||| rangeCheck (opr s 2) minusOne one

theorem tapr_bounds : sizeMin = one ∧ sizeMax = fiveHundred ∧ depthMin = minusOne ∧ depthMax = one := by
  decide +kernel

/-- TAPR is the tap read of its tap, completed with its checks and the causes of the read. -/
theorem exec_tapr {s : State} {u : BitVec 3} {t : Fin 4} (hu : unitTap u = some t) {r : Ran}
    (hr : s.tapRead t (opr s 0) (opr s 1) (opr s 2) = r) :
    exec (.tapr u) s = .next (done (r.state.setRes0 r.value) (taprChecks s ||| r.causes)) := by
  subst hr
  obtain ⟨hmin, hmax, hlow, hhigh⟩ := tapr_bounds
  rw [exec, execTapr, hu]
  dsimp only
  rw [hmin, hmax, hlow, hhigh, checkFinite_eq, checkFinite_eq, checkFinite_eq, checkRange_eq,
    checkRange_eq]
  rfl

/-- Settles O42: the modes without grains are a read of the tap line, or none. -/
theorem taprWithoutGrains : Obligations.TaprWithoutGrains := by
  intro s t size lfo depth base exc checks readAt
  refine ⟨fun h => exec_tapr (unitTap_ofNat t) (tapRead_of_zero h),
    fun h => exec_tapr (unitTap_ofNat t) (tapRead_of_negative h), fun h => ?_⟩
  have hnone : taprChecks s ||| 0 = checks := BitVec.or_zero
  rw [← hnone]
  exact exec_tapr (unitTap_ofNat t) (tapRead_of_isNaN h)

/-- Settles O43: the two trackers one after the other, in terms of the state before the command. -/
theorem taprGranular : Obligations.TaprGranular := by
  intro s t h size lfo depth base i0 i1 g0 g1 again0 again1 rng0 rng1 off0 off1 time window read
  have hrng : (s.retrigger t 0 g0 depth).grainRng t 1 g1 = rng1 := by
    rw [State.grainRng, retriggers_second, retrigger_eq_withGrains]
    rfl
  have hoff : (s.retrigger t 0 g0 depth).grainOffset t 1 g1 depth = off1 := by
    rw [State.grainOffset, hrng, retriggers_second, (retrigger_first_second s t g0 depth).2]
    rfl
  have hstate : (s.retrigger t 0 g0 depth).retrigger t 1 g1 depth =
      s.withGrains ((s.gprev.set i0 g0).set i1 g1) ((s.goff.set i0 off0).set i1 off1) rng1 := by
    rw [retrigger_eq_withGrains, hrng, hoff, retrigger_eq_withGrains]
    rfl
  have hread := (tapRead_of_positive (size := size) (lfo := lfo) (t := t) h).trans
    (grainRead_eq s t base lfo depth)
  have hg0 : grainPhase s.cfg t lfo 0 = g0 := rfl
  have hg1 : grainPhase s.cfg t lfo 1 = g1 := rfl
  simp only [hg0, hg1, hoff, hstate] at hread
  refine (exec_tapr (unitTap_ofNat t) hread).trans ?_
  simp only [← BitVec.or_assoc]
  rfl

/-! ### The frame of the trackers and the generator -/

/-- What TAPR of any unit leaves alone, and its draws (R202, R205). -/
theorem tapr_grains (s : State) (u : BitVec 3) :
    ∃ t, exec (.tapr u) s = .next t ∧ t.lines = s.lines ∧ t.y = s.y ∧ t.phase = s.phase ∧
      (F32.lt 0 (opr s 2) = false → t.gprev = s.gprev ∧ t.goff = s.goff ∧ t.rng = s.rng) ∧
      DrawsAtMost 2 s.rng t.rng := by
  cases hu : unitTap u with
  | none =>
    refine ⟨s.refuseCommand, ?_, rfl, rfl, rfl, fun _ => ⟨rfl, rfl, rfl⟩, .zero 2 _⟩
    rw [exec, execTapr, hu]
  | some k =>
    obtain ⟨-, hlines, hy, hphase, -⟩ :=
      (tapRead_grainsOnly s k (opr s 0) (opr s 1) (opr s 2)).fields
    refine ⟨_, exec_tapr hu rfl, hlines, hy, hphase, fun h => ?_, tapRead_draws s k _ _ _⟩
    rw [tapRead_state_of_not_positive s k _ _ _ h]
    exact ⟨rfl, rfl, rfl⟩

/-- What FDN does to the trackers and the generator (R201, R202). -/
theorem fdn_grains (s : State) :
    ∃ r, exec .fdn s = .next r ∧
      (F32.lt 0 (opr s 3) = false → r.gprev = s.gprev ∧ r.goff = s.goff ∧ r.rng = s.rng) ∧
      DrawsAtMost 8 s.rng r.rng := by
  obtain ⟨hprev, hoff, hrng⟩ := fdnStep_grains s s.fdnOperands
  refine ⟨_, rfl, ?_⟩
  simp only [State.complete_gprev, State.complete_goff, State.complete_rng, State.setRes_gprev,
    State.setRes_goff, State.setRes_rng, hprev, hoff, hrng]
  exact ⟨fdnTaps_of_not_positive s s.fdnOperands, fdnTaps_draws s s.fdnOperands⟩

/-- Settles O44: the trackers and the generator move in granular mode only, by the draws of the taps. -/
theorem grainStateOnlyInGranularMode : Obligations.GrainStateOnlyInGranularMode := by
  intro s u
  obtain ⟨t, htapr, hlines, hy, hphase, hkept, hdraws⟩ := tapr_grains s u
  obtain ⟨r, hfdn, hkept', hdraws'⟩ := fdn_grains s
  exact ⟨t, r, htapr, hfdn, hlines, hy, hphase, hkept, hkept', hdraws, hdraws'⟩

end Sys2Proof.Claims
end

section
/-! PROOFS. SATA, the early reflections of ERC as two sums over the reflections in order, and the reads of the
reference reflections, which a size in range keeps inside their lines (43_network.md R231 to R235). -/

namespace Sys2Proof.F32

/-- A word between two others in order is a number, and finite where the upper one is. -/
theorem finite_of_le_le {a lo hi : Word} (hhi : isFinite hi = true) (hlo : 0 ≤ val lo)
    (h0 : le lo a = true) (h1 : le a hi = true) :
    isFinite a = true ∧ val lo ≤ val a ∧ val a ≤ val hi := by
  simp only [le, Bool.and_eq_true, Bool.not_eq_true', decide_eq_true_eq] at h0 h1
  obtain ⟨⟨-, hn⟩, h0⟩ := h0
  obtain ⟨-, h1⟩ := h1
  refine ⟨?_, h0, h1⟩
  by_contra hf
  have hm := mag_infinite hn (Bool.eq_false_iff.2 hf)
  have hlt := mag_finite_lt hhi
  have ha := natAbs_val a
  have hb := natAbs_val hi
  omega

/-- A correctly rounded value whose exact value is at most a finite word in magnitude is finite. -/
theorem Nearest.isFinite_of_le {w v : Word} {num : Int} {den : Nat} (h : Nearest w num den)
    (hden : 0 < den) (hv : isFinite v = true) (hle : num.natAbs ≤ (val v).natAbs * den) :
    isFinite w = true := by
  obtain ⟨-, hfin, -, -⟩ := h
  rw [hfin]
  have hb : (2 ^ 24 - 1) * 2 ^ 253 < overflowBound := by decide
  rw [natAbs_val] at hle
  exact hle.trans_lt
    (Nat.mul_lt_mul_of_pos_right ((mag_finite_le hv).trans_lt hb) hden)

/-- A rounded product of values that are not negative is not negative, and passes no finite word that the
exact product does not pass. -/
theorem mul_bounded {a b v : Word} (ha : isFinite a = true) (hb : isFinite b = true)
    (hv : isFinite v = true) (ha0 : 0 ≤ val a) (hb0 : 0 ≤ val b)
    (h : val a * val b ≤ val v * unitsPerOne) :
    isFinite (mul a b) = true ∧ 0 ≤ val (mul a b) ∧ val (mul a b) ≤ val v := by
  have hn := mul_nearest ha hb
  have h0 : 0 ≤ val a * val b := Int.mul_nonneg ha0 hb0
  refine ⟨hn.isFinite_of_le unitsPerOne_pos hv ?_, ?_, hn.le unitsPerOne_pos hv h⟩
  · rw [← Int.natAbs_natCast unitsPerOne, ← Int.natAbs_mul]
    omega
  · rw [← val_zero]
    exact hn.ge unitsPerOne_pos (by decide) (by rw [val_zero, Int.zero_mul]; exact h0)

theorem floor_mono {a b : Word} (h : val a ≤ val b) : floor a ≤ floor b :=
  Int.ediv_le_ediv (by have := unitsPerOne_pos; omega) h

end Sys2Proof.F32

namespace Sys2Proof.Claims

open Machine F32

/-- Settles O47: SATA is the one-pole step of unit 4 towards its target, in Hertz mode. -/
theorem sataResult : Obligations.SataResult := by
  intro s target c g
  rw [exec, execSata, State.satProcess, State.opHz, State.opStep_resultY, checkFinite_eq]
  rfl

/-- What one reflection of a line adds to the running sums, in the words of the claims. -/
theorem addReflection_eq (s : State) (size : Word) (acc : Stereo) (p : Fin 8 × Reflection) :
    s.addReflection p.1 size acc p.2 =
      ⟨F32.add acc.left (F32.mul (reflected s size p) (s.cfg.cosT (angle p.2))),
        F32.add acc.right (F32.mul (reflected s size p) (s.cfg.sinT (angle p.2))),
        acc.causes ||| s.dlCauses p.1 (reflectionTime p.2 size) s.cfg.erInterp⟩ := by
  have hangle : panAngle p.2 = angle p.2 := by
    rw [panAngle, angle, show F32.ofDec ⟨125, 1000⟩ = 0x3E000000 by decide +kernel]
    rfl
  rw [State.addReflection, hangle]
  rfl

/-- A cause that is none or RANGE is RANGE raised when it is not none. -/
theorem dlCauses_eq_raise (s : State) (u : Fin 8) (time : Word) (mode : Interp) :
    s.dlCauses u time mode = raise (s.dlCauses u time mode != 0) range := by
  rcases dlCauses_cases s u time mode with h | h <;> rw [h] <;> rfl

theorem raise_or (p q : Bool) (c : Causes) : raise p c ||| raise q c = raise (p || q) c := by
  cases p <;> cases q <;> simp [raise]

/-- The running sums are two sums, one for each side, and RANGE if any read raises it. -/
theorem foldl_addReflection (s : State) (size : Word) (ps : List (Fin 8 × Reflection))
    (left right : Word) (p : Bool) :
    ps.foldl (fun acc p => s.addReflection p.1 size acc p.2) ⟨left, right, raise p range⟩ =
      ⟨ps.foldl (fun acc p =>
          F32.add acc (F32.mul (reflected s size p) (s.cfg.cosT (angle p.2)))) left,
        ps.foldl (fun acc p =>
          F32.add acc (F32.mul (reflected s size p) (s.cfg.sinT (angle p.2)))) right,
        raise (p || ps.any fun p =>
          s.dlCauses p.1 (reflectionTime p.2 size) s.cfg.erInterp != 0) range⟩ := by
  induction ps generalizing left right p with
  | nil => rw [List.any_nil, Bool.or_false]; rfl
  | cons q ps ih =>
    rw [List.foldl_cons, addReflection_eq, dlCauses_eq_raise, raise_or, ih, List.any_cons,
      ← Bool.or_assoc]
    rfl

/-- The early reflections are one pass over the reflections in the order of R233. -/
theorem erProcess_eq_foldl (s : State) (size : Word) :
    s.erProcess size = (reflectionsInOrder s.cfg).foldl
      (fun acc p => s.addReflection p.1 size acc p.2) ⟨0, 0, raise false range⟩ := by
  rw [reflectionsInOrder, List.foldl_append, List.foldl_map, List.foldl_map]
  rfl

/-- Settles O45: the reflections are one pass, whose three results are the two sums and RANGE. -/
theorem ercResult : Obligations.ErcResult := by
  intro s size rs
  obtain ⟨hmin, hmax, -, -⟩ := tapr_bounds
  rw [exec, execErc, erProcess_eq_foldl, foldl_addReflection, checkFinite_eq, checkRange_eq, hmin,
    hmax]
  rfl

/-- A size in range, as R7 has it. -/
def sizeInRange (size : Word) : Prop := F32.le one size = true ∧ F32.le size fiveHundred = true

/-- 0.75, a bound of the reference reflection fractions, and 375.0, the read time in milliseconds that it
allows at the largest size. -/
def threeQuarters : Word := 0x3F400000
def longestTime : Word := 0x43BB8000

theorem sizeInRange.finite {size : Word} (h : sizeInRange size) :
    isFinite size = true ∧ 0 ≤ val size ∧ val size ≤ val fiveHundred := by
  obtain ⟨hf, h0, h1⟩ := finite_of_le_le (by decide) (by decide) h.1 h.2
  exact ⟨hf, le_trans (by decide) h0, h1⟩

/-- The operand checks of a size in range raise nothing. -/
theorem sizeInRange.unflagged {size : Word} (h : sizeInRange size) :
    finiteCheck size ||| rangeCheck size one fiveHundred = 0 := by
  rw [finiteCheck, rangeCheck, h.finite.1, h.1, h.2]
  rfl

/-- A reflection of at most three quarters of a size in range is read at most 375 ms back. -/
theorem reflectionTime_bounds {r : Reflection} {size : Word} (hf : isFinite (F32.ofDec r.frac) = true)
    (h0 : 0 ≤ val (F32.ofDec r.frac)) (h1 : val (F32.ofDec r.frac) ≤ val threeQuarters)
    (hsize : sizeInRange size) :
    isFinite (reflectionTime r size) = true ∧ 0 ≤ val (reflectionTime r size) ∧
      val (reflectionTime r size) ≤ val longestTime := by
  obtain ⟨fs, s0, s1⟩ := hsize.finite
  refine mul_bounded hf fs (by decide) h0 s0 ?_
  calc val (F32.ofDec r.frac) * val size
      ≤ val threeQuarters * val fiveHundred := Int.mul_le_mul h1 s1 s0 (by decide)
    _ = val longestTime * unitsPerOne := by decide

/-- A linear read at most `longestTime` back is inside its contract, on a line that holds the delay of
`longestTime` and the sample after it. -/
theorem dlCauses_of_short {s : State} {u : Fin 8} {time bound : Word}
    (hspms : isFinite s.cfg.spms = true) (h0 : 0 ≤ val s.cfg.spms) (hbound : isFinite bound = true)
    (hdelay : val longestTime * val s.cfg.spms ≤ val bound * unitsPerOne)
    (hlength : floor bound + 2 ≤ s.cfg.length u) (ht : isFinite time = true) (ht0 : 0 ≤ val time)
    (ht1 : val time ≤ val longestTime) : s.dlCauses u time .linear = 0 := by
  obtain ⟨fd, d0, d1⟩ : isFinite (s.delayOf time) = true ∧ 0 ≤ val (s.delayOf time) ∧
      val (s.delayOf time) ≤ val bound :=
    mul_bounded ht hspms hbound ht0 h0 ((Int.mul_le_mul_of_nonneg_right ht1 h0).trans hdelay)
  have hle : F32.le F32.zero (s.delayOf time) = true := by
    rw [le_numbers isNaN_zero (isNaN_of_isFinite fd), val_zero]
    exact decide_eq_true d0
  have hfloor : floor (s.delayOf time) + 1 ≤ (s.cfg.length u : Int) - 1 := by
    have := floor_mono d1
    omega
  have hin : admissible .linear (s.delayOf time) (floor (s.delayOf time)) (s.cfg.length u) = true := by
    rw [admissible, hle, decide_eq_true hfloor]
    rfl
  rw [State.dlCauses, fd, hin]
  rfl

/-- What the reference reflections have in common at every rate: linear reads, on lines 0 and 1, and
fractions of at most three quarters. -/
theorem reference_reflections (w : Word) :
    (Config.referenceAt w).erInterp = .linear ∧
      ∀ p ∈ reflectionsInOrder (Config.referenceAt w), (p.1 = 0 ∨ p.1 = 1) ∧
        isFinite (F32.ofDec p.2.frac) = true ∧ 0 ≤ val (F32.ofDec p.2.frac) ∧
        val (F32.ofDec p.2.frac) ≤ val threeQuarters := by
  refine ⟨rfl, ?_⟩
  change ∀ p ∈ reflectionsInOrder Config.reference, _
  decide +kernel

/-- The samples in 375 ms at a rate: a bound as a word, with room for it in the lines 0 and 1. -/
def holdsLongest (c : Config) (bound : Word) : Prop :=
  isFinite c.spms = true ∧ 0 ≤ val c.spms ∧ isFinite bound = true ∧
    val longestTime * val c.spms ≤ val bound * unitsPerOne ∧
    floor bound + 2 ≤ c.length 0 ∧ floor bound + 2 ≤ c.length 1

/-- 375.0, 16538.0 and 18000.0 samples at the three rates. -/
theorem reference_holdsLongest :
    holdsLongest (Config.referenceAt 0x447A0000) 0x43BB8000 ∧
      holdsLongest (Config.referenceAt 0x472C4400) 0x46813400 ∧
      holdsLongest (Config.referenceAt 0x473B8000) 0x468CA000 := by
  unfold holdsLongest
  decide +kernel

/-- At a rate whose lines hold 375 ms no reference reflection with a size in range raises RANGE. -/
theorem reference_reflection_unflagged {s : State} {w bound size : Word}
    (hcfg : s.cfg = Config.referenceAt w) (hlong : holdsLongest s.cfg bound) (hsize : sizeInRange size)
    {p : Fin 8 × Reflection} (hp : p ∈ reflectionsInOrder s.cfg) :
    s.dlCauses p.1 (reflectionTime p.2 size) s.cfg.erInterp = 0 := by
  obtain ⟨hlinear, hfracs⟩ := reference_reflections w
  rw [← hcfg] at hlinear hfracs
  obtain ⟨hline, hf, h0, h1⟩ := hfracs p hp
  obtain ⟨hspms, hs0, hbound, hdelay, hl0, hl1⟩ := hlong
  obtain ⟨ht, ht0, ht1⟩ := reflectionTime_bounds hf h0 h1 hsize
  rw [hlinear]
  refine dlCauses_of_short hspms hs0 hbound hdelay ?_ ht ht0 ht1
  rcases hline with e | e <;> rw [e] <;> assumption

/-- Settles O46: each reflection is read at most 375 ms back, which the lines 0 and 1 hold at the three
rates. -/
theorem reflectionReadsAdmissible : Obligations.ReflectionReadsAdmissible := by
  intro s hcfg h1 h500
  have hsize : sizeInRange (opr s 0) := ⟨h1, h500⟩
  obtain ⟨r0, r1, r2⟩ := reference_holdsLongest
  obtain ⟨w, bound, hw, hlong⟩ : ∃ w bound, s.cfg = Config.referenceAt w ∧ holdsLongest s.cfg bound := by
    rcases hcfg with h | h | h
    · exact ⟨_, _, h, h ▸ r0⟩
    · exact ⟨_, _, h, h ▸ r1⟩
    · exact ⟨_, _, h, h ▸ r2⟩
  have hnone : ((reflectionsInOrder s.cfg).any fun p =>
      s.dlCauses p.1 (reflectionTime p.2 (opr s 0)) s.cfg.erInterp != 0) = false := by
    rw [List.any_eq_false]
    intro p hp
    rw [reference_reflection_unflagged hw hlong hsize hp]
    decide
  refine ⟨_, ercResult s, ?_⟩
  change s.status ||| (finiteCheck (opr s 0) ||| rangeCheck (opr s 0) one fiveHundred |||
    raise ((reflectionsInOrder s.cfg).any fun p =>
      s.dlCauses p.1 (reflectionTime p.2 (opr s 0)) s.cfg.erInterp != 0) range) = s.status
  rw [hsize.unflagged, hnone]
  exact BitVec.or_zero

end Sys2Proof.Claims
end

section
/-! PROOFS. The feedback matrix (43_network.md R237, R250): the norm of a vector over the real numbers, and
the binary32 sums of a row on integers. -/

namespace Sys2Proof.F32

/-- A finite word whose value is an integer. -/
def HoldsInt (w : Word) (n : Int) : Prop := isFinite w = true ∧ val w = n * unitsPerOne

/-- Integers of up to 24 bits convert exactly. -/
theorem holdsInt_ofInt {n : Int} (h : n.natAbs ≤ 2 ^ 24) : HoldsInt (ofInt n) n := by
  obtain ⟨hv, hf⟩ := exact_int (exists_int h)
  exact ⟨hf, hv⟩

theorem HoldsInt.neg {a : Word} {m : Int} (h : HoldsInt a m) : HoldsInt (F32.neg a) (-m) := by
  obtain ⟨hf, hv⟩ := h
  exact ⟨by rwa [isFinite_neg], by rw [val_neg, hv, Int.neg_mul]⟩

/-- A sum of integers that has up to 24 bits is exact. -/
theorem HoldsInt.add {a b : Word} {m n : Int} (ha : HoldsInt a m) (hb : HoldsInt b n)
    (h : (m + n).natAbs ≤ 2 ^ 24) : HoldsInt (F32.add a b) (m + n) := by
  obtain ⟨fa, va⟩ := ha
  obtain ⟨fb, vb⟩ := hb
  obtain ⟨v, hf, hv⟩ := exists_int h
  have hn := add_nearest fa fb
  have hsum : val a + val b = val v * (1 : Nat) := by rw [va, vb, hv, Nat.cast_one]; ring
  exact ⟨hn.isFinite_of_exact (by decide) hf hsum, (hn.exact (by decide) hf hsum).trans hv⟩

theorem HoldsInt.sub {a b : Word} {m n : Int} (ha : HoldsInt a m) (hb : HoldsInt b n)
    (h : (m - n).natAbs ≤ 2 ^ 24) : HoldsInt (F32.sub a b) (m - n) := by
  rw [sub_eq_add_flip]
  exact ha.add hb.neg h

end Sys2Proof.F32

namespace Sys2Proof.Machine

open F32

/-- A matrix a core can be built with: entries 1 and -1, and orthogonal rows of norm 2 (R10). -/
theorem matrixLegal_iff (m : Vector (Vector Int 4) 4) :
    matrixLegal m = true ↔ (∀ i j : Fin 4, m[i][j] = 1 ∨ m[i][j] = -1) ∧
      ∀ i j : Fin 4, rowProduct m[i] m[j] = if i = j then 4 else 0 := by
  simp only [matrixLegal, Bool.and_eq_true, Vector.all_eq_true, Bool.or_eq_true, beq_iff_eq,
    List.all_eq_true, List.mem_finRange, true_implies, Fin.forall_iff]
  rfl

theorem buildable_matrix {c : Config} (h : c.buildable = true) : matrixLegal c.matrix = true := by
  simp only [Config.buildable, Bool.and_eq_true] at h
  tauto

/-- One signed term of a matrix row keeps an integral running sum exact. -/
theorem holdsInt_signedTerm {e : Int} (he : e = 1 ∨ e = -1) {acc r : Word} {m n : Int}
    (ha : HoldsInt acc m) (hr : HoldsInt r n) (h : (m + e * n).natAbs ≤ 2 ^ 24) :
    HoldsInt (if e > 0 then F32.add acc r else F32.sub acc r) (m + e * n) := by
  rcases he with rfl | rfl
  · rw [if_pos (by decide), Int.one_mul]
    exact ha.add hr (by rwa [Int.one_mul] at h)
  · have e1 : m + -1 * n = m - n := by ring
    rw [if_neg (by decide), e1]
    exact ha.sub hr (by rwa [e1] at h)

/-- One row of the matrix multiply is exact on integers of up to 22 bits (R250). -/
theorem matrixRow_exact {row : Vector Int 4} (hrow : ∀ j : Fin 4, row[j] = 1 ∨ row[j] = -1)
    {r : Vector Word 4} {n : Fin 4 → Int} (hr : ∀ j : Fin 4, HoldsInt r[j] (n j))
    (hn : ∀ j, (n j).natAbs ≤ 2 ^ 22) :
    HoldsInt (matrixRow row r) (∑ j : Fin 4, row[j] * n j) := by
  have hterm : ∀ j : Fin 4, (row[j] * n j).natAbs ≤ 2 ^ 22 := by
    intro j
    rw [Int.natAbs_mul]
    rcases hrow j with h | h <;> rw [h] <;> simpa using hn j
  have h0 : HoldsInt (if row[0] > 0 then r[0] else F32.neg r[0]) (row[(0 : Fin 4)] * n 0) := by
    rcases hrow 0 with h | h
    · rw [h, show row[0] = 1 from h, if_pos (by decide), Int.one_mul]
      exact hr 0
    · rw [h, show row[0] = -1 from h, if_neg (by decide), Int.neg_mul, Int.one_mul]
      exact (hr 0).neg
  have t0 := hterm 0
  have t1 := hterm 1
  have t2 := hterm 2
  have t3 := hterm 3
  have h1 := holdsInt_signedTerm (hrow 1) h0 (hr 1) (by omega)
  have h2 := holdsInt_signedTerm (hrow 2) h1 (hr 2) (by omega)
  have h3 := holdsInt_signedTerm (hrow 3) h2 (hr 3) (by omega)
  rw [Fin.sum_univ_four]
  exact h3

/-- The matrix of a configuration over the real numbers. -/
def realMatrix (m : Vector (Vector Int 4) 4) : Matrix (Fin 4) (Fin 4) ℝ :=
  Matrix.of fun i j => (m[i][j] : ℝ)

/-- Orthogonal rows of norm 2 are orthogonal columns of norm 2. -/
theorem realMatrix_columns {m : Vector (Vector Int 4) 4} (h : matrixLegal m = true) :
    (realMatrix m).transpose * realMatrix m = (4 : ℝ) • (1 : Matrix (Fin 4) (Fin 4) ℝ) := by
  obtain ⟨-, hrows⟩ := (matrixLegal_iff m).1 h
  have hmul : realMatrix m * (realMatrix m).transpose = (4 : ℝ) • 1 := by
    ext i j
    have hij := congrArg (Int.cast : Int → ℝ) (hrows i j)
    rw [rowProduct] at hij
    push_cast at hij
    rw [Matrix.mul_apply, Fin.sum_univ_four, Matrix.smul_apply, Matrix.one_apply]
    refine hij.trans ?_
    split <;> simp
  have hinv : realMatrix m * ((1 / 4 : ℝ) • (realMatrix m).transpose) = 1 := by
    rw [Matrix.mul_smul, hmul, smul_smul]
    norm_num
  have hcomm := mul_eq_one_comm.1 hinv
  rw [Matrix.smul_mul] at hcomm
  rw [← hcomm, smul_smul]
  norm_num

/-- The matrix doubles the norm of a real vector (R250). -/
theorem realMatrix_norm {m : Vector (Vector Int 4) 4} (h : matrixLegal m = true) (v : Fin 4 → ℝ) :
    (∑ i : Fin 4, (∑ j : Fin 4, (m[i][j] : ℝ) * v j) ^ 2) = 4 * ∑ j : Fin 4, v j ^ 2 := by
  have hsq : ∀ u : Fin 4 → ℝ, ∑ i, u i ^ 2 = u ⬝ᵥ u := fun u => by simp only [dotProduct, sq]
  calc (∑ i : Fin 4, (∑ j : Fin 4, (m[i][j] : ℝ) * v j) ^ 2)
      = (realMatrix m).mulVec v ⬝ᵥ (realMatrix m).mulVec v := hsq _
    _ = v ⬝ᵥ ((realMatrix m).transpose * realMatrix m).mulVec v := by
        rw [← Matrix.mulVec_mulVec, Matrix.dotProduct_mulVec v, Matrix.vecMul_transpose]
    _ = 4 * ∑ j : Fin 4, v j ^ 2 := by
        rw [realMatrix_columns h, Matrix.smul_mulVec, Matrix.one_mulVec, dotProduct_smul, hsq]
        rfl

end Sys2Proof.Machine

namespace Sys2Proof.Claims

open Machine F32

/-- Settles O48: the columns are orthogonal because the rows are, and each partial sum of a row is an
integer of up to 24 bits. -/
theorem matrixOrthogonalAndExact : Obligations.MatrixOrthogonalAndExact := by
  intro c hc
  have hlegal := buildable_matrix hc
  refine ⟨realMatrix_norm hlegal, fun n hn i => ?_⟩
  obtain ⟨hentries, -⟩ := (matrixLegal_iff c.matrix).1 hlegal
  have hint : ∀ j : Fin 4,
      HoldsInt #v[ofInt (n 0), ofInt (n 1), ofInt (n 2), ofInt (n 3)][j] (n j) := by
    have h24 : ∀ j, HoldsInt (ofInt (n j)) (n j) := fun j => holdsInt_ofInt ((hn j).trans (by decide))
    intro j
    fin_cases j <;> exact h24 _
  obtain ⟨-, hv⟩ := matrixRow_exact (hentries i) hint hn
  rw [← unitsPerOne_cast, ← hv, matrixMul, Fin.getElem_fin, Vector.getElem_map]
  rfl

end Sys2Proof.Claims
end

section
/-! PROOFS. The sample step (43_network.md R240 to R248): what it leaves, every value in terms of the state
before it, and the command FDN in the words of the claims. -/

namespace Sys2Proof.F32

/-- A flushed word is not subnormal (R17). -/
theorem isSubnormal_ftz (x : Word) : isSubnormal (ftz x) = false := by
  rw [ftz]
  split
  · decide
  next h => exact Bool.eq_false_iff.2 h

end Sys2Proof.F32

namespace Sys2Proof.Machine

/-- The newest sample after a push is the value pushed (R133). -/
theorem Line.sample_push_newest {l : Line} {len : Nat} (h : l.wf len = true) (v : Word) :
    (l.push len v).sample len 0 = v := by
  obtain ⟨-, -, hcursor⟩ := Line.wf_iff.1 h
  have hnew := Line.sample_push h v (n := 0) (by omega)
  rwa [if_pos rfl, Nat.cast_zero] at hnew

/-! ### The sample step in terms of the state before it (R240) -/

/-- The early reflections depend on the lines and the configuration only. -/
theorem erProcess_congr {s t : State} (hc : t.cfg = s.cfg) (hl : t.lines = s.lines) (size : Word) :
    t.erProcess size = s.erProcess size := by
  have h : ∀ u, t.addReflection u size = s.addReflection u size := by
    intro u
    funext acc r
    simp only [State.addReflection, State.reflectionValue, hc, dlCauses_congr hc,
      dlValue_congr hc (congrArg (·[u]) hl)]
  simp only [State.erProcess, h, hc]

section

variable (s : State) (o : FdnOperands)

/-- The gate after one sample step (R238, R239). -/
def State.fdnGate : Word :=
  onePole s.y[4] (gateTarget s.cfg (amplitude (s.fdnMixed o)))
    (hertzCoefficient s.cfg (F32.ofDec s.cfg.satCutoffHz))

/-- What goes towards each tap in one sample step (R241, R242). -/
def State.fdnInput (i : Fin 4) : Word := (lineInputs s.cfg (s.fdnGate o) (s.fdnMixed o) o)[i]

/-- What goes into each allpass line in one sample step (R165). -/
def State.fdnDiffused (i : Fin 4) : Word :=
  s.tapDiffuserInput i (s.fdnInput o i) o.absorb o.diffuse

/-- What goes into each tap line in one sample step (R243). -/
def State.fdnFlushed (i : Fin 4) : Word := s.tapWritten i (s.fdnInput o i) o.absorb o.diffuse

theorem fdnTaps_grainsOnly : GrainsOnly (s.phStep o.speed) (s.fdnTaps o).state :=
  readTaps_grainsOnly _ _ _ _

/-- Steps 5 and 6 set the gate of the state that the tap reads leave. -/
theorem fdnGated_eq : s.fdnGated o = (s.fdnTaps o).state.setY 4 (s.fdnGate o) := by
  obtain ⟨hc, -, hy, -⟩ := (fdnTaps_grainsOnly s o).fields
  simp only [State.fdnGated, State.satProcess, State.opHz, State.opStep, hc, hy, State.phStep,
    State.setPhase_cfg, State.setPhase_y]
  rfl

theorem fdnGated_y4 : (s.fdnGated o).y[4] = s.fdnGate o := by
  rw [fdnGated_eq]
  exact Vector.getElem_set_self _

theorem fdnGated_y (i : Fin 4) : (s.fdnGated o).y[absorptionUnit i] = s.y[absorptionUnit i] := by
  obtain ⟨-, -, hy, -⟩ := (fdnTaps_grainsOnly s o).fields
  have hne : absorptionUnit i ≠ 4 := Fin.ne_of_val_ne (Nat.ne_of_lt i.isLt)
  rw [fdnGated_eq, State.setY_y_get, if_neg hne, hy]
  rfl

/-- What one sample step leaves in the two lines and the absorption filter of a tap, every value in terms
of the state before it. -/
theorem fdnStep_tap (i : Fin 4) :
    (s.fdnStep o).1.lines[allpassLine i] =
        s.lines[allpassLine i].push (s.cfg.length (allpassLine i)) (s.fdnDiffused o i) ∧
      (s.fdnStep o).1.lines[tapLine i] =
        s.lines[tapLine i].push (s.cfg.length (tapLine i)) (s.fdnFlushed o i) ∧
      (s.fdnStep o).1.y[absorptionUnit i] = s.tapAbsorbed i (s.fdnInput o i) o.absorb := by
  obtain ⟨hc, hl, -⟩ := fdnGated_fields s o
  obtain ⟨h, -⟩ := writeTaps_spec (s.fdnGated o)
    (lineInputs s.cfg (s.fdnGated o).y[4] (s.fdnMixed o) o) o.absorb o.diffuse
  obtain ⟨hallpass, htap, hy⟩ := h i
  have hv : (lineInputs s.cfg (s.fdnGated o).y[4] (s.fdnMixed o) o)[i] = s.fdnInput o i := by
    rw [fdnGated_y4]
    rfl
  obtain ⟨va, vd, vw⟩ := tapValues_congr hc (congrArg (·[allpassLine i]) hl) (fdnGated_y s o i)
    (s.fdnInput o i) o.absorb o.diffuse
  rw [hv, hc, hl, vd] at hallpass
  rw [hv, hc, hl, vw] at htap
  rw [hv, va] at hy
  exact ⟨hallpass, htap, hy⟩

theorem fdnStep_gate : (s.fdnStep o).1.y[4] = s.fdnGate o := by
  obtain ⟨-, h, -⟩ := writeTaps_spec (s.fdnGated o)
    (lineInputs s.cfg (s.fdnGated o).y[4] (s.fdnMixed o) o) o.absorb o.diffuse
  exact h.trans (fdnGated_y4 s o)

/-- The causes of one sample step: those of the tap, reflection and allpass reads. -/
theorem fdnStep_causes : (s.fdnStep o).2.causes =
    (s.fdnTaps o).causes ||| (s.erProcess o.size).causes |||
      (s.dlCauses (allpassLine 0) (s.allpassTime 0) s.cfg.apInterp |||
        s.dlCauses (allpassLine 1) (s.allpassTime 1) s.cfg.apInterp |||
        s.dlCauses (allpassLine 2) (s.allpassTime 2) s.cfg.apInterp |||
        s.dlCauses (allpassLine 3) (s.allpassTime 3) s.cfg.apInterp) := by
  obtain ⟨hc, -⟩ := fdnGated_fields s o
  obtain ⟨hct, hlt, -⟩ := (fdnTaps_grainsOnly s o).fields
  obtain ⟨-, -, h⟩ := writeTaps_spec (s.fdnGated o)
    (lineInputs s.cfg (s.fdnGated o).y[4] (s.fdnMixed o) o) o.absorb o.diffuse
  simp only [State.allpassTime, hc, dlCauses_congr hc] at h
  rw [State.fdnStep, State.fdnWritten, h, erProcess_congr (s := s) hct hlt]
  rfl

/-- The two outputs of one sample step (R244). -/
theorem fdnStep_outputs :
    (s.fdnStep o).2.left =
        outputOf (s.fdnTaps o).r[0] (s.fdnTaps o).r[2] (s.erProcess o.size).left ∧
      (s.fdnStep o).2.right =
        outputOf (s.fdnTaps o).r[1] (s.fdnTaps o).r[3] (s.erProcess o.size).right := by
  obtain ⟨hct, hlt, -⟩ := (fdnTaps_grainsOnly s o).fields
  rw [State.fdnStep, erProcess_congr (s := s) hct hlt]
  exact ⟨rfl, rfl⟩

/-- One sample step pushes one value into every line (R248). -/
theorem fdnStep_line (u : Fin 8) :
    ∃ v, (s.fdnStep o).1.lines[u] = s.lines[u].push (s.cfg.length u) v := by
  have hu : (∃ i, u = tapLine i) ∨ ∃ i, u = allpassLine i := by
    revert u
    decide
  rcases hu with ⟨i, rfl⟩ | ⟨i, rfl⟩
  · obtain ⟨-, htap, -⟩ := fdnStep_tap s o i
    exact ⟨_, htap⟩
  · obtain ⟨hallpass, -⟩ := fdnStep_tap s o i
    exact ⟨_, hallpass⟩

/-- What one sample step leaves, whole: the phase advanced, the trackers and the generator of the tap
reads, new lines and one-pole states, and nothing else. -/
theorem fdnStep_state : (s.fdnStep o).1 =
    ((s.phStep o.speed).withGrains (s.fdnTaps o).state.gprev (s.fdnTaps o).state.goff
      (s.fdnTaps o).state.rng).withLinesY (s.fdnStep o).1.lines (s.fdnStep o).1.y := by
  obtain ⟨h, -⟩ := fdnWritten_linesYOnly s o
  obtain ⟨htaps, -⟩ := fdnTaps_grainsOnly s o
  rw [← htaps]
  rw [fdnGated_eq] at h
  exact h

end

end Sys2Proof.Machine

namespace Sys2Proof.Claims

open Machine

/-- A push at the cursor of a well-formed line is what the claims call a write there (R130), and leaves
every other slot. -/
theorem push_wroteAtCursor {s t : State} (hs : s.linesWf) {u : Fin 8} {v : Word}
    (h : t.lines[u] = s.lines[u].push (s.cfg.length u) v) :
    wroteAtCursor s t u v ∧ ∀ j, j ≠ s.lines[u].cursor → t.memRead u j = s.memRead u j := by
  have ht : t.lines[u] = (s.dlWrite u v).lines[u] := by rw [h, State.dlWrite_line, if_pos rfl]
  obtain ⟨-, hslots, -⟩ := dlWrite_spec hs u v
  obtain ⟨hbytes, hcursor⟩ := dlWrite_wroteAtCursor hs u v
  refine ⟨⟨fun a => ?_, ?_⟩, fun j hj => ?_⟩
  · rw [State.memByte, ht]
    exact hbytes a
  · rw [ht]
    exact hcursor
  · rw [State.memRead, ht]
    exact hslots j hj

theorem fdn_bounds : speedMin = 0x3CA3D70A ∧ speedMax = 0x43160000 ∧ diffuseMax = fourFifths ∧
    decayMin = 0 ∧ decayMax = 0x3F99999A := by
  decide +kernel

/-- The operand checks of FDN in the words of the claims. -/
theorem fdnChecks_eq (s : State) : fdnChecks s.fdnOperands = fdnOperandCauses s := by
  obtain ⟨hmin, hmax, hlow, hhigh⟩ := tapr_bounds
  obtain ⟨hsmin, hsmax, hdiff, hdmin, hdmax⟩ := fdn_bounds
  simp only [fdnChecks, checkFinite_eq, checkRange_eq, hmin, hmax, hlow, hhigh, hsmin, hsmax, hdiff,
    hdmin, hdmax]
  rfl

/-- What FDN leaves: the sample step on its operands, completed with its checks and the causes of the
step. -/
def fdnResult (s : State) : State :=
  ((s.fdnStep s.fdnOperands).1.setRes (s.fdnStep s.fdnOperands).2.left
      (s.fdnStep s.fdnOperands).2.right).complete
    (fdnOperandCauses s ||| (s.fdnStep s.fdnOperands).2.causes)

theorem exec_fdn (s : State) : exec .fdn s = .next (fdnResult s) := by
  rw [fdnResult, ← fdnChecks_eq]
  rfl

section

variable (s : State)

theorem fdnResult_lines : (fdnResult s).lines = (s.fdnStep s.fdnOperands).1.lines := by
  rw [fdnResult, State.complete_lines, State.setRes_lines]

theorem fdnResult_y : (fdnResult s).y = (s.fdnStep s.fdnOperands).1.y := by
  rw [fdnResult, State.complete_y, State.setRes_y]

theorem fdnResult_phase : (fdnResult s).phase = (s.fdnStep s.fdnOperands).1.phase := by
  rw [fdnResult, State.complete_phase, State.setRes_phase]

theorem fdnResult_gprev : (fdnResult s).gprev = (s.fdnStep s.fdnOperands).1.gprev := by
  rw [fdnResult, State.complete_gprev, State.setRes_gprev]

theorem fdnResult_goff : (fdnResult s).goff = (s.fdnStep s.fdnOperands).1.goff := by
  rw [fdnResult, State.complete_goff, State.setRes_goff]

theorem fdnResult_rng : (fdnResult s).rng = (s.fdnStep s.fdnOperands).1.rng := by
  rw [fdnResult, State.complete_rng, State.setRes_rng]

theorem fdnResult_res0 : (fdnResult s).res0 = (s.fdnStep s.fdnOperands).2.left := by
  rw [fdnResult, State.complete_res0, State.setRes_res0]

theorem fdnResult_res1 : (fdnResult s).res1 = (s.fdnStep s.fdnOperands).2.right := by
  rw [fdnResult, State.complete_res1, State.setRes_res1]

end

/-- What FDN changes, field by field, and that it changes nothing else. -/
theorem fdnResult_eq (s : State) : fdnResult s = done
    { s with
      lines := (fdnResult s).lines
      y := (fdnResult s).y
      phase := (s.phStep (opr s 2)).phase
      gprev := (s.fdnTaps s.fdnOperands).state.gprev
      goff := (s.fdnTaps s.fdnOperands).state.goff
      rng := (s.fdnTaps s.fdnOperands).state.rng
      res0 := (s.fdnStep s.fdnOperands).2.left
      res1 := (s.fdnStep s.fdnOperands).2.right }
    (fdnOperandCauses s ||| (s.fdnStep s.fdnOperands).2.causes) := by
  have h := fdnStep_state s s.fdnOperands
  rw [fdnResult_lines, fdnResult_y, fdnResult]
  generalize (s.fdnStep s.fdnOperands).1 = t at h ⊢
  rw [h]
  rfl

theorem fdnResult_cfg (s : State) : (fdnResult s).cfg = s.cfg := by
  obtain ⟨hcfg, -⟩ := fdnStep_fields s s.fdnOperands
  rw [fdnResult, State.complete_cfg, State.setRes_cfg, hcfg]

/-- The tap reads of one sample step are the chain of the claims. -/
theorem fdnTaps_eq_tapChain (s : State) (o : FdnOperands) :
    let taps := tapChain s o.size (s.phStep o.speed).phase o.depth
    s.fdnTaps o = ⟨taps[3].state, taps.map (·.value),
      taps[0].causes ||| taps[1].causes ||| taps[2].causes ||| taps[3].causes⟩ := by
  intro taps
  obtain ⟨r0, h0⟩ : ∃ r, (s.phStep o.speed).tapRead 0 o.size (s.phStep o.speed).phase o.depth = r :=
    ⟨_, rfl⟩
  obtain ⟨r1, h1⟩ : ∃ r, r0.state.tapRead 1 o.size (s.phStep o.speed).phase o.depth = r := ⟨_, rfl⟩
  obtain ⟨r2, h2⟩ : ∃ r, r1.state.tapRead 2 o.size (s.phStep o.speed).phase o.depth = r := ⟨_, rfl⟩
  obtain ⟨r3, h3⟩ : ∃ r, r2.state.tapRead 3 o.size (s.phStep o.speed).phase o.depth = r := ⟨_, rfl⟩
  have hchain : taps = #v[r0, r1, r2, r3] := by
    subst h0 h1 h2 h3
    rfl
  rw [State.fdnTaps, readTaps_of_reads _ h0 h1 h2 h3, hchain]
  simp

/-- Settles O52: the newest sample of a tap line is the flushed value of this step. -/
theorem fdnWritesNoSubnormal : Obligations.FdnWritesNoSubnormal := by
  intro s hs
  refine ⟨fdnResult s, exec_fdn s, fun i => ?_⟩
  obtain ⟨-, htap, -⟩ := fdnStep_tap s s.fdnOperands i
  have hnewest : (fdnResult s).sample (tapLine i) 0 = s.fdnFlushed s.fdnOperands i := by
    rw [State.sample, fdnResult_cfg, fdnResult_lines, htap]
    exact Line.sample_push_newest (hs.lines _) _
  rw [hnewest]
  exact F32.isSubnormal_ftz _

/-- Settles O49: the values of the claim are those of the sample step in terms of the state before it, one
after the other. -/
theorem fdnStep : Obligations.FdnStep := by
  intro s c p taps r er m g mixed x a time dr ip z
  have htaps : s.fdnTaps s.fdnOperands = ⟨taps[3].state, r,
      taps[0].causes ||| taps[1].causes ||| taps[2].causes ||| taps[3].causes⟩ :=
    fdnTaps_eq_tapChain s s.fdnOperands
  have hm : s.fdnMixed s.fdnOperands = m := by
    rw [State.fdnMixed, htaps]
    rfl
  have hg : s.fdnGate s.fdnOperands = g := by
    rw [State.fdnGate, hm]
    rfl
  have hx : ∀ i, s.fdnInput s.fdnOperands i = x i := by
    intro i
    rw [State.fdnInput, hm, hg, lineInputs_get]
    rfl
  have ha : ∀ i, s.tapAbsorbed i (s.fdnInput s.fdnOperands i) s.fdnOperands.absorb = a i := by
    intro i
    rw [hx]
    rfl
  have hy : ∀ i, (s.fdnStep s.fdnOperands).1.y[absorptionUnit i] = a i := by
    intro i
    obtain ⟨-, -, h⟩ := fdnStep_tap s s.fdnOperands i
    exact h.trans (ha i)
  have hip : ∀ i, s.fdnDiffused s.fdnOperands i = ip i := by
    intro i
    rw [State.fdnDiffused, State.tapDiffuserInput, ha]
    rfl
  have hz : ∀ i, s.fdnFlushed s.fdnOperands i = z i := by
    intro i
    rw [State.fdnFlushed, State.tapWritten, State.tapDiffuserInput, ha]
    rfl
  refine ⟨fdnResult s, exec_fdn s, ?_, fun hs i => ?_⟩
  · obtain ⟨hleft, hright⟩ := fdnStep_outputs s s.fdnOperands
    refine (fdnResult_eq s).trans ?_
    rw [hleft, hright, fdnStep_causes]
    -- the claim's names for what the equations above mention
    have hphase : (s.phStep (opr s 2)).phase = p := rfl
    have her : s.erProcess s.fdnOperands.size = er := rfl
    have htime : ∀ i, s.allpassTime i = time i := fun _ => rfl
    have hout : ∀ v w e, outputOf v w e = F32.mul (F32.add (F32.add v w) e) half := fun _ _ _ => rfl
    have hcfg : s.cfg = c := rfl
    simp only [htaps, hphase, her, htime, hout, hcfg, ← BitVec.or_assoc]
    congr 2
    rw [fdnResult_y]
    refine Vector.ext fun i hi => ?_
    match i, hi with
    | 0, _ => exact hy 0
    | 1, _ => exact hy 1
    | 2, _ => exact hy 2
    | 3, _ => exact hy 3
    | 4, _ => exact (fdnStep_gate s _).trans hg
  · obtain ⟨hallpass, htap, -⟩ := fdnStep_tap s s.fdnOperands i
    rw [hip, ← fdnResult_lines] at hallpass
    rw [hz, ← fdnResult_lines] at htap
    obtain ⟨hwroteTap, -⟩ := push_wroteAtCursor hs.lines htap
    obtain ⟨hwroteAllpass, -⟩ := push_wroteAtCursor hs.lines hallpass
    exact ⟨hwroteTap, hwroteAllpass⟩

end Sys2Proof.Claims
end

section
/-! PROOFS. The saturation gate (43_network.md R238): the output law keeps the unit interval under its three
roundings. -/

namespace Sys2Proof.F32

theorem isNaN_abs (w : Word) : isNaN (abs w) = isNaN w := by
  have h : (abs w).toNat % 2 ^ 31 = w.toNat % 2 ^ 31 := by
    rw [abs, BitVec.toNat_and, show (0x7FFFFFFF#32).toNat = 2 ^ 31 - 1 by rfl,
      Nat.and_two_pow_sub_one_eq_mod, Nat.mod_mod]
  rw [Bool.eq_iff_iff, isNaN_iff, isNaN_iff, h]

/-- A word in [0, 1] is a finite value between 0 and the units of 1.0. -/
theorem finite_of_inUnit {a : Word} (h : Machine.inUnit a = true) :
    isFinite a = true ∧ 0 ≤ val a ∧ val a ≤ unitsPerOne := by
  rw [Machine.inUnit, Bool.and_eq_true] at h
  rw [← val_one]
  exact finite_of_le_le (by decide) (by decide) h.1 h.2

/-- The rounded `1 - c` exceeds the exact one by at most half the spacing below 1.0, 2^124 units. -/
theorem one_sub_inUnit {c : Word} (h : Machine.inUnit c = true) :
    isFinite (sub one c) = true ∧ 0 ≤ val (sub one c) ∧
      val (sub one c) + val c ≤ unitsPerOne + 2 ^ 124 := by
  obtain ⟨hf, h0, h1⟩ := finite_of_inUnit h
  have hn := sub_nearest (a := one) (by decide) hf
  have hfin : isFinite (sub one c) = true :=
    hn.isFinite_of_le (v := one) (by decide) (by decide) (by rw [val_one]; omega)
  have hge : val zero ≤ val (sub one c) :=
    hn.ge (by decide) (by decide) (by rw [val_zero, val_one]; omega)
  obtain ⟨v, hv, he⟩ : ∃ v : Word, isFinite v = true ∧
      (val v - (val one - val c)).natAbs ≤ 2 ^ 124 := by
    rw [val_one, unitsPerOne_cast] at *
    obtain ⟨q, hq⟩ : ∃ q : Nat, (q : Int) = (2 ^ 149 - val c + 2 ^ 124) / 2 ^ 125 :=
      ⟨_, Int.toNat_of_nonneg (by omega)⟩
    by_cases htop : q = 2 ^ 24
    · exact ⟨one, by decide, by rw [val_one, unitsPerOne_cast]; omega⟩
    · obtain ⟨v, hv, he⟩ := exists_word false (r := q) (k := 125) (by omega) (by decide)
      refine ⟨v, hv, ?_⟩
      rw [he]
      simp only [Bool.false_eq_true, if_false]
      omega
  obtain ⟨-, -, -, hnear⟩ := hn
  obtain ⟨hclose, -⟩ := hnear hfin v hv
  rw [val_zero] at hge
  rw [val_one] at he hclose
  simp only [Nat.cast_one, Int.mul_one] at hclose
  exact ⟨hfin, hge, by omega⟩

/-- A sum within 2^124 units of 1.0 rounds into [0, 1]: the next value above 1.0 is 2^126 units away. -/
theorem inUnit_of_nearest {w : Word} {n : Int} (h : Nearest w n 1) (h0 : 0 ≤ n)
    (h1 : n ≤ unitsPerOne + 2 ^ 124) : Machine.inUnit w = true := by
  have hge : val zero ≤ val w := h.ge (by decide) (by decide) (by rw [val_zero]; omega)
  have hle : val w ≤ val one := by
    by_cases hn1 : n ≤ unitsPerOne
    · exact h.le (by decide) (by decide) (by rw [val_one]; omega)
    · by_contra hc
      obtain ⟨-, hfin, -, hnear⟩ := h
      have hroom : unitsPerOne + 2 ^ 124 < overflowBound * 1 := by decide
      obtain ⟨hclose, -⟩ := hnear (hfin.2 (by omega)) one (by decide)
      have hm := natAbs_val w
      rw [val_one, unitsPerOne] at *
      rcases mag_grid w 126 with hg | ⟨j, hg⟩ <;> omega
  rw [Machine.inUnit, le_numbers isNaN_zero h.1, le_numbers h.1 isNaN_one, Bool.and_eq_true,
    decide_eq_true_eq, decide_eq_true_eq]
  exact ⟨hge, hle⟩

end Sys2Proof.F32

namespace Sys2Proof.Machine

open F32

/-- The output law keeps the unit interval: the two products stay below the rounded `1 - c` and `c`. -/
theorem onePole_inUnit {y x c : Word} (hy : inUnit y = true) (hx : inUnit x = true)
    (hc : inUnit c = true) : inUnit (onePole y x c) = true := by
  obtain ⟨fy, y0, y1⟩ := finite_of_inUnit hy
  obtain ⟨fx, x0, x1⟩ := finite_of_inUnit hx
  obtain ⟨fc, c0, -⟩ := finite_of_inUnit hc
  obtain ⟨fd, d0, hsum⟩ := one_sub_inUnit hc
  obtain ⟨fp, p0, p1⟩ := mul_bounded fy fd fd y0 d0 (by
    rw [Int.mul_comm]; exact Int.mul_le_mul_of_nonneg_left y1 d0)
  obtain ⟨fq, q0, q1⟩ := mul_bounded fx fc fc x0 c0 (by
    rw [Int.mul_comm]; exact Int.mul_le_mul_of_nonneg_left x1 c0)
  exact inUnit_of_nearest (add_nearest fp fq) (by omega) (by omega)

/-- The coefficient of Hertz mode is in [0, 1] for a bounded sine function and a finite quotient (R163). -/
theorem hertzCoefficient_inUnit {c : Config} (hb : c.Bounded) {freq : Word}
    (hf : isFinite (F32.div freq c.fs32) = true) : inUnit (hertzCoefficient c freq) = true := by
  obtain ⟨hsin, -⟩ := (hb (F32.div freq c.fs32)).1 hf
  refine clamp01_inUnit ?_
  rw [← isNaN_abs]
  by_contra hn
  rw [le_isNaN (.inl (Bool.eq_true_of_not_eq_false hn))] at hsin
  cases hsin

theorem gateTarget_inUnit (c : Config) (amp : Word) : inUnit (gateTarget c amp) = true := by
  rw [gateTarget]
  split <;> decide

end Sys2Proof.Machine

namespace Sys2Proof.Claims

open Machine F32

/-- Settles O25: both commands leave the output law's value for a target of 0 or 1. -/
theorem gateStaysInUnit : Obligations.GateStaysInUnit := by
  intro s hb hf hy
  have hgate : ∀ amp, inUnit (onePole s.y[4] (gateTarget s.cfg amp)
      (hertzCoefficient s.cfg (F32.ofDec s.cfg.satCutoffHz))) = true := fun amp =>
    onePole_inUnit hy (gateTarget_inUnit _ _) (hertzCoefficient_inUnit hb hf)
  refine ⟨_, fdnResult s, sataResult s, ?_, exec_fdn s, ?_⟩
  · change inUnit (s.y.set 4 _)[4] = true
    rw [Vector.getElem_set_self]
    exact hgate (opr s 0)
  · rw [fdnResult_y, fdnStep_gate]
    exact hgate _

end Sys2Proof.Claims
end

section
/-! PROOFS. What one sample step leaves alone (43_network.md R248): the flags that none of its reads raises,
and what the input does not reach (R242). -/

namespace Sys2Proof.Machine

open Claims

/-! ### The causes of one sample step are those of its reads -/

/-- Two sets of causes have no flag of `m` together just when neither has one. -/
theorem or_and_eq_zero {a b m : Causes} : (a ||| b) &&& m = 0 ↔ a &&& m = 0 ∧ b &&& m = 0 := by
  have h : (a ||| b) &&& m = (a &&& m) ||| (b &&& m) := by
    ext i
    simp [Bool.and_or_distrib_right]
  rw [h]
  exact BitVec.or_eq_zero_iff

/-- Merging causes without a flag of `m` changes no flag of `m` (R300). -/
theorem merged_xor_and {f e m : Causes} (h : e &&& m = 0) : ((f ||| e) ^^^ f) &&& m = 0 := by
  ext i hi
  have hbit : (e &&& m)[i] = false := by rw [h]; exact BitVec.getElem_zero hi
  rw [BitVec.getElem_and] at hbit
  rw [BitVec.getElem_and, BitVec.getElem_xor, BitVec.getElem_or]
  cases he : e[i]
  · simp
  · rw [he, Bool.true_and] at hbit
    simp [hbit]

theorem raise_and_eq_zero {c m : Causes} (p : Bool) (h : c &&& m = 0) : raise p c &&& m = 0 := by
  cases p
  · exact BitVec.zero_and
  · exact h

section

variable {m : Causes} (hm : range &&& m = 0) (s : State)
include hm

theorem dlCauses_and_eq_zero (u : Fin 8) (time : Word) (mode : Interp) :
    s.dlCauses u time mode &&& m = 0 := by
  rw [dlCauses_eq_raise]
  exact raise_and_eq_zero _ hm

theorem tapRead_causes (t : Fin 4) (size lfo depth : Word) :
    (s.tapRead t size lfo depth).causes &&& m = 0 := by
  simp only [State.tapRead]
  split
  · exact dlCauses_and_eq_zero hm _ _ _ _
  · split
    · exact dlCauses_and_eq_zero hm _ _ _ _
    · split
      · exact or_and_eq_zero.2 ⟨dlCauses_and_eq_zero hm _ _ _ _, dlCauses_and_eq_zero hm _ _ _ _⟩
      · exact BitVec.zero_and

theorem readTaps_causes (size lfo depth : Word) : (s.readTaps size lfo depth).causes &&& m = 0 := by
  simp only [State.readTaps, or_and_eq_zero, tapRead_causes hm, and_self]

theorem erProcess_causes (size : Word) : (s.erProcess size).causes &&& m = 0 := by
  rw [erProcess_eq_foldl, foldl_addReflection]
  exact raise_and_eq_zero _ hm

theorem fdnStep_causes_and (o : FdnOperands) : (s.fdnStep o).2.causes &&& m = 0 := by
  have htaps : (s.fdnTaps o).causes &&& m = 0 := readTaps_causes hm _ _ _ _
  simp only [fdnStep_causes, or_and_eq_zero, htaps, erProcess_causes hm,
    dlCauses_and_eq_zero hm, and_self]

end

/-! ### The operand registers enter the sample step through its operands only -/

/-- A state with other operand registers. -/
def State.withOpr (s : State) (v : Vector Word 8) : State := { s with opr := v }

/-- What an internal operation leaves, with other operand registers in its state. -/
def Ran.withOpr (r : Ran) (v : Vector Word 8) : Ran := { r with state := r.state.withOpr v }

section

variable (s : State) (v : Vector Word 8)

@[simp] theorem State.withOpr_cfg : (s.withOpr v).cfg = s.cfg := rfl

theorem withOpr_retrigger (t : Fin 4) (k : Fin 2) (g depth : Word) :
    (s.withOpr v).retrigger t k g depth = (s.retrigger t k g depth).withOpr v := by
  rw [retrigger_eq_withGrains, retrigger_eq_withGrains]
  rfl

theorem withOpr_tapAt (t : Fin 4) (time : Word) :
    (s.withOpr v).tapAt t time = (s.tapAt t time).withOpr v := rfl

theorem withOpr_grain (t : Fin 4) (k : Fin 2) (base g depth : Word) :
    (s.withOpr v).grain t k base g depth = (s.grain t k base g depth).withOpr v := by
  simp only [State.grain, withOpr_retrigger]
  rfl

theorem withOpr_grainRead (t : Fin 4) (base lfo depth : Word) :
    (s.withOpr v).grainRead t base lfo depth = (s.grainRead t base lfo depth).withOpr v := by
  simp only [State.grainRead, withOpr_grain, State.withOpr_cfg, Ran.withOpr]

/-- In each mode a tap read commutes with giving its state other operand registers. -/
theorem withOpr_tapRead (t : Fin 4) (size lfo depth : Word) :
    (s.withOpr v).tapRead t size lfo depth = (s.tapRead t size lfo depth).withOpr v := by
  simp only [State.tapRead, withOpr_grainRead, withOpr_tapAt, State.withOpr_cfg]
  split
  · rfl
  · split
    · rfl
    · split
      · rfl
      · rfl

theorem withOpr_readTaps (size lfo depth : Word) :
    (s.withOpr v).readTaps size lfo depth =
      ⟨(s.readTaps size lfo depth).state.withOpr v, (s.readTaps size lfo depth).r,
        (s.readTaps size lfo depth).causes⟩ := by
  obtain ⟨r0, h0⟩ : ∃ r, s.tapRead 0 size lfo depth = r := ⟨_, rfl⟩
  obtain ⟨r1, h1⟩ : ∃ r, r0.state.tapRead 1 size lfo depth = r := ⟨_, rfl⟩
  obtain ⟨r2, h2⟩ : ∃ r, r1.state.tapRead 2 size lfo depth = r := ⟨_, rfl⟩
  obtain ⟨r3, h3⟩ : ∃ r, r2.state.tapRead 3 size lfo depth = r := ⟨_, rfl⟩
  have hw : ∀ (r : State) (t : Fin 4) {q : Ran}, r.tapRead t size lfo depth = q →
      (r.withOpr v).tapRead t size lfo depth = q.withOpr v := by
    rintro r t q rfl
    exact withOpr_tapRead r v t size lfo depth
  rw [readTaps_of_reads s h0 h1 h2 h3, readTaps_of_reads (s.withOpr v) (hw s 0 h0)
    (hw r0.state 1 h1) (hw r1.state 2 h2) (hw r2.state 3 h3)]
  rfl

theorem withOpr_erProcess (size : Word) : (s.withOpr v).erProcess size = s.erProcess size :=
  erProcess_congr rfl rfl size

/-- Of the operands the tap reads of one sample step see size, speed and depth. -/
theorem withOpr_fdnTaps (o : FdnOperands) (x : Word) :
    (s.withOpr v).fdnTaps { o with x := x } =
      ⟨(s.fdnTaps o).state.withOpr v, (s.fdnTaps o).r, (s.fdnTaps o).causes⟩ :=
  withOpr_readTaps (s.phStep o.speed) v o.size (s.phStep o.speed).phase o.depth

theorem withOpr_fdnMixed (o : FdnOperands) (x : Word) :
    (s.withOpr v).fdnMixed { o with x := x } = s.fdnMixed o := by
  rw [State.fdnMixed, withOpr_fdnTaps]
  rfl

theorem withOpr_fdnGate (o : FdnOperands) (x : Word) :
    (s.withOpr v).fdnGate { o with x := x } = s.fdnGate o := by
  rw [State.fdnGate, withOpr_fdnMixed]
  rfl

/-- The input of taps 2 and 3 does not see `x` (R242). -/
theorem withOpr_fdnInput (o : FdnOperands) (x : Word) {i : Fin 4} (hi : 2 ≤ i.val) :
    (s.withOpr v).fdnInput { o with x := x } i = s.fdnInput o i := by
  rw [State.fdnInput, State.fdnInput, withOpr_fdnMixed, withOpr_fdnGate, lineInputs_get,
    lineInputs_get, if_neg (by omega), if_neg (by omega)]
  rfl

/-- With other operand registers and another input, one sample step leaves the lines and the absorption
filters of taps 2 and 3 the same (R242). -/
theorem withOpr_fdnStep_tap (o : FdnOperands) (x : Word) {i : Fin 4} (hi : 2 ≤ i.val) :
    ((s.withOpr v).fdnStep { o with x := x }).1.lines[allpassLine i] =
        (s.fdnStep o).1.lines[allpassLine i] ∧
      ((s.withOpr v).fdnStep { o with x := x }).1.lines[tapLine i] =
        (s.fdnStep o).1.lines[tapLine i] ∧
      ((s.withOpr v).fdnStep { o with x := x }).1.y[absorptionUnit i] =
        (s.fdnStep o).1.y[absorptionUnit i] := by
  obtain ⟨hallpass, htap, hy⟩ := fdnStep_tap s o i
  obtain ⟨hallpass', htap', hy'⟩ := fdnStep_tap (s.withOpr v) { o with x := x } i
  obtain ⟨va, vd, vw⟩ := tapValues_congr (s := s) (r := s.withOpr v) (t := i) rfl rfl rfl
    (s.fdnInput o i) o.absorb o.diffuse
  rw [hallpass, htap, hy, hallpass', htap', hy', State.fdnDiffused, State.fdnDiffused, State.fdnFlushed,
    State.fdnFlushed, withOpr_fdnInput s v o x hi, va, vd, vw]
  exact ⟨rfl, rfl, rfl⟩

/-- With other operand registers and another input, one sample step leaves the outputs, the gate, the
phase, the trackers and the generator the same (R242). -/
theorem withOpr_fdnStep_rest (o : FdnOperands) (x : Word) :
    ((s.withOpr v).fdnStep { o with x := x }).2.left = (s.fdnStep o).2.left ∧
      ((s.withOpr v).fdnStep { o with x := x }).2.right = (s.fdnStep o).2.right ∧
      ((s.withOpr v).fdnStep { o with x := x }).1.y[4] = (s.fdnStep o).1.y[4] ∧
      ((s.withOpr v).fdnStep { o with x := x }).1.phase = (s.fdnStep o).1.phase ∧
      ((s.withOpr v).fdnStep { o with x := x }).1.gprev = (s.fdnStep o).1.gprev ∧
      ((s.withOpr v).fdnStep { o with x := x }).1.goff = (s.fdnStep o).1.goff ∧
      ((s.withOpr v).fdnStep { o with x := x }).1.rng = (s.fdnStep o).1.rng := by
  obtain ⟨hleft, hright⟩ := fdnStep_outputs s o
  obtain ⟨hleft', hright'⟩ := fdnStep_outputs (s.withOpr v) { o with x := x }
  obtain ⟨-, hphase, -⟩ := fdnStep_fields s o
  obtain ⟨-, hphase', -⟩ := fdnStep_fields (s.withOpr v) { o with x := x }
  obtain ⟨hprev, hoff, hrng⟩ := fdnStep_grains s o
  obtain ⟨hprev', hoff', hrng'⟩ := fdnStep_grains (s.withOpr v) { o with x := x }
  rw [withOpr_fdnTaps, withOpr_erProcess] at hleft' hright'
  rw [withOpr_fdnTaps] at hprev' hoff' hrng'
  rw [fdnStep_gate, fdnStep_gate]
  exact ⟨hleft'.trans hleft.symm, hright'.trans hright.symm, withOpr_fdnGate s v o x,
    hphase'.trans hphase.symm, hprev'.trans hprev.symm, hoff'.trans hoff.symm, hrng'.trans hrng.symm⟩

end

end Sys2Proof.Machine

namespace Sys2Proof.Claims

open Machine

/-- The operand checks of FDN raise PARAM and NONFINITE only. -/
theorem fdnOperandCauses_and_eq_zero {m : Causes} (hp : param &&& m = 0) (hn : nonfinite &&& m = 0)
    (s : State) : fdnOperandCauses s &&& m = 0 := by
  have hfinite : ∀ v, finiteCheck v &&& m = 0 := fun _ => raise_and_eq_zero _ hn
  have hrange : ∀ v lo hi, rangeCheck v lo hi &&& m = 0 := fun _ _ _ => raise_and_eq_zero _ hp
  simp only [fdnOperandCauses, or_and_eq_zero, hfinite, hrange, and_self]

theorem fdnResult_status (s : State) : (fdnResult s).status =
    s.status ||| (fdnOperandCauses s ||| (s.fdnStep s.fdnOperands).2.causes) := by
  obtain ⟨-, -, -, -, -, hstatus, -⟩ := fdnStep_fields s s.fdnOperands
  rw [fdnResult, State.complete_status, State.setRes_status, hstatus]

/-- Settles O51: with another input the taps, the reflections and the gate are the same, and with them
what goes into taps 2 and 3. -/
theorem fdnInputReachesTapsZeroAndOne : Obligations.FdnInputReachesTapsZeroAndOne := by
  intro s x
  obtain ⟨hl6, hl2, hy2⟩ := withOpr_fdnStep_tap s (s.opr.set 0 x) s.fdnOperands x (i := 2) (by decide)
  obtain ⟨hl7, hl3, hy3⟩ := withOpr_fdnStep_tap s (s.opr.set 0 x) s.fdnOperands x (i := 3) (by decide)
  have hops : (s.withOpr (s.opr.set 0 x)).fdnOperands = { s.fdnOperands with x := x } := by
    simp [State.fdnOperands, State.operand, State.withOpr]
  refine ⟨fdnResult s, fdnResult (s.withOpr (s.opr.set 0 x)), exec_fdn s, exec_fdn _, ?_⟩
  obtain ⟨hleft, hright, hgate, hphase, hprev, hoff, hrng⟩ :=
    withOpr_fdnStep_rest s (s.opr.set 0 x) s.fdnOperands x
  simp only [fdnResult_lines, fdnResult_y, fdnResult_res0, fdnResult_res1, fdnResult_phase,
    fdnResult_gprev, fdnResult_goff, fdnResult_rng, hops]
  exact ⟨hleft, hright, hl2, hl3, hl6, hl7, hy2, hy3, hgate, hphase, hprev, hoff, hrng⟩

/-- Settles O50: FDN pushes one value into each line, and its causes are those of its operand checks and
its reads. -/
theorem fdnFrame : Obligations.FdnFrame := by
  intro s hs
  have hstatus : ((fdnResult s).status ^^^ s.status) &&& (badcmd ||| overrun) = 0 := by
    rw [fdnResult_status]
    exact merged_xor_and (or_and_eq_zero.2 ⟨fdnOperandCauses_and_eq_zero (by decide) (by decide) s,
      fdnStep_causes_and (by decide) s _⟩)
  obtain ⟨t, ht, hidle, -, hhost⟩ := commandsKeepTheHostSide .fdn s
  obtain rfl : t = fdnResult s := Host.Outcome.next.inj (ht.symm.trans (exec_fdn s))
  obtain ⟨-, hphase, -⟩ := fdnStep_fields s s.fdnOperands
  refine ⟨fdnResult s, ht, (fdnResult_phase s).trans hphase, fun u => ?_, fun h => ?_, hhost, hidle,
    hstatus⟩
  · obtain ⟨w, hw⟩ := fdnStep_line s s.fdnOperands u
    rw [← fdnResult_lines] at hw
    obtain ⟨hwrote, hslots⟩ := push_wroteAtCursor hs.lines hw
    exact ⟨⟨w, hwrote⟩, hslots⟩
  · obtain ⟨hprev, hoff, hrng⟩ := fdnStep_grains s s.fdnOperands
    rw [fdnResult_gprev, fdnResult_goff, fdnResult_rng, hprev, hoff, hrng]
    exact fdnTaps_of_not_positive s s.fdnOperands h

end Sys2Proof.Claims
end

section
/-! PROOFS. The control commands (44_control.md): COND and the ranges of its two results, the signal state that
SRST leaves, and the only legal word with the opcode of NOP. -/

namespace Sys2Proof.F32

/-- A greater exact value is not rounded to a smaller one. -/
theorem Nearest.mono {w v : Word} {m n : Int} {den : Nat} (hw : Nearest w m den) (hv : Nearest v n den)
    (hden : 0 < den) (fw : isFinite w = true) (fv : isFinite v = true) (h : m < n) : val w ≤ val v := by
  obtain ⟨-, -, -, hnearW⟩ := hw
  obtain ⟨-, -, -, hnearV⟩ := hv
  obtain ⟨hcloseW, -⟩ := hnearW fw v fv
  obtain ⟨hcloseV, -⟩ := hnearV fv w fw
  by_contra hlt
  have hscaled : val v * den < val w * den := Int.mul_lt_mul_of_pos_right (by omega) (by omega)
  omega

/-- A difference from a value up to 1.0 is at most that from 1.0, after rounding too. -/
theorem sub_le_one_sub {a c : Word} (ha : isFinite a = true) (hc : isFinite c = true)
    (fa : isFinite (sub a c) = true) (fone : isFinite (sub one c) = true) (h : val a ≤ val one) :
    val (sub a c) ≤ val (sub one c) := by
  rcases Int.lt_or_eq_of_le h with hlt | heq
  · exact (sub_nearest ha hc).mono (sub_nearest (by decide) hc) (by decide) fa fone (by omega)
  · rw [eq_of_val heq (by rw [heq]; decide)]

/-- The lesser of 1.0 and a number that is not negative is in [0, 1]. -/
theorem min_one_inUnit {a : Word} (ha : isNaN a = false) (h0 : 0 ≤ val a) :
    Machine.inUnit (min a one) = true := by
  rw [min_numbers ha isNaN_one]
  split
  next hlt =>
    rw [Machine.inUnit, le_numbers isNaN_zero ha, le_numbers ha isNaN_one, val_zero, Bool.and_eq_true]
    exact ⟨decide_eq_true h0, decide_eq_true hlt.le⟩
  · decide

theorem val_le_of_le {a b : Word} (h : le a b = true) : val a ≤ val b := by
  rw [le, Bool.and_eq_true, decide_eq_true_eq] at h
  exact h.2

/-- Bounds on the value of a finite word as the comparisons of the checks. -/
theorem le_and_le_of_bounds {w hi : Word} (hhi : isFinite hi = true)
    (h : isFinite w = true ∧ 0 ≤ val w ∧ val w ≤ val hi) : le 0 w = true ∧ le w hi = true := by
  obtain ⟨hf, h0, h1⟩ := h
  have hn := isNaN_of_isFinite hf
  constructor
  · rw [show (0 : Word) = zero from rfl, le_numbers isNaN_zero hn, val_zero]
    exact decide_eq_true h0
  · rw [le_numbers hn (isNaN_of_isFinite hhi)]
    exact decide_eq_true h1

end Sys2Proof.F32

namespace Sys2Proof.Machine

open F32

/-- 0.33333334, the word that R281 subtracts, and what it leaves of 1.0. -/
def condThird : Word := 0x3EAAAAAB
def condTwoThirds : Word := 0x3F2AAAAA

theorem one_sub_condThird : sub F32.one condThird = condTwoThirds := by decide +kernel

/-- The formulas of R281 with the factors 3, 0.8 and 1.5 as words. -/
theorem condDiffuse_eq (a : Word) : condDiffuse a =
    F32.mul (F32.min (F32.mul a 0x40400000) F32.one) Claims.fourFifths := by
  have hthree : F32.ofInt 3 = 0x40400000 := by decide +kernel
  have hfourFifths : F32.ofDec ⟨8, 10⟩ = Claims.fourFifths := by decide +kernel
  rw [condDiffuse, hthree, hfourFifths]

theorem condAbsorb_eq (a : Word) : condAbsorb a =
    F32.mul (F32.max (F32.sub a condThird) F32.zero) 0x3FC00000 := by
  have hfactor : F32.ofDec ⟨15, 10⟩ = 0x3FC00000 := by decide +kernel
  rw [condAbsorb, hfactor]
  rfl

section

variable {a : Word} (ha : inUnit a = true)
include ha

/-- Three times a control in [0, 1] is a finite value that is not negative. -/
theorem condTriple_bounds :
    isFinite (F32.mul a 0x40400000) = true ∧ 0 ≤ val (F32.mul a 0x40400000) := by
  obtain ⟨fa, h0, h1⟩ := finite_of_inUnit ha
  obtain ⟨hf, hge, -⟩ := mul_bounded (v := 0x40400000) fa (b := 0x40400000) (by decide) (by decide) h0
    (by decide) (by rw [Int.mul_comm]; exact Int.mul_le_mul_of_nonneg_left h1 (by decide))
  exact ⟨hf, hge⟩

/-- The first result of COND is in [0, 0.8] (R283). -/
theorem condDiffuse_bounds : isFinite (condDiffuse a) = true ∧ 0 ≤ val (condDiffuse a) ∧
    val (condDiffuse a) ≤ val Claims.fourFifths := by
  obtain ⟨hf, h0⟩ := condTriple_bounds ha
  obtain ⟨fm, m0, m1⟩ := finite_of_inUnit (min_one_inUnit (isNaN_of_isFinite hf) h0)
  rw [condDiffuse_eq]
  exact mul_bounded fm (by decide) (by decide) m0 (by decide)
    (by rw [Int.mul_comm]; exact Int.mul_le_mul_of_nonneg_left m1 (by decide))

/-- From the third up the triple reaches 1.0, and the first result is 0.8 (R283). -/
theorem condDiffuse_of_ge (h : val condThird ≤ val a) : condDiffuse a = Claims.fourFifths := by
  obtain ⟨fa, -, -⟩ := finite_of_inUnit ha
  obtain ⟨hf, -⟩ := condTriple_bounds ha
  have hone : val F32.one ≤ val (F32.mul a 0x40400000) := by
    refine (mul_nearest fa (by decide)).ge unitsPerOne_pos (by decide) ?_
    calc val F32.one * unitsPerOne ≤ val condThird * val 0x40400000 := by decide
      _ ≤ val a * val 0x40400000 := Int.mul_le_mul_of_nonneg_right h (by decide)
  rw [condDiffuse_eq, min_numbers (isNaN_of_isFinite hf) isNaN_one,
    if_neg (Int.not_lt.2 hone)]
  decide +kernel

/-- The excess of a control in [0, 1] over the third, never negative, is at most that of 1.0. -/
theorem condExcess_bounds : isFinite (F32.max (F32.sub a condThird) F32.zero) = true ∧
    0 ≤ val (F32.max (F32.sub a condThird) F32.zero) ∧
    val (F32.max (F32.sub a condThird) F32.zero) ≤ val condTwoThirds := by
  obtain ⟨fa, h0, h1⟩ := finite_of_inUnit ha
  rw [← val_one] at h1
  have hf : isFinite (F32.sub a condThird) = true := by
    refine (sub_nearest fa (by decide)).isFinite_of_le (v := F32.one) (by decide) (by decide) ?_
    have hthird : 0 ≤ val condThird ∧ val condThird ≤ val F32.one := by decide
    omega
  have hle : val (F32.sub a condThird) ≤ val condTwoThirds := by
    rw [← one_sub_condThird]
    exact sub_le_one_sub fa (by decide) hf (by rw [one_sub_condThird]; decide) h1
  rw [max_numbers (isNaN_of_isFinite hf) isNaN_zero]
  split
  next hpos => exact ⟨hf, by rw [val_zero] at hpos; omega, hle⟩
  · decide

/-- The second result of COND is in [0, 0x3F7FFFFF] (R283). -/
theorem condAbsorb_bounds : isFinite (condAbsorb a) = true ∧ 0 ≤ val (condAbsorb a) ∧
    val (condAbsorb a) ≤ val 0x3F7FFFFF := by
  obtain ⟨hf, h0, h1⟩ := condExcess_bounds ha
  rw [condAbsorb_eq]
  refine mul_bounded hf (by decide) (by decide) h0 (by decide) ?_
  calc val (F32.max (F32.sub a condThird) F32.zero) * val 0x3FC00000
      ≤ val condTwoThirds * val 0x3FC00000 := Int.mul_le_mul_of_nonneg_right h1 (by decide)
    _ ≤ val 0x3F7FFFFF * unitsPerOne := by decide

/-- Up to the third nothing is left of the control, and the second result is +0.0 (R283). -/
theorem condAbsorb_of_le (h : val a ≤ val condThird) : condAbsorb a = 0 := by
  obtain ⟨fa, -, -⟩ := finite_of_inUnit ha
  have hn := sub_nearest fa (b := condThird) (by decide)
  have hle : val (F32.sub a condThird) ≤ val F32.zero :=
    hn.le (by decide) (by decide) (by rw [val_zero]; omega)
  rw [condAbsorb_eq, max_numbers hn.1 isNaN_zero, if_neg (Int.not_lt.2 hle)]
  decide

end

theorem Memory.readSlot_nil (j : Nat) : Memory.readSlot [] j = 0 := by
  simp [Memory.readSlot, Memory.readByte, blankByte]

/-- Every slot of every line is +0.0 and every cursor 0 where the lines are those of a reset (R340). -/
theorem memRead_of_empty_lines {s : State} (h : s.lines = Vector.replicate 8 Line.empty) (u : Fin 8) :
    (∀ j, s.memRead u j = 0) ∧ s.lines[u].cursor = 0 := by
  simp [State.memRead, h, Line.empty, Memory.readSlot_nil]

end Sys2Proof.Machine

namespace Sys2Proof.Claims

open Machine F32

/-- What COND leaves: its two results, completed with the checks of its control. -/
theorem exec_cond (s : State) : exec .cond s =
    .next (done { s with res0 := condDiffuse (opr s 0), res1 := condAbsorb (opr s 0) }
      (finiteCheck (opr s 0) ||| rangeCheck (opr s 0) 0 one)) := by
  rw [exec, execCond, checkFinite_eq, checkRange_eq]
  rfl

/-- The operand checks of a control in [0, 1] raise nothing. -/
theorem cond_unflagged {a : Word} (h : inUnit a = true) : finiteCheck a ||| rangeCheck a 0 one = 0 := by
  obtain ⟨hf, -⟩ := finite_of_inUnit h
  have hrange : (le 0 a && le a one) = true := h
  rw [finiteCheck, rangeCheck, hf, hrange]
  rfl

/-- Settles O54, each result by its bounds and by its value on one side of the third. -/
theorem condMeetsTheFdnRanges : Obligations.CondMeetsTheFdnRanges := by
  intro s h0 h1
  have hunit : inUnit (opr s 0) = true := by rw [inUnit, Bool.and_eq_true]; exact ⟨h0, h1⟩
  have hstatus : s.status ||| (finiteCheck (opr s 0) ||| rangeCheck (opr s 0) 0 one) = s.status := by
    rw [cond_unflagged hunit]
    exact BitVec.or_zero
  obtain ⟨hd0, hd1⟩ := le_and_le_of_bounds (by decide) (condDiffuse_bounds hunit)
  obtain ⟨ha0, ha1⟩ := le_and_le_of_bounds (by decide) (condAbsorb_bounds hunit)
  exact ⟨_, exec_cond s, hstatus, hd0, hd1, ha0, ha1, fun h => condDiffuse_of_ge hunit (val_le_of_le h),
    fun h => condAbsorb_of_le hunit (val_le_of_le h)⟩

/-- Settles O53: COND's two results with its factors as words. -/
theorem condResult : Obligations.CondResult := by
  intro s a
  rw [exec_cond, condDiffuse_eq, condAbsorb_eq]
  rfl

/-- Settles O55: SRST completes on the cleared signal state, whose unit state is that of a reset. -/
theorem srstResult : Obligations.SrstResult := by
  intro s
  have hlines := memRead_of_empty_lines (s := s.clearSignal.complete 0) rfl
  refine ⟨s.clearSignal.complete 0, rfl, rfl, fun u => (hlines u).1, fun u => (hlines u).2,
    fun u => ?_, fun i => ?_, rfl, rfl, rfl, rfl, rfl, rfl⟩ <;> simp [F32.zero]

/-- Settles O56: NOP merges no cause, and opcode 0 has one row in the table of legal fields, with unit and
mode 0. -/
theorem nopResult : Obligations.NopResult := by
  refine ⟨fun s => ?_, fun w hopc hne => ?_⟩
  · have hstatus : s.status ||| 0 = s.status := BitVec.or_zero
    rw [exec, execNop, State.complete, hstatus]
  · cases hw : decode w with
    | error e => exact ⟨e, rfl⟩
    | ok i =>
      obtain ⟨hhigh, hbit11, hrow⟩ := (legalWordsAreTheTable w).1 ⟨i, hw⟩
      rw [hopc] at hrow
      have hfields : w.toNat / 2 ^ 8 % 2 ^ 3 = 0 ∧ w.toNat / 2 ^ 12 % 2 ^ 3 = 0 := by
        simpa [inTable] using hrow
      exact absurd (BitVec.eq_of_toNat_eq (y := 0) (by simp; omega)) hne

end Sys2Proof.Claims
end

section
/-! PROOFS. Causes and flags (60_exceptions.md R300 to R312): the bounds of the checks, the row of the flag
table of each command, the interrupt output, and that no state stops the core. -/

namespace Sys2Proof.Machine

/-! ### A step always continues (R312, R344) -/

theorem hostRead_cfg (s : State) (a : BitVec 10) : (s.hostRead a).cfg = s.cfg := by
  rcases hostRead_cases s a with e | e <;> rw [e]

theorem hostWrite_cfg (s : State) (a : BitVec 10) (v : Word) : (s.hostWrite a v).cfg = s.cfg := by
  rcases hostWrite_cases s a v with e | ⟨-, -, e⟩ | ⟨-, -, e⟩ | ⟨-, -, e⟩ | ⟨-, -, e⟩ |
    ⟨-, i, -, e⟩ | ⟨-, e⟩ <;> rw [e] <;> rfl

theorem settle_continues (s : State) : ∃ t, s.settle = .next t ∧ t.cfg = s.cfg := by
  rcases settle_cases s with ⟨-, e⟩ | ⟨-, e⟩ | ⟨-, r, c, e, body⟩
  · exact ⟨s, e, rfl⟩
  · exact ⟨s.finishReset, e, rfl⟩
  · exact ⟨r.complete c, e, body.cfg⟩

/-! ### The units that a command can name (R103) -/

theorem unitOnePole_of_legal {u : BitVec 3} (h : isOnePole u = true) : ∃ k, unitOnePole u = some k :=
  ⟨_, dif_pos (of_decide_eq_true h)⟩

theorem unitOnePole_of_illegal {u : BitVec 3} (h : isOnePole u = false) : unitOnePole u = none :=
  dif_neg (of_decide_eq_false h)

theorem unitTap_of_legal {t : BitVec 3} (h : isTap t = true) : ∃ k, unitTap t = some k :=
  ⟨_, dif_pos (of_decide_eq_true h)⟩

theorem unitTap_of_illegal {t : BitVec 3} (h : isTap t = false) : unitTap t = none :=
  dif_neg (of_decide_eq_false h)

/-! ### Sets of causes -/

/-- Some flag stands in two sets of causes just when some bit is 1 in both. -/
theorem and_ne_zero_iff {a b : Causes} :
    a &&& b ≠ 0 ↔ ∃ i : Fin 5, a.getLsbD i.val = true ∧ b.getLsbD i.val = true := by
  simp only [ne_eq, BitVec.eq_of_getLsbD_eq_iff, BitVec.getLsbD_and, BitVec.ofNat_eq_ofNat,
    BitVec.getLsbD_zero, not_forall, Bool.not_eq_false, Bool.and_eq_true, Fin.exists_iff]

/-- Causes without a flag outside `m` lie in `m`. -/
theorem and_eq_self_of_outside {c m : Causes} (h : c &&& ~~~m = 0) : c &&& m = c := by
  calc c &&& m = c &&& m ||| c &&& ~~~m := by rw [h]; exact BitVec.or_zero.symm
    _ = c := by rw [← BitVec.and_or_distrib_left, BitVec.or_not_self, BitVec.and_allOnes]

end Sys2Proof.Machine

namespace Sys2Proof.Claims

open Machine F32

/-! ### The checks as conditions (R303, R304) -/

theorem raise_eq_self_iff {p : Bool} {c : Causes} (hc : c ≠ 0) : raise p c = c ↔ p = true := by
  cases p with
  | false => exact iff_of_false hc.symm Bool.false_ne_true
  | true => exact iff_of_true rfl rfl

theorem raise_eq_zero_iff {p : Bool} {c : Causes} (hc : c ≠ 0) : raise p c = 0 ↔ p = false := by
  cases p with
  | false => exact iff_of_true rfl rfl
  | true => exact iff_of_false hc Bool.true_eq_false.mp

section

variable {v lo hi : Word} (hlo : isFinite lo = true) (hhi : isFinite hi = true)
include hlo hhi

/-- A value is flagged by the check on a closed range just when it is finite and beyond a bound. -/
theorem outside_closed_iff : (isFinite v && !(le lo v && le v hi)) = true ↔
    isFinite v = true ∧ (val v < val lo ∨ val hi < val v) := by
  cases hv : isFinite v with
  | false => simp
  | true =>
    have hn := isNaN_of_isFinite hv
    rw [le_numbers (isNaN_of_isFinite hlo) hn, le_numbers hn (isNaN_of_isFinite hhi)]
    simp

/-- A value is flagged by the check on an open range just when it is finite and at or beyond a bound. -/
theorem outside_open_iff : (isFinite v && !(lt lo v && lt v hi)) = true ↔
    isFinite v = true ∧ (val v ≤ val lo ∨ val hi ≤ val v) := by
  cases hv : isFinite v with
  | false => simp
  | true =>
    have hn := isNaN_of_isFinite hv
    rw [lt_numbers (isNaN_of_isFinite hlo) hn, lt_numbers hn (isNaN_of_isFinite hhi)]
    simp

end

/-! ### The causes of a command lie in its row (R302) -/

section

variable {m : Causes}

theorem checkFinite_and_eq_zero (hn : nonfinite &&& m = 0) (v : Word) : checkFinite v &&& m = 0 := by
  rw [checkFinite_eq]
  exact raise_and_eq_zero _ hn

theorem checkRange_and_eq_zero (hp : param &&& m = 0) (v lo hi : Word) :
    checkRange v lo hi &&& m = 0 := raise_and_eq_zero _ hp

theorem checkRangeOpen_and_eq_zero (hp : param &&& m = 0) (v lo hi : Word) :
    checkRangeOpen v lo hi &&& m = 0 := raise_and_eq_zero _ hp

end

/-- A legal command completes, and raises no flag of a set that its row of the flag table does not meet. -/
theorem exec_raises_within {i : Instr} (h : i.wellFormed = true) (s : State) {m : Causes}
    (hm : mayRaise i &&& m = 0) :
    ∃ t c, exec i s = .next t ∧ t.status = s.status ||| c ∧ c &&& m = 0 := by
  cases i with
  | nop | srst => exact ⟨_, _, rfl, rfl, BitVec.zero_and⟩
  | dlw | phs | sata => exact ⟨_, _, rfl, rfl, checkFinite_and_eq_zero hm _⟩
  | dlrStep | dlrLinear | dlrCosine | dlrCubic | dlrSpline =>
    obtain ⟨hr, hn⟩ := or_and_eq_zero.1 hm
    exact ⟨_, _, rfl, rfl,
      or_and_eq_zero.2 ⟨checkFinite_and_eq_zero hn _, dlCauses_and_eq_zero hr s _ _ _⟩⟩
  | opfHz =>
    obtain ⟨k, hk⟩ := unitOnePole_of_legal h
    simp only [exec, execOpfHz, hk]
    exact ⟨_, _, rfl, rfl,
      or_and_eq_zero.2 ⟨checkFinite_and_eq_zero hm _, checkFinite_and_eq_zero hm _⟩⟩
  | opfLin =>
    obtain ⟨k, hk⟩ := unitOnePole_of_legal h
    obtain ⟨hp, hn⟩ := or_and_eq_zero.1 hm
    simp only [exec, execOpfLin, hk]
    refine ⟨_, _, rfl, rfl, ?_⟩
    simp only [or_and_eq_zero, checkFinite_and_eq_zero hn, checkRange_and_eq_zero hp, and_self]
  | apf =>
    obtain ⟨k, hk⟩ := unitTap_of_legal h
    obtain ⟨hrp, hn⟩ := or_and_eq_zero.1 hm
    obtain ⟨hr, hp⟩ := or_and_eq_zero.1 hrp
    simp only [exec, execApf, hk]
    refine ⟨_, _, rfl, rfl, or_and_eq_zero.2 ⟨?_, dlCauses_and_eq_zero hr s _ _ _⟩⟩
    simp only [or_and_eq_zero, checkFinite_and_eq_zero hn, checkRangeOpen_and_eq_zero hp, and_self]
  | tapr =>
    obtain ⟨k, hk⟩ := unitTap_of_legal h
    obtain ⟨hrp, hn⟩ := or_and_eq_zero.1 hm
    obtain ⟨hr, hp⟩ := or_and_eq_zero.1 hrp
    have hbody := Body.ofGrains (tapRead_grainsOnly s k (opr s 0) (opr s 1) (opr s 2))
    refine ⟨_, _, exec_tapr hk rfl, congrArg (· ||| _) hbody.status,
      or_and_eq_zero.2 ⟨?_, tapRead_causes hr s _ _ _ _⟩⟩
    simp only [taprChecks, ← checkFinite_eq, ← checkRange_eq, or_and_eq_zero,
      checkFinite_and_eq_zero hn, checkRange_and_eq_zero hp, and_self]
  | erc =>
    obtain ⟨hrp, hn⟩ := or_and_eq_zero.1 hm
    obtain ⟨hr, hp⟩ := or_and_eq_zero.1 hrp
    refine ⟨_, _, rfl, rfl, or_and_eq_zero.2 ⟨?_, erProcess_causes hr s _⟩⟩
    simp only [or_and_eq_zero, checkFinite_and_eq_zero hn, checkRange_and_eq_zero hp, and_self]
  | fdn =>
    obtain ⟨hrp, hn⟩ := or_and_eq_zero.1 hm
    obtain ⟨hr, hp⟩ := or_and_eq_zero.1 hrp
    exact ⟨_, _, exec_fdn s, fdnResult_status s,
      or_and_eq_zero.2 ⟨fdnOperandCauses_and_eq_zero hp hn s, fdnStep_causes_and hr s _⟩⟩
  | cond =>
    obtain ⟨hp, hn⟩ := or_and_eq_zero.1 hm
    exact ⟨_, _, rfl, rfl,
      or_and_eq_zero.2 ⟨checkFinite_and_eq_zero hn _, checkRange_and_eq_zero hp _ _ _⟩⟩

/-- A command whose `UNIT` names no unit of its kind is refused as an illegal word is (log entry 11). -/
theorem exec_illFormed {i : Instr} (h : i.wellFormed = false) (s : State) :
    exec i s = .next (done s badcmd) := by
  cases i with
  | opfHz => rw [exec, execOpfHz, unitOnePole_of_illegal h]; rfl
  | opfLin => rw [exec, execOpfLin, unitOnePole_of_illegal h]; rfl
  | apf => rw [exec, execApf, unitTap_of_illegal h]; rfl
  | tapr => rw [exec, execTapr, unitTap_of_illegal h]; rfl
  | nop | dlw | dlrStep | dlrLinear | dlrCosine | dlrCubic | dlrSpline | phs | erc | sata | fdn | cond
  | srst => exact Bool.noConfusion h

/-! ### The claims -/

/-- Settles O7: a host transaction leaves the configuration, and so does the completion of what is in
flight. -/
theorem stepAlwaysContinues : Obligations.StepAlwaysContinues := by
  intro s
  rcases step_cases s with ⟨-, e⟩ | ⟨a, rest, -, e⟩ | ⟨a, v, rest, -, e⟩ | ⟨rest, -, e⟩ |
    ⟨rest, -, e⟩ <;> rw [e]
  · exact settle_continues s
  · exact ⟨_, rfl, hostRead_cfg _ a⟩
  · exact ⟨_, rfl, hostWrite_cfg _ a v⟩
  · exact settle_continues (s.takeEvent rest)
  · exact ⟨_, rfl, rfl⟩

/-- Settles O10: the causes of a legal command have no flag outside its row, and an ill-formed one is
refused. -/
theorem flagsPerCommand : Obligations.FlagsPerCommand := by
  refine fun i s => ⟨fun h => ?_, fun h => exec_illFormed h s⟩
  obtain ⟨t, c, hexec, hstatus, houtside⟩ := exec_raises_within h s (BitVec.and_not_self _)
  exact ⟨t, c, hexec, hstatus, and_eq_self_of_outside houtside⟩

/-- Settles O18: outside reset the output is high when `STATUS` and `IRQEN` have a bit in common. -/
theorem interruptOutput : Obligations.InterruptOutput := by
  intro s
  rw [← and_ne_zero_iff, State.irq]
  cases s.seq <;> simp

/-- Settles O60: each check is its cause raised under the condition on values that its comparisons are. -/
theorem rangeCheckBounds : Obligations.RangeCheckBounds := by
  have hparam : param ≠ 0 := by decide
  have hnonfinite : nonfinite ≠ 0 := by decide
  obtain ⟨hsize, hsize', hdepth, hdepth'⟩ := tapr_bounds
  obtain ⟨hspeed, hspeed', hdiffuse, hdecay, hdecay'⟩ := fdn_bounds
  refine ⟨⟨hsize, hsize', hspeed, hspeed', hdepth, hdepth', hdiffuse, hdecay, hdecay'⟩,
    fun v lo hi hlo hhi => ?_, fun v => ?_⟩
  · have hclosed := outside_closed_iff (v := v) hlo hhi
    have hopen := outside_open_iff (v := v) hlo hhi
    rw [checkRange_eq, rangeCheck, checkRangeOpen_eq]
    simp only [raise_eq_self_iff hparam, raise_eq_zero_iff hparam, ← Bool.not_eq_true, hclosed, hopen,
      not_and_or, not_or, not_lt, not_le, and_self]
  · rw [checkFinite_eq, finiteCheck, raise_eq_self_iff hnonfinite, raise_eq_zero_iff hnonfinite]
    simp

end Sys2Proof.Claims
end

section
/-! PROOFS. The command handshake and the end of a reset (70_reset_and_hazards.md R340 to R351): what the
next event makes of a step, what the completion of each thing in flight is, and the values of a reset. -/

namespace Sys2Proof.Machine

/-! ### A step by its next event -/

section

variable {s : State} {rest : List PortEvent}

theorem step_of_no_event (he : s.events = []) : step s = s.settle := by rw [step, he]

theorem step_of_wait (he : s.events = .wait :: rest) : step s = (s.takeEvent rest).settle := by
  rw [step, he]
  rfl

theorem step_of_reset (he : s.events = .reset :: rest) :
    step s = .next (s.takeEvent rest).assertReset := by
  rw [step, he]
  rfl

end

/-! ### The completion of what is in flight -/

/-- The completion of a decoded command is its meaning (R350). -/
theorem settle_of_command {s : State} {i : Instr} (hs : s.seq = .running (some i)) :
    s.settle = exec i s := by rw [State.settle, hs]

theorem settle_of_resetting {s : State} (hs : s.seq = .resetting) :
    s.settle = .next s.finishReset := by rw [State.settle, hs]

/-- Whatever is in flight, a legal command or an illegal word, its completion drops `BUSY`. -/
theorem seq_idle_of_settle {s t : State} {c : Option Instr} (hs : s.seq = .running c)
    (h : s.settle = .next t) : t.seq = .idle := by
  rcases settle_cases s with ⟨hidle, -⟩ | ⟨hreset, -⟩ | ⟨-, r, d, e, -⟩
  · cases hs.symm.trans hidle
  · cases hs.symm.trans hreset
  · rw [e] at h
    cases h
    exact State.complete_seq r d

/-! ### The acceptance of a command word -/

theorem accept_of_ok {w : Word} {i : Instr} (h : decode w = .ok i) (s : State) :
    s.accept w = { s with seq := .running (some i) } := by
  rw [State.accept, h]
  rfl

theorem withFetchWord_toNat (s : State) (w : Word) : s.withFetchWord 32 w.toNat = s.acceptNow w := by
  rw [State.withFetchWord, Nat.mod_eq_of_lt w.isLt, BitVec.ofNat_toNat, BitVec.setWidth_eq]

/-! ### Host transactions and the sequencer -/

theorem hostRead_seq (s : State) (a : BitVec 10) : (s.hostRead a).seq = s.seq := by
  rcases hostRead_cases s a with e | e <;> rw [e]

/-- Only an idle core accepts a command: no other write moves the sequencer (R351, R352). -/
theorem hostWrite_seq_of_not_idle {s : State} (hs : s.seq ≠ .idle) (a : BitVec 10) (v : Word) :
    (s.hostWrite a v).seq = s.seq := by
  rcases hostWrite_cases s a v with e | ⟨hidle, -, -⟩ | ⟨-, -, e⟩ | ⟨-, -, e⟩ | ⟨-, -, e⟩ |
    ⟨-, i, -, e⟩ | ⟨-, e⟩
  case inr.inl => exact absurd hidle hs
  all_goals simp [e]

/-! ### A command and the flags cleared before its completion -/

/-- A command completes on the flags it finds: it adds to any of them the causes that it leaves in a
`STATUS` of 0 (R51, R300). -/
theorem exec_merges_causes (i : Instr) (s : State) (f : Causes) :
    ∃ t causes, exec i { s with status := f } = .next t ∧
      exec i { s with status := 0 } = .next { t with status := causes } ∧ t.status = f ||| causes := by
  obtain ⟨r, c, hexec⟩ := exec_withFlags i s
  have hzero : (0 : Causes) ||| c = c := BitVec.zero_or
  refine ⟨_, c, hexec f s.irqen, ?_, rfl⟩
  rw [← hzero]
  exact hexec 0 s.irqen

end Sys2Proof.Machine

namespace Sys2Proof.Claims

open Machine

/-! ### The values of a reset (R340) -/

theorem resetValues_resetWith (c : Config) : resetValues (State.resetWith c) := by
  have hlines := memRead_of_empty_lines (s := State.resetWith c) rfl
  refine ⟨fun u => (hlines u).1, fun u => (hlines u).2, fun u => ?_, rfl, fun i => ?_, rfl, fun i => ?_,
    rfl, rfl, rfl, rfl, rfl, rfl, ?_⟩ <;> simp [F32.zero, State.irq]

/-- A completed reset differs from the state a core is built with in the model's own fields only, which no
reset value is about. -/
theorem resetValues_finishReset (s : State) : resetValues s.finishReset := resetValues_resetWith s.cfg

/-! ### The claims -/

/-- Settles O12: a read or a write of a running core leaves its sequencer, and the completion of anything
in flight ends it. -/
theorem oneCommandInFlight : Obligations.OneCommandInFlight := by
  intro s t c hs h
  rcases step_cases s with ⟨he, e⟩ | ⟨a, rest, he, e⟩ | ⟨a, v, rest, he, e⟩ | ⟨rest, he, e⟩ |
    ⟨rest, he, e⟩ <;> rw [e] at h <;> simp only [nextEvent, he]
  · exact .inr (.inl ⟨seq_idle_of_settle hs h, .inl rfl⟩)
  · cases h
    exact .inl ⟨(hostRead_seq _ a).trans hs, _, rfl, nofun, nofun⟩
  · cases h
    have hbusy : (s.takeEvent rest).seq ≠ .idle := by rw [State.takeEvent_seq, hs]; nofun
    exact .inl ⟨(hostWrite_seq_of_not_idle hbusy a v).trans hs, _, rfl, nofun, nofun⟩
  · exact .inr (.inl ⟨seq_idle_of_settle (s := s.takeEvent rest) hs h, .inr rfl⟩)
  · cases h
    exact .inr (.inr ⟨rfl, rfl⟩)

/-- Settles O5: the acceptance of a word that decodes, and its completion by each of the two ways. -/
theorem stepRunsTheDecodedCommand : Obligations.StepRunsTheDecodedCommand := by
  intro s w i hw
  refine ⟨fun rest hs he => ?_, fun hs he => ?_, fun rest hs he => ?_, ?_⟩
  · rw [step_write_idle hs he]
    exact congrArg Host.Outcome.next (accept_of_ok hw _)
  · rw [step_of_no_event he, settle_of_command hs]
  · rw [step_of_wait he]
    exact settle_of_command hs
  · rw [withFetchWord_toNat, step_of_wait (State.acceptNow_events s w), State.acceptNow, accept_of_ok hw]
    exact settle_of_command rfl

/-- Settles O20: the two steps are the assertion of the reset and its completion. -/
theorem resetAbandonsTheCommand : Obligations.ResetAbandonsTheCommand := by
  intro s c rest _ he
  exact ⟨_, _, step_of_reset he, (step_of_wait rfl).trans (settle_of_resetting rfl),
    resetValues_finishReset _, rfl, rfl, rfl, rfl⟩

end Sys2Proof.Claims
end

section
/-! PROOFS. The register port of a core that runs a command or is in reset (70_reset_and_hazards.md R341,
R352, R353): which registers answer their value, and where the tables of the claims put them. -/

namespace Sys2Proof.Machine

section

variable {s : State} {c : Option Instr}

theorem hostWrite_of_running (hs : s.seq = .running c) (a : BitVec 10) (v : Word) :
    s.hostWrite a v = s.writeBusy (regAt a) v := by rw [State.hostWrite, hs]

theorem hostWrite_of_resetting (hs : s.seq = .resetting) (a : BitVec 10) (v : Word) :
    s.hostWrite a v = s := by rw [State.hostWrite, hs]

theorem readDefined_of_idle (hs : s.seq = .idle) (r : Reg) : s.readDefined r = true := by
  rw [State.readDefined, hs]

theorem readDefined_of_running (hs : s.seq = .running c) (r : Reg) :
    s.readDefined r = r.readableWhileBusy := by rw [State.readDefined, hs]

theorem readDefined_of_resetting (hs : s.seq = .resetting) (r : Reg) :
    s.readDefined r = r.readableInReset := by rw [State.readDefined, hs]

theorem statusWord_of_running (hs : s.seq = .running c) :
    s.statusWord = 0x80000000 ||| s.status.setWidth 32 := by
  rw [State.statusWord, hs]
  rfl

theorem statusWord_of_resetting (hs : s.seq = .resetting) : s.statusWord = 0x80000000 := by
  rw [State.statusWord, hs]
  rfl

end

end Sys2Proof.Machine

namespace Sys2Proof.Claims

open Machine

/-! ### Where the registers are -/

theorem regAt_status : regAt (at' 0x00C) = .status := by decide

theorem eq_of_regAt_status {a : BitVec 10} (h : regAt a = .status) : a = at' 0x00C := by
  have ha := regAt_offset a
  rwa [h] at ha

/-- Every register but `STATUS` has one value, whatever the core is doing. -/
theorem regValue_regAt (s : State) (a : BitVec 10) :
    s.regValue (regAt a) = if a = at' 0x00C then s.statusWord else idleRead s a := by
  split
  next ha => rw [ha, regAt_status, State.regValue]
  next ha =>
    have hidle : idleRead s a = State.regValue { s with seq := .idle } (regAt a) :=
      idleRead_eq_regValue (s := { s with seq := .idle }) rfl a
    rw [hidle]
    cases hr : regAt a with
    | status => exact absurd (eq_of_regAt_status hr) ha
    | _ => rfl

/-- What the tables of the claims say of a word index and the register there: whether it answers its value
while a command runs (R353) and in reset (R341), and what a write does while a command runs (R352). -/
structure PortRow (a : BitVec 10) (r : Reg) : Prop where
  readBusy : r.readableWhileBusy = !busyDraw a
  readInReset : ∀ c : Config, r.readableInReset = ((constantAt c a).isSome || a == at' 0x00C)
  writeBusy : ∀ (s : State) (v : Word), s.writeBusy r v =
    if a = at' 0x008 ∨ a = at' 0x01C ∨ (indexIn a 0x020 8).isSome then
      { s with status := s.status ||| overrun }
    else if a = at' 0x00C then { s with status := s.status &&& ~~~(v.setWidth 5) }
    else if a = at' 0x010 then { s with irqen := v.setWidth 5 }
    else s

/-- The tables of the claims are the model's, row by row of the register map. -/
theorem portRow_regAt (a : BitVec 10) : PortRow a (regAt a) := by
  obtain ⟨n, hn, ha⟩ | ⟨hr, ha⟩ := regAt_row_or_outside a
  · generalize regAt a = r at hn
    subst ha
    cases r with
    | reserved => cases hn
    | opr i | dbgY i | dbgCursor i | dbgLength i | dbgGprev i | dbgGoff i =>
      cases hn
      fin_cases i <;> exact ⟨rfl, fun _ => rfl, fun _ _ => rfl⟩
    | _ => cases hn; exact ⟨rfl, fun _ => rfl, fun _ _ => rfl⟩
  · rw [hr]
    constructor <;>
      simp (disch := decide) [busyDraw, constantAt_outsideMap _ ha, ne_of_outsideMap ha,
        indexIn_outsideMap ha, Reg.readableWhileBusy, Reg.readableInReset, State.writeBusy]

/-- A constant register has the value of the claims' table, whatever the core is doing. -/
theorem regValue_of_constantAt {s : State} {a : BitVec 10} {v : Word}
    (h : constantAt s.cfg a = some v) : s.regValue (regAt a) = v := by
  have ha : a ≠ at' 0x00C := by
    rintro rfl
    cases h
  rw [regValue_regAt, if_neg ha, idleRead, h]

/-- An idle core answers the constants (R340). -/
theorem hostRead_constant {s : State} {a : BitVec 10} {v : Word} (hs : s.seq = .idle)
    (h : constantAt s.cfg a = some v) : (s.hostRead a).rdata = v := by
  rw [State.hostRead, if_pos (readDefined_of_idle hs _)]
  exact regValue_of_constantAt h

/-! ### The claims -/

/-- Settles O16: the write is that of the busy table, and a command completes on the cleared flags with the
causes it raises on none. -/
theorem writesWhileBusy : Obligations.WritesWhileBusy := by
  intro s c a v rest hs he
  have hstep : step s = .next ((s.takeEvent rest).writeBusy (regAt a) v) := by
    rw [step_of_write he, hostWrite_of_running (s := s.takeEvent rest) hs]
  refine ⟨?_, ?_⟩
  · rintro i tail rfl rfl rfl
    obtain ⟨t, causes, hclear, hzero, hstatus⟩ :=
      exec_merges_causes i (s.takeEvent tail) (s.status &&& ~~~(v.setWidth 5))
    rw [regAt_status] at hstep
    refine ⟨_, t, causes, hstep, ?_, hzero, hstatus⟩
    rw [← hclear]
    exact (step_of_wait rfl).trans (settle_of_command hs)
  · rw [hstep, (portRow_regAt a).writeBusy]
    rfl

/-- Settles O17: a read is defined at the offsets outside the table of free values, and answers there what an
idle core answers, but for `STATUS`. -/
theorem readsWhileBusy : Obligations.ReadsWhileBusy := by
  intro s c a rest hs he
  have hbusy : (s.takeEvent rest).seq = .running c := hs
  rw [step_of_read he, State.hostRead, readDefined_of_running hbusy, (portRow_regAt a).readBusy,
    regValue_regAt, statusWord_of_running hbusy]
  cases busyDraw a with
  | true => rfl
  | false =>
    by_cases ha : a = at' 0x00C
    · rw [if_pos ha, if_pos ha]
      rfl
    · rw [if_neg ha, if_neg ha]
      rfl

/-- Settles O21: the reads that are defined in reset are the constants and `STATUS`. -/
theorem resetInProgress : Obligations.ResetInProgress := by
  intro s hs
  refine ⟨?_, fun a v rest he => ?_, fun a rest he => ?_, fun rest he => ?_⟩
  · rw [State.irq, hs]
  · rw [step_of_write he, hostWrite_of_resetting (s := s.takeEvent rest) hs]
    rfl
  · have hreset : (s.takeEvent rest).seq = .resetting := hs
    rw [step_of_read he, State.hostRead, readDefined_of_resetting hreset,
      (portRow_regAt a).readInReset s.cfg]
    cases hc : constantAt s.cfg a with
    | some v =>
      rw [regValue_of_constantAt (s := s.takeEvent rest) hc]
      rfl
    | none =>
      by_cases ha : a = at' 0x00C
      · rw [regValue_regAt, if_pos ha, if_pos ha, statusWord_of_resetting hreset]
        simp [ha]
      · simp [ha]
  · rw [step_of_wait he]
    exact ⟨_, settle_of_resetting hs, resetValues_finishReset _, rfl⟩

/-- Settles O19: a completed reset and a core just built have the values of R340, and both are idle, where
the constants answer. -/
theorem hardwareResetValues : Obligations.HardwareResetValues := by
  refine ⟨fun s hs he => ⟨statusWord_of_resetting hs, s.finishReset, ?_, rfl, resetValues_finishReset s,
    fun _ _ => hostRead_constant (s := s.finishReset) rfl⟩,
    fun c => ⟨resetValues_resetWith c, fun _ _ => hostRead_constant (s := .resetWith c) rfl⟩, rfl⟩
  rw [step_of_no_event he, settle_of_resetting hs]

end Sys2Proof.Claims
end
